-- ==== Sys2Proof/Word.lean ====
section
/-! DEFINITION. The word types of the block: bytes and 16-bit values (00_scope.md R8). -/

namespace Sys2Proof

/-- One byte of the wire, of scratch or of a table. -/
abbrev Byte := BitVec 8

/-- A 16-bit value: a colour, a coordinate operand, a controller address, a pixel. -/
abbrev Word16 := BitVec 16

end Sys2Proof
end

