-- ==== Sys2Proof/Config.lean ====
section
/-! DEFINITION. The configuration of the block (00_scope.md R6; 10_state.md R24), the Command Record
format (30_encoding.md R95, R96), the free values the spec leaves open, and the configuration that
95_test_vectors.md section 0 fixes. -/

namespace Sys2Proof

/-- The level of a logical pin (10_state.md R26). -/
inductive Level where
  | low
  | high
  deriving DecidableEq, Repr, Inhabited

/-- Format CR, one record of the init table (R95): opcode, parameter array, count byte. -/
structure CommandRecord where
  op     : Byte
  params : List Byte
  count  : Byte
  deriving DecidableEq, Repr

/-- The five column bytes of one glyph (R200); that there are five is part of `Config.wf`
(Machine/Legal.lean). -/
abbrev Glyph := List Byte

/-- What the transport answers to one transaction (R260). A failed transaction delivered an unknown
prefix of its bytes (R66): `delivered` is how many, at most all of them. -/
inductive TxAnswer where
  | ok
  | err (delivered : Nat)
  deriving DecidableEq, Repr, Inhabited

/-- The configuration (R6), every parameter of the table by name. `panelModeOk` is the premise
PANEL_MODE_OK of R243 about `initTable` and the panel (log 14). -/
structure Config where
  width         : Nat
  height        : Nat
  bpp           : Nat
  scratchBytes  : Nat
  offsetX       : Nat
  offsetY       : Nat
  resetDelayMs  : Nat
  initDelayMs   : Nat
  countMask     : Byte
  delayFlag     : Byte
  sentinel      : Byte
  maxParams     : Nat
  opCaset       : Byte
  opRaset       : Byte
  opRamwr       : Byte
  initTable     : List CommandRecord
  font          : List Glyph
  nGlyphs       : Nat
  blOnLevel     : Level
  glyphW        : Nat
  glyphH        : Nat
  cellW         : Nat
  cellH         : Nat
  maxTextRow    : Nat
  maxTextCol    : Nat
  panelModeOk   : Bool
  deriving DecidableEq, Repr

namespace Config

/-- FREE VALUE (R260, D20; log 1): the transport's answer to the `n`-th transaction, where the
environment input `State.answers` does not give one. It has no body, so nothing is known of it. -/
opaque transportAnswer : Nat → TxAnswer

/-- FREE VALUE (R23, D22; log 3): what scratch offset `off` holds after block reset number `epoch`
until a rule writes it. -/
opaque unspecifiedByte : (epoch off : Nat) → Byte

end Config

/-- A Command Record whose array holds `ps` and then zero bytes up to MAX_PARAMS = 16. -/
def CommandRecord.padded (op : Byte) (ps : List Byte) (count : Byte) : CommandRecord :=
  { op := op, params := ps ++ List.replicate (16 - ps.length) 0x00#8, count := count }

/-- 95_test_vectors.md section 0: the illustrative init table T1. -/
def testTable : List CommandRecord :=
  [ .padded 0x01#8 [] 0x80#8, .padded 0x11#8 [] 0x80#8, .padded 0x3A#8 [0x05#8] 0x01#8,
    .padded 0x36#8 [0xC8#8] 0x61#8, .padded 0x29#8 [] 0x80#8, .padded 0x00#8 [] 0xFF#8 ]

/-- 95_test_vectors.md section 0: TEST_FONT, 128 glyphs, blank but for 'A' and 'B'. -/
def testFont : List Glyph :=
  List.replicate 65 (List.replicate 5 0x00#8)
    ++ [[0x03#8, 0x00#8, 0x00#8, 0x00#8, 0x00#8], [0x01#8, 0x00#8, 0x00#8, 0x00#8, 0x00#8]]
    ++ List.replicate 61 (List.replicate 5 0x00#8)

/-- The reference values of R6, with the OPEN parameters as 95_test_vectors.md section 0 fixes them and
`panelModeOk` false. DESIGN CHOICE (log 7, log 14): unsafe to rest a claim on an OPEN one. -/
def Config.reference : Config where
  width := 128
  height := 160
  bpp := 2
  scratchBytes := 40960
  offsetX := 2
  offsetY := 1
  resetDelayMs := 500
  initDelayMs := 100
  countMask := 0x1F#8
  delayFlag := 0x80#8
  sentinel := 0xFF#8
  maxParams := 16
  opCaset := 0x2A#8
  opRaset := 0x2B#8
  opRamwr := 0x2C#8
  initTable := testTable
  font := testFont
  nGlyphs := 128
  blOnLevel := .high
  glyphW := 5
  glyphH := 8
  cellW := 6
  cellH := 8
  maxTextRow := 15
  maxTextCol := 20
  panelModeOk := false

end Sys2Proof
end

