-- ==== Sys2Proof/Machine/Legal.lean ====
section
/-! DEFINITION. Which configurations are well-formed (00_scope.md R7; 10_state.md R24; 30_encoding.md R96). Any
other is refused before any step. -/

namespace Sys2Proof

namespace Config

/-- R96: a well-formed init table. Exactly one record has the sentinel count and it is the last; every
other record's masked count is within the parameter array, which has `maxParams` bytes (R95). -/
def tableWf (c : Config) : List CommandRecord → Bool
  | [] => false
  | [r] => decide (r.count = c.sentinel) && decide (r.params.length = c.maxParams)
  | r :: rs =>
    decide (r.count ≠ c.sentinel) && decide ((r.count &&& c.countMask).toNat ≤ c.maxParams)
      && decide (r.params.length = c.maxParams) && tableWf c rs

/-- R7, condition 7: the first `n` glyphs are there, five bytes each. -/
def fontWf : Nat → List Glyph → Bool
  | 0, _ => true
  | _ + 1, [] => false
  | n + 1, g :: gs => decide (g.length = 5) && fontWf n gs

/-- R7: the eight conditions of a well-formed configuration. -/
def meetsR7 (c : Config) : Bool :=
  decide (1 ≤ c.width) && decide (1 ≤ c.height)
    && decide (c.scratchBytes = c.width * c.height * 2)
    && decide (c.width - 1 + c.offsetX ≤ 255)
    && decide (c.height - 1 + c.offsetY ≤ 255)
    && decide (c.opCaset ≠ c.opRaset) && decide (c.opCaset ≠ c.opRamwr)
    && decide (c.opRaset ≠ c.opRamwr)
    && c.tableWf c.initTable
    && fontWf c.nGlyphs c.font
    && decide (c.nGlyphs ≤ 256)

/-- R24: the hardwired fields have their fixed values, and the delays fit 32 bits. -/
def hardwired (c : Config) : Bool :=
  decide (c.bpp = 2) && decide (c.countMask = 0x1F#8) && decide (c.delayFlag = 0x80#8)
    && decide (c.sentinel = 0xFF#8) && decide (c.maxParams = 16)
    && decide (c.glyphW = 5) && decide (c.glyphH = 8) && decide (c.cellW = 6)
    && decide (c.cellH = 8) && decide (c.maxTextRow = 15) && decide (c.maxTextCol = 20)
    && decide (c.resetDelayMs < 2 ^ 32) && decide (c.initDelayMs < 2 ^ 32)

/-- A legal configuration: R7 and R24 together. Any other is refused before any step (R7, R267). -/
def wf (c : Config) : Bool := c.meetsR7 && c.hardwired

end Config

end Sys2Proof
end

