-- ==== Sys2Proof/Syntax.lean ====
section
/-! DEFINITION. The instructions: one constructor per row of spec/opcode_table.json, with the operands
30_encoding.md R98 to R100 give it. -/

namespace Sys2Proof

/-- The rows of the opcode table. Requests come from the client (R98), micro-operations are the
sequencer's own (R99), and the wire commands are what the receiver executes (R97). -/
inductive Instr where
  /-- INIT, request 0x00 (R140). -/
  | init
  /-- FILL_SCREEN, request 0x01 (R171). -/
  | fillScreen (color : Word16)
  /-- FILL_RECT, request 0x02 (R175): `x`, `y` are two's complement, `w`, `h` unsigned. -/
  | fillRect (x y w h color : Word16)
  /-- DRAW_PIXEL, request 0x03 (R177). -/
  | drawPixel (x y color : Word16)
  /-- DRAW_CHAR, request 0x04 (R203). -/
  | drawChar (x y : Word16) (ch : Byte) (fg bg : Word16) (size : Byte)
  /-- DRAW_STRING, request 0x05 (R207). -/
  | drawString (col row : Byte) (text : List Byte) (fg bg : Word16) (size : Byte)
  /-- RESERVED, request selectors 0x06 to 0xFF (R101). -/
  | reserved (sel : Byte)
  /-- SEND_COMMAND, micro-operation 0x10 (R130). -/
  | sendCommand (op : Byte)
  /-- SEND_PARAMETERS, micro-operation 0x11 (R131). -/
  | sendParameters (bs : List Byte)
  /-- SELECT_WINDOW, micro-operation 0x12 (R134): integer corners. -/
  | selectWindow (x0 y0 x1 y1 : Int)
  /-- RUN_INIT_SEQUENCE, micro-operation 0x13 (R138). -/
  | runInitSequence
  /-- CASET, wire command OP_CASET and the data bytes that follow it (R235). -/
  | caset (data : List Byte)
  /-- RASET, wire command OP_RASET and the data bytes that follow it (R236). -/
  | raset (data : List Byte)
  /-- RAMWR, wire command OP_RAMWR and the pixel bytes that follow it (R237 to R239). -/
  | ramwr (data : List Byte)
  deriving DecidableEq, Repr

end Sys2Proof
end

