-- ==== Sys2Proof/WellFormed.lean ====
section
/-! DEFINITION. Which instructions are well-formed: the operand ranges 30_encoding.md R93 to R101 give,
beyond those the types of `Instr` already give. -/

namespace Sys2Proof

/-- The corners of SELECT_WINDOW are ordered and not negative (R135), and fit the 16-bit fields of the
model's byte layout (log 5). The panel's bounds are the configuration's: the meaning checks them. -/
def cornersOrdered (a0 a1 : Int) : Bool :=
  decide (0 ≤ a0) && decide (a0 ≤ a1) && decide (a1 ≤ 32767)

/-- R98 to R101: the checks on an instruction as a term. -/
def Instr.wf : Instr → Bool
  | .init => true
  | .fillScreen _ => true
  | .fillRect _ _ _ _ _ => true
  | .drawPixel _ _ _ => true
  | .drawChar _ _ _ _ _ _ => true
  | .drawString _ _ text _ _ _ => text.all (fun b => decide (b ≠ 0x00#8))
  | .reserved sel => decide (6 ≤ sel.toNat)
  | .sendCommand _ => true
  | .sendParameters _ => true
  | .selectWindow x0 y0 x1 y1 => cornersOrdered x0 x1 && cornersOrdered y0 y1
  | .runInitSequence => true
  | .caset data => decide (data.length = 4)
  | .raset data => decide (data.length = 4)
  | .ramwr data => decide (data.length % 2 = 0)

end Sys2Proof
end

