-- ==== Sys2Proof/Decode.lean ====
section
/-! DEFINITION. Frames and their decoding (30_encoding.md R90 to R102): the three ports, the request pair
(sel, operands) of R98 with the width check of R100 and R101, the byte layout of a frame, the decoder,
and after it the encoder, written from the same operand shapes. -/

namespace Sys2Proof

/-! ### Bytes and 16-bit values (00_scope.md R8, R9) -/

/-- `v[7:0]` of a 16-bit value. -/
def loByte (v : Word16) : Byte := v.extractLsb' 0 8

/-- `v[15:8]` of a 16-bit value. -/
def hiByte (v : Word16) : Byte := v.extractLsb' 8 8

/-- `{hi, lo}`: the 16-bit value of two bytes (R8). -/
def joinBytes (hi lo : Byte) : Word16 := hi ++ lo

/-- `byte(v) = v mod 256` (R9). -/
def byteOf (v : Int) : Byte := BitVec.ofInt 8 v

/-- The 16-bit field that holds an integer, two's complement (R100). -/
def wordOf (v : Int) : Word16 := BitVec.ofInt 16 v

/-- The text operand is read up to but excluding its first 0x00 byte (R100, D17). -/
def cText (bs : List Byte) : List Byte := bs.takeWhile (fun b => decide (b ≠ 0x00#8))

/-! ### Frames -/

/-- Where a frame arrives: the client's request port (R98), the sequencer's micro-operation latch (R99),
or the controller's side of the wire (R90, R97). -/
inductive Port where
  | request
  | micro
  | wire
  deriving DecidableEq, Repr

/-- One operand as it is offered, before its width is checked (R98, R101). -/
inductive Operand where
  | int (v : Int)
  | bytes (bs : List Byte)
  deriving DecidableEq, Repr

/-- A frame: the port, the first byte (a selector, a micro-operation id or a wire opcode), and the
operands. On the request port it is the pair `(sel, operands)` of R98; on the wire the first byte is a
command transaction (W-CMD, R91) and the one operand the data bytes that follow it (W-DATA, R92). -/
structure Frame where
  port     : Port
  head     : Byte
  operands : List Operand
  deriving DecidableEq, Repr

/-- Why a frame is no instruction. -/
inductive Reject where
  /-- No first byte at all. -/
  | emptyFrame
  /-- The operands do not fit the shapes of R100 (R101). -/
  | badOperands (sel : Byte)
  /-- No micro-operation has this id (R99). -/
  | unknownMicroOp (id : Byte)
  /-- A wire command other than CASET, RASET, RAMWR: no row of the table, but the receiver has R242 for it. -/
  | otherOpcode (op : Byte)
  deriving DecidableEq, Repr

/-- The operand shapes of R98 to R100. `coord` is an integer without a declared width (SELECT_WINDOW),
`text` a byte string that its first 0x00 ends, `rest` all remaining bytes of the frame. -/
inductive Shape where
  | u8
  | u16
  | s16
  | coord
  | text
  | rest
  deriving DecidableEq, Repr

/-- R98: the operands of each request selector, in order. -/
def requestShapes (sel : Byte) : List Shape :=
  match sel.toNat with
  | 0x01 => [.u16]
  | 0x02 => [.s16, .s16, .u16, .u16, .u16]
  | 0x03 => [.s16, .s16, .u16]
  | 0x04 => [.s16, .s16, .u8, .u16, .u16, .u8]
  | 0x05 => [.u8, .u8, .text, .u16, .u16, .u8]
  | _ => []

/-- R99: the operands of each micro-operation, in order. -/
def microShapes (id : Byte) : List Shape :=
  match id.toNat with
  | 0x10 => [.u8]
  | 0x11 => [.rest]
  | 0x12 => [.coord, .coord, .coord, .coord]
  | _ => []

/-- The operand shapes of a frame. -/
def shapesOf (port : Port) (head : Byte) : List Shape :=
  match port with
  | .request => requestShapes head
  | .micro => microShapes head
  | .wire => [.rest]

/-- R100: does one operand fit its declared width? -/
def fits : Shape → Operand → Bool
  | .u8, .int v => decide (0 ≤ v) && decide (v ≤ 255)
  | .u16, .int v => decide (0 ≤ v) && decide (v ≤ 65535)
  | .s16, .int v => decide (-32768 ≤ v) && decide (v ≤ 32767)
  | .coord, .int _ => true
  | .text, .bytes _ => true
  | .rest, .bytes _ => true
  | .u8, .bytes _ => false
  | .u16, .bytes _ => false
  | .s16, .bytes _ => false
  | .coord, .bytes _ => false
  | .text, .int _ => false
  | .rest, .int _ => false

/-- R101: as many operands as the selector takes, each within its width. -/
def fitsAll : List Shape → List Operand → Bool
  | [], [] => true
  | s :: ss, o :: os => fits s o && fitsAll ss os
  | [], _ :: _ => false
  | _ :: _, [] => false

/-! ### The decoder -/

/-- R98: the request of a selector and operands that fit its shapes. -/
def buildRequest (sel : Byte) (ops : List Operand) : Option Instr :=
  match sel.toNat, ops with
  | 0x00, [] => some .init
  | 0x01, [.int c] => some (.fillScreen (wordOf c))
  | 0x02, [.int x, .int y, .int w, .int h, .int c] =>
    some (.fillRect (wordOf x) (wordOf y) (wordOf w) (wordOf h) (wordOf c))
  | 0x03, [.int x, .int y, .int c] => some (.drawPixel (wordOf x) (wordOf y) (wordOf c))
  | 0x04, [.int x, .int y, .int ch, .int fg, .int bg, .int size] =>
    some (.drawChar (wordOf x) (wordOf y) (byteOf ch) (wordOf fg) (wordOf bg) (byteOf size))
  | 0x05, [.int col, .int row, .bytes t, .int fg, .int bg, .int size] =>
    some (.drawString (byteOf col) (byteOf row) (cText t) (wordOf fg) (wordOf bg) (byteOf size))
  | _, _ => none

/-- R99: the micro-operation of an id and operands that fit its shapes. -/
def buildMicro (id : Byte) (ops : List Operand) : Option Instr :=
  match id.toNat, ops with
  | 0x10, [.int op] => some (.sendCommand (byteOf op))
  | 0x11, [.bytes bs] => some (.sendParameters bs)
  | 0x12, [.int x0, .int y0, .int x1, .int y1] => some (.selectWindow x0 y0 x1 y1)
  | 0x13, [] => some .runInitSequence
  | _, _ => none

/-- R98, R101: a request frame. The reserved selectors come first (R268). -/
def decodeRequest (sel : Byte) (ops : List Operand) : Except Reject Instr :=
  if 6 ≤ sel.toNat then .ok (.reserved sel)
  else if fitsAll (requestShapes sel) ops then
    match buildRequest sel ops with
    | some i => .ok i
    | none => .error (.badOperands sel)
  else .error (.badOperands sel)

/-- R99: a micro-operation frame. -/
def decodeMicro (id : Byte) (ops : List Operand) : Except Reject Instr :=
  if 0x10 ≤ id.toNat ∧ id.toNat ≤ 0x13 then
    if fitsAll (microShapes id) ops then
      match buildMicro id ops with
      | some i => .ok i
      | none => .error (.badOperands id)
    else .error (.badOperands id)
  else .error (.unknownMicroOp id)

/-- R97: a wire frame. The three opcodes are the configuration's. -/
def decodeWire (cfg : Config) (op : Byte) (ops : List Operand) : Except Reject Instr :=
  match ops with
  | [.bytes data] =>
    if op = cfg.opCaset then .ok (.caset data)
    else if op = cfg.opRaset then .ok (.raset data)
    else if op = cfg.opRamwr then .ok (.ramwr data)
    else .error (.otherOpcode op)
  | _ => .error (.badOperands op)

/-- The instruction of a frame. Total; a frame that is none is rejected by name. -/
def decode (cfg : Config) (f : Frame) : Except Reject Instr :=
  match f.port with
  | .request => decodeRequest f.head f.operands
  | .micro => decodeMicro f.head f.operands
  | .wire => decodeWire cfg f.head f.operands

/-! ### Frames as bytes

The first byte, then the operands in order, each 16-bit operand high byte first, the text ended by 0x00:
the layout in which 95_test_vectors.md part 3 writes its programs (log 5). -/

/-- Read operands of the given shapes from the front of a byte string; what follows them is returned. -/
def parseFields : List Shape → List Byte → Option (List Operand × List Byte)
  | [], bs => some ([], bs)
  | .u8 :: ss, b :: bs =>
    (parseFields ss bs).map (fun p => (.int b.toNat :: p.1, p.2))
  | .u16 :: ss, hi :: lo :: bs =>
    (parseFields ss bs).map (fun p => (.int (joinBytes hi lo).toNat :: p.1, p.2))
  | .s16 :: ss, hi :: lo :: bs =>
    (parseFields ss bs).map (fun p => (.int (joinBytes hi lo).toInt :: p.1, p.2))
  | .coord :: ss, hi :: lo :: bs =>
    (parseFields ss bs).map (fun p => (.int (joinBytes hi lo).toInt :: p.1, p.2))
  | .text :: ss, bs =>
    match bs.dropWhile (fun b => decide (b ≠ 0x00#8)) with
    | [] => none
    | _ :: after => (parseFields ss after).map (fun p => (.bytes (cText bs) :: p.1, p.2))
  | .rest :: ss, bs => (parseFields ss []).map (fun p => (.bytes bs :: p.1, p.2))
  | .u8 :: _, [] => none
  | .u16 :: _, [] => none
  | .u16 :: _, [_] => none
  | .s16 :: _, [] => none
  | .s16 :: _, [_] => none
  | .coord :: _, [] => none
  | .coord :: _, [_] => none

/-- The frame of a delimited byte string. Bytes that do not fill the operands exactly stand as one
byte-string operand, which no selector that lacks one accepts (R101). -/
def parseFrame (port : Port) (bytes : List Byte) : Option Frame :=
  match bytes with
  | [] => none
  | head :: bs =>
    match parseFields (shapesOf port head) bs with
    | some (ops, []) => some { port := port, head := head, operands := ops }
    | some (_, _ :: _) => some { port := port, head := head, operands := [.bytes bs] }
    | none => some { port := port, head := head, operands := [.bytes bs] }

/-- The decoder on bytes: total on any byte string of any port. -/
def decodeBytes (cfg : Config) (port : Port) (bytes : List Byte) : Except Reject Instr :=
  match parseFrame port bytes with
  | some f => decode cfg f
  | none => .error .emptyFrame

/-! ### The encoder -/

/-- The port an instruction's frame arrives at. -/
def portOf : Instr → Port
  | .init => .request
  | .fillScreen _ => .request
  | .fillRect _ _ _ _ _ => .request
  | .drawPixel _ _ _ => .request
  | .drawChar _ _ _ _ _ _ => .request
  | .drawString _ _ _ _ _ _ => .request
  | .reserved _ => .request
  | .sendCommand _ => .micro
  | .sendParameters _ => .micro
  | .selectWindow _ _ _ _ => .micro
  | .runInitSequence => .micro
  | .caset _ => .wire
  | .raset _ => .wire
  | .ramwr _ => .wire

/-- The first byte of an instruction's frame (R97, R98, R99). -/
def headOf (cfg : Config) : Instr → Byte
  | .init => 0x00#8
  | .fillScreen _ => 0x01#8
  | .fillRect _ _ _ _ _ => 0x02#8
  | .drawPixel _ _ _ => 0x03#8
  | .drawChar _ _ _ _ _ _ => 0x04#8
  | .drawString _ _ _ _ _ _ => 0x05#8
  | .reserved sel => sel
  | .sendCommand _ => 0x10#8
  | .sendParameters _ => 0x11#8
  | .selectWindow _ _ _ _ => 0x12#8
  | .runInitSequence => 0x13#8
  | .caset _ => cfg.opCaset
  | .raset _ => cfg.opRaset
  | .ramwr _ => cfg.opRamwr

/-- A signed 16-bit operand as an integer (R100). -/
def signedOperand (v : Word16) : Operand := .int v.toInt

/-- An unsigned 16-bit operand as an integer (R100). -/
def unsignedOperand (v : Word16) : Operand := .int v.toNat

/-- An 8-bit operand as an integer (R100). -/
def byteOperand (v : Byte) : Operand := .int v.toNat

/-- The operands of an instruction's frame, in order (R98, R99). -/
def operandsOf : Instr → List Operand
  | .init => []
  | .fillScreen color => [unsignedOperand color]
  | .fillRect x y w h color =>
    [signedOperand x, signedOperand y, unsignedOperand w, unsignedOperand h, unsignedOperand color]
  | .drawPixel x y color => [signedOperand x, signedOperand y, unsignedOperand color]
  | .drawChar x y ch fg bg size =>
    [signedOperand x, signedOperand y, byteOperand ch, unsignedOperand fg, unsignedOperand bg,
      byteOperand size]
  | .drawString col row text fg bg size =>
    [byteOperand col, byteOperand row, .bytes text, unsignedOperand fg, unsignedOperand bg,
      byteOperand size]
  | .reserved _ => []
  | .sendCommand op => [byteOperand op]
  | .sendParameters bs => [.bytes bs]
  | .selectWindow x0 y0 x1 y1 => [.int x0, .int y0, .int x1, .int y1]
  | .runInitSequence => []
  | .caset data => [.bytes data]
  | .raset data => [.bytes data]
  | .ramwr data => [.bytes data]

/-- The frame of an instruction: for a request the pair `(sel, operands)` of R98. -/
def frameOf (cfg : Config) (i : Instr) : Frame :=
  { port := portOf i, head := headOf cfg i, operands := operandsOf i }

/-- The two bytes of a 16-bit operand, high byte first. -/
def wordBytes (v : Word16) : List Byte := [hiByte v, loByte v]

/-- The bytes of one operand. -/
def encodeField : Shape → Operand → List Byte
  | .u8, .int v => [byteOf v]
  | .u16, .int v => wordBytes (wordOf v)
  | .s16, .int v => wordBytes (wordOf v)
  | .coord, .int v => wordBytes (wordOf v)
  | .text, .bytes bs => bs ++ [0x00#8]
  | .rest, .bytes bs => bs
  | .u8, .bytes _ => []
  | .u16, .bytes _ => []
  | .s16, .bytes _ => []
  | .coord, .bytes _ => []
  | .text, .int _ => []
  | .rest, .int _ => []

/-- The bytes of a list of operands. -/
def encodeFields : List Shape → List Operand → List Byte
  | s :: ss, o :: os => encodeField s o ++ encodeFields ss os
  | [], _ => []
  | _ :: _, [] => []

/-- The bytes of an instruction's frame: its first byte and its operands. -/
def encode (cfg : Config) (i : Instr) : List Byte :=
  headOf cfg i :: encodeFields (shapesOf (portOf i) (headOf cfg i)) (operandsOf i)

/-! ### Words of the opcode table -/

/-- The port whose number space the opcode table gives this first byte to: 0x10 to 0x13 are the
micro-operations, 0x2A to 0x2C the wire commands, the rest request selectors. (A request with one of
those selectors is reserved like any other, R101: `decodeRequest`.) -/
def tablePort (head : Byte) : Port :=
  if 0x10 ≤ head.toNat ∧ head.toNat ≤ 0x13 then .micro
  else if 0x2A ≤ head.toNat ∧ head.toNat ≤ 0x2C then .wire
  else .request

/-- The zero bytes that stand above a table word: enough for every operand of a fixed length, the four
parameter bytes of CASET and RASET, and none for a byte string that runs to the frame's end. -/
def tablePadding (head : Byte) (given : Nat) : Nat :=
  match head.toNat with
  | 0x11 => 0
  | 0x2A => 5 - given
  | 0x2B => 5 - given
  | 0x2C => 0
  | _ => 16

/-- The bytes of a table word: byte `i` is bits `8i+7..8i`, the bits above `nbits` zero. -/
def tableBytes (nbits w : Nat) : List Byte :=
  (List.range ((nbits + 7) / 8)).map (fun i => BitVec.ofNat 8 ((w % 2 ^ nbits) >>> (8 * i)))

/-- The frame that holds a table word and the zero bits above it. -/
def tableFrame (nbits w : Nat) : Frame :=
  match tableBytes nbits w with
  | [] => { port := .request, head := 0xFF#8, operands := [] }
  | head :: bs =>
    let all := bs ++ List.replicate (tablePadding head (bs.length + 1)) 0x00#8
    match parseFields (shapesOf (tablePort head) head) all with
    | some (ops, _) => { port := tablePort head, head := head, operands := ops }
    | none => { port := tablePort head, head := head, operands := [.bytes all] }

/-- The instruction the decoder reads from a word of the opcode table, under the reference configuration. -/
def decodeTableWord (nbits w : Nat) : Option Instr :=
  match decode Config.reference (tableFrame nbits w) with
  | .ok i => some i
  | .error _ => none

end Sys2Proof
end

