-- ==== Sys2Proof/Machine/State.lean ====
section
/-! DEFINITION. The state of the block (10_state.md R20 to R31), of the panel receiver (43_panel_receiver.md
R230 to R233) and of the host interface (60_exceptions.md R274), as plain data, and the state after reset. -/

namespace Sys2Proof.Machine

/-- R21: the block's mode flag. -/
inductive Phase where
  | uninit
  | ready
  | failed
  deriving DecidableEq, Repr

/-- R263: the two faults of the block. (`State.fault` is `none` where R22 says `none`.) -/
inductive BlockFault where
  | transportError
  | notReady
  deriving DecidableEq, Repr

/-- R263: what a fault records: the opcode or the data length of the failed transaction, or the
selector of the request that came too early. -/
inductive FaultInfo where
  | opcode (op : Byte)
  | length (n : Nat)
  | selector (sel : Byte)
  deriving DecidableEq, Repr

/-- The logical pins (R26). -/
inductive Pin where
  | reset
  | backlight
  deriving DecidableEq, Repr

/-- R26: the last level driven on each pin; `none` is `undriven`. -/
structure Pins where
  reset     : Option Level
  backlight : Option Level
  deriving DecidableEq, Repr

/-- The mode of a transaction (R90): D/C is 0 for `command`, 1 for `data`. -/
inductive Mode where
  | command
  | data
  deriving DecidableEq, Repr

/-- The result of a transaction as the trace records it (R28). -/
inductive TxResult where
  | ok
  | err
  deriving DecidableEq, Repr

/-- R28: the events of the output trace. -/
inductive Event where
  | tx (mode : Mode) (bytes : List Byte) (result : TxResult)
  | pin (p : Pin) (level : Level)
  | delay (ms : Nat)
  deriving DecidableEq, Repr

/-- The two window registers of the controller: CASET sets the columns, RASET the rows. -/
inductive WinReg where
  | column
  | row
  deriving DecidableEq, Repr

/-- R230: the receiver's command phase. -/
inductive Rx where
  | idle
  | param (reg : WinReg) (buf : List Byte)
  | other (op : Byte)
  | memWrite
  deriving DecidableEq, Repr

/-- R230: the receiver's state; `none` is `⊥` (or, for `half`, `none`). `gram` lists the known cells of
the controller RAM (R231): rows by row address, each the list of its known cells by column address,
addresses strictly rising and no row empty; an unlisted cell is `⊥`. -/
structure Panel where
  rx   : Rx
  xs   : Option Word16
  xe   : Option Word16
  ys   : Option Word16
  ye   : Option Word16
  ptr  : Option (Word16 × Word16)
  half : Option Byte
  left : Option Nat
  gram : List (Nat × List (Nat × Word16))
  deriving DecidableEq, Repr

/-- R274: what the client may do: offer a frame, or apply block reset with the configuration that the
block then samples (R290, R292). -/
inductive Input where
  | frame (f : Frame)
  | blockReset (cfg : Config)
  deriving DecidableEq, Repr

/-- The state of the machine. `cfg` to `ret` are the block's (R20; `faultInfo` is R263's recorded info),
`panel` the receiver's (R230). `inbox`, `answers`, `txCount` and `epoch` are the model's own: the pending
inputs, the transport's answers, and the counters of the free values (log 1, log 3, log 4). -/
structure State where
  cfg       : Config
  phase     : Phase
  fault     : Option BlockFault
  faultInfo : Option FaultInfo
  scratch   : List Host.Cell
  pins      : Pins
  trace     : List Event
  ret       : Option Nat
  panel     : Panel
  inbox     : List Input
  answers   : List TxAnswer
  txCount   : Nat
  epoch     : Nat
  deriving DecidableEq, Repr

/-- Why the machine stops without a next state and without a refusal. -/
inductive Fault where
  /-- Raised by a request or a micro-operation in phase FAILED: "In `FAILED`, no request has a step" (R264).
  Safe: the block is stuck until block reset. -/
  | stuckFailed
  /-- Raised by SELECT_WINDOW with corners outside R135: "If the assertion ever fails, that is a fault of
  the model, not a behaviour of the block". Safe (log 11). -/
  | windowAssertion
  deriving DecidableEq, Repr

/-- Why a frame has no meaning. A refused frame is the end of the run: R267's refused mark (log 10). -/
inductive Refusal where
  /-- Raised by exec's arm of an instruction that has no meaning yet (none is left). Safe. -/
  | notModelled (mnemonic : String)
  /-- Raised by RESERVED: a request with a selector in 0x06..0xFF is refused (R101). Safe. -/
  | reservedSelector (sel : Byte)
  /-- Raised by the step on a frame whose operands do not fit R100's widths (R101). Safe. -/
  | operandWidth (sel : Byte)
  /-- Raised by the step on a micro-operation id outside R99; no client can issue one. Safe. -/
  | unknownMicroOp (id : Byte)
  /-- Raised by the step, by every request and by block reset on an ill-formed configuration (R7, R267). Safe. -/
  | illFormedConfig
  deriving DecidableEq, Repr

/-- R233: the receiver after panel power-on or a reset pulse. -/
def Panel.powerOn : Panel where
  rx := .idle
  xs := none
  xe := none
  ys := none
  ye := none
  ptr := none
  half := none
  left := none
  gram := []

/-- R31: the state after block reset at power-on. The configuration is the reference one with the spec's
test choices for the OPEN parameters (DESIGN CHOICE, log 7); no input is pending and no answer is given
(DESIGN CHOICE, log 22). -/
def State.reset : State where
  cfg := Config.reference
  phase := .uninit
  fault := none
  faultInfo := none
  scratch := []
  pins := { reset := none, backlight := none }
  trace := []
  ret := none
  panel := Panel.powerOn
  inbox := []
  answers := []
  txCount := 0
  epoch := 0

end Sys2Proof.Machine
end

