-- ==== Sys2Proof/Machine/Store.lean ====
section
/-! DEFINITION. Sparse storage in one canonical form (20_memory.md R60, 43_panel_receiver.md R231): a list of
key and value pairs, keys strictly rising. An unlisted key has no known value. The scratch buffer and the
controller RAM are both held so. -/

namespace Sys2Proof.Machine

/-- The canonical form: keys strictly rising. -/
abbrev Store.wf {α : Type} (m : List (Nat × α)) : Prop := m.Pairwise (fun a b => a.1 < b.1)

/-- The canonical form of the scratch memory. (An unlisted byte reads as no value, so no listed one
equals it.) -/
abbrev Memory.wf (m : List Host.Cell) : Prop := Store.wf m

/-- The value at a key, if one is listed. -/
def Store.read {α : Type} (m : List (Nat × α)) (k : Nat) : Option α :=
  match m with
  | [] => none
  | (k', v) :: rest => if k = k' then some v else Store.read rest k

/-- Set the value at a key. -/
def Store.write {α : Type} (m : List (Nat × α)) (k : Nat) (v : α) : List (Nat × α) :=
  match m with
  | [] => [(k, v)]
  | (k', v') :: rest =>
    if k < k' then (k, v) :: (k', v') :: rest
    else if k = k' then (k, v) :: rest
    else (k', v') :: Store.write rest k v

/-- The entries of consecutive keys from `start` on. -/
def Store.run {α : Type} (start : Nat) (vs : List α) : List (Nat × α) :=
  match vs with
  | [] => []
  | v :: rest => (start, v) :: Store.run (start + 1) rest

/-- Set the values at consecutive keys from `start` on; every other key keeps its value. -/
def Store.writeRun {α : Type} (m : List (Nat × α)) (start : Nat) (vs : List α) : List (Nat × α) :=
  m.filter (fun e => decide (e.1 < start)) ++ Store.run start vs
    ++ m.filter (fun e => decide (start + vs.length ≤ e.1))

/-- The values at `n` consecutive keys from `start` on; where a key is not listed, `absent` of it. -/
def Store.readRun {α : Type} (absent : Nat → α) (m : List (Nat × α)) (start n : Nat) : List α :=
  match n with
  | 0 => []
  | k + 1 =>
    match m with
    | [] => absent start :: Store.readRun absent [] (start + 1) k
    | (key, v) :: rest =>
      if key = start then v :: Store.readRun absent rest (start + 1) k
      else
        (match Store.read rest start with
          | some w => w
          | none => absent start) :: Store.readRun absent ((key, v) :: rest) (start + 1) k

/-! ### Controller RAM: rows of columns (R231) -/

/-- The canonical form of the controller RAM: rows and columns strictly rising, no row empty. -/
abbrev Gram.wf (g : List (Nat × List (Nat × Word16))) : Prop :=
  Store.wf g ∧ ∀ row ∈ g, row.2 ≠ [] ∧ Store.wf row.2

/-- The content of RAM address `(c, r)`; `none` is `⊥`. -/
def Gram.read (g : List (Nat × List (Nat × Word16))) (c r : Nat) : Option Word16 :=
  match Store.read g r with
  | some row => Store.read row c
  | none => none

/-- Write RAM address `(c, r)`. -/
def Gram.write (g : List (Nat × List (Nat × Word16))) (c r : Nat) (v : Word16) :
    List (Nat × List (Nat × Word16)) :=
  match Store.read g r with
  | some row => Store.write g r (Store.write row c v)
  | none => Store.write g r [(c, v)]

/-- Every cell whose address satisfies `p` becomes `⊥`. -/
def Gram.forget (g : List (Nat × List (Nat × Word16))) (p : Nat → Nat → Bool) :
    List (Nat × List (Nat × Word16)) :=
  (g.map fun row => (row.1, row.2.filter fun cell => !p cell.1 row.1)).filter
    fun row => !row.2.isEmpty

end Sys2Proof.Machine
end

