-- ==== Sys2Proof/Machine/Operands.lean ====
section
/-! DEFINITION. What the operands become before anything is sent: packing (41_staging.md R170), the on-panel
test and clipping (R172 to R174), the window parameter block (30_encoding.md R93), glyph lookup, rejection
and the cells of a glyph (42_glyph.md R200, R201, R203), the text grid (R206). -/

namespace Sys2Proof.Machine

/-- R170: the two bytes that stage one pixel, low byte first. -/
def pack565 (color : Word16) : List Byte := [loByte color, hiByte color]

/-- R172. -/
def onPanel (cfg : Config) (x y : Int) : Bool :=
  decide (0 ≤ x) && decide (x < cfg.width) && decide (0 ≤ y) && decide (y < cfg.height)

/-- A rectangle on the glass: its start corner and its size. -/
structure Rect where
  x : Int
  y : Int
  w : Nat
  h : Nat
  deriving DecidableEq, Repr

/-- R174, one dimension: shrink a length that starts on-panel at `a`, in exact arithmetic (R9). -/
def shrink (a : Int) (len limit : Nat) : Nat :=
  if a + len - 1 ≥ limit then (limit - a).toNat else len

/-- R174: a rectangle that starts off-panel is dropped whole (R173), one that starts on-panel is shrunk to
fit, and one of zero area is dropped. -/
def clip (cfg : Config) (x y : Int) (w h : Nat) : Option Rect :=
  if onPanel cfg x y then
    let w' := shrink x w cfg.width
    let h' := shrink y h cfg.height
    if w' = 0 ∨ h' = 0 then none else some { x := x, y := y, w := w', h := h' }
  else none

/-- R93, format W-WIN: `[0x00, byte(a0 + off), 0x00, byte(a1 + off)]`. -/
def windowBytes (a0 a1 : Int) (off : Nat) : List Byte :=
  [0x00#8, byteOf (a0 + off), 0x00#8, byteOf (a1 + off)]

/-- R135: what every caller of SELECT_WINDOW guarantees of its corners. -/
def windowInPanel (cfg : Config) (x0 y0 x1 y1 : Int) : Bool :=
  decide (0 ≤ x0) && decide (x0 ≤ x1) && decide (x1 < cfg.width)
    && decide (0 ≤ y0) && decide (y0 ≤ y1) && decide (y1 < cfg.height)

/-- R200: the blank glyph. -/
def blankGlyph : Glyph := List.replicate 5 0x00#8

/-- R200: the glyph of a code; codes from N_GLYPHS on get the blank one. -/
def glyphOf (cfg : Config) (ch : Byte) : Glyph :=
  if ch.toNat < cfg.nGlyphs then cfg.font.getD ch.toNat blankGlyph else blankGlyph

/-- R200: bit `j` of column byte `i`: the pixel at glyph column `i`, row `j`. -/
def glyphBit (g : Glyph) (i j : Nat) : Bool := (g.getD i 0x00#8).getLsbD j

/-- R201: the glyph's bounding box lies entirely off the panel. -/
def rejectGlyph (cfg : Config) (x y : Int) (size : Nat) : Bool :=
  decide (x ≥ cfg.width) || decide (y ≥ cfg.height)
    || decide (x + cfg.glyphW * size - 1 < 0) || decide (y + cfg.glyphH * size - 1 < 0)

/-- R203: the glyph's cells in paint order, columns ascending and rows ascending within a column. -/
def glyphCells (cfg : Config) : List (Nat × Nat) :=
  (List.range cfg.glyphW).flatMap (fun gi => (List.range cfg.glyphH).map (fun gj => (gi, gj)))

/-- R203: the colour one cell is painted in; `none` is the skipped background of a transparent glyph. -/
def cellColor (g : Glyph) (fg bg : Word16) (cell : Nat × Nat) : Option Word16 :=
  if glyphBit g cell.1 cell.2 then some fg
  else if bg ≠ fg then some bg
  else none

end Sys2Proof.Machine
end

