-- ==== Sys2Proof/Machine/Receiver.lean ====
section
/-! DEFINITION. The panel receiver's side of the wire (43_panel_receiver.md R230 to R245): byte classification,
the window registers, the pixel stream, failed transactions, the glass. -/

namespace Sys2Proof.Machine

namespace Panel

/-- The content of RAM address `(c, r)`; `none` is `⊥` (R231). -/
def cell (p : Panel) (c r : Word16) : Option Word16 := Gram.read p.gram c.toNat r.toNat

/-- Is the cell `(c, r)` inside the current window? Where the window is unknown, or inverted (log 13),
every cell counts as inside (R240). -/
def inWindow (p : Panel) (c r : Nat) : Bool :=
  match p.xs, p.xe, p.ys, p.ye with
  | some xs, some xe, some ys, some ye =>
    if xs ≤ xe ∧ ys ≤ ye then
      decide (xs.toNat ≤ c) && decide (c ≤ xe.toNat) && decide (ys.toNat ≤ r) && decide (r ≤ ye.toNat)
    else true
  | _, _, _, _ => true

/-- R240: every cell of the current window becomes `⊥`. -/
def overrun (p : Panel) : Panel := { p with gram := Gram.forget p.gram p.inWindow }

/-- R239: the write pointer after one pixel, row-major inside `XS..XE`. The comparison is exact (R9). -/
def advance (cx cy xs xe : Word16) : Word16 × Word16 :=
  if xe.toNat < cx.toNat + 1 then (xs, cy + 1) else (cx + 1, cy)

/-- R239: write a pixel at the pointer and advance; outside the window protocol R240 applies. -/
def writePixel (p : Panel) (v : Word16) : Panel :=
  match p.ptr, p.left, p.xs, p.xe with
  | some (cx, cy), some (n + 1), some xs, some xe =>
    { p with
      gram := Gram.write p.gram cx.toNat cy.toNat v
      left := some n
      ptr := some (advance cx cy xs xe) }
  | _, _, _, _ => p.overrun

/-- R238: the first byte of a pair is kept, the second completes a pixel with the first as high byte. -/
def pixelByte (p : Panel) (b : Byte) : Panel :=
  match p.half with
  | none => { p with half := some b }
  | some hi => writePixel { p with half := none } (joinBytes hi b)

/-- R235, R236: the fourth parameter byte sets a window register pair. -/
def setWindow (p : Panel) (reg : WinReg) (start stop : Option Word16) : Panel :=
  match reg with
  | .column => { p with xs := start, xe := stop }
  | .row => { p with ys := start, ye := stop }

/-- R235, R236: one parameter byte after CASET or RASET. -/
def paramByte (p : Panel) (reg : WinReg) (buf : List Byte) (b : Byte) : Panel :=
  match buf ++ [b] with
  | [b0, b1, b2, b3] =>
    { p.setWindow reg (some (joinBytes b0 b1)) (some (joinBytes b2 b3)) with rx := .idle }
  | buf' => { p with rx := .param reg buf' }

/-- R234, R242: one data byte, delivered to the current phase. -/
def dataByte (p : Panel) (b : Byte) : Panel :=
  match p.rx with
  | .idle => p
  | .param reg buf => p.paramByte reg buf b
  | .other _ => p
  | .memWrite => p.pixelByte b

/-- R234, R235: an opcode first ends the current phase: a pending half pixel is dropped, and a window
register whose parameters are incomplete becomes `⊥`. -/
def endPhase (p : Panel) : Panel :=
  match p.rx with
  | .param reg buf =>
    if buf.length < 4 then { p.setWindow reg none none with half := none } else { p with half := none }
  | .idle => { p with half := none }
  | .other _ => { p with half := none }
  | .memWrite => { p with half := none }

/-- R237: RAMWR puts the pointer at the window's origin, if the window is known and not inverted. -/
def startWrite (p : Panel) : Panel :=
  match p.xs, p.xe, p.ys, p.ye with
  | some xs, some xe, some ys, some ye =>
    if xs ≤ xe ∧ ys ≤ ye then
      { p with
        rx := .memWrite
        half := none
        ptr := some (xs, ys)
        left := some ((xe.toNat - xs.toNat + 1) * (ye.toNat - ys.toNat + 1)) }
    else { p with rx := .memWrite, half := none, ptr := none, left := none }
  | _, _, _, _ => { p with rx := .memWrite, half := none, ptr := none, left := none }

/-- The window registers and the pointer become `⊥` (R245). -/
def forgetWindow (p : Panel) : Panel :=
  { p with xs := none, xe := none, ys := none, ye := none, ptr := none, left := none }

/-- R242: any other opcode. Under PANEL_MODE_OK it has no effect but the phase; without that premise
nothing may be assumed to stay (R242, R243), so all of it becomes `⊥` (log 14). R243's premise speaks of the
opcodes of INIT_TABLE only. That the phase is all that changes for every other opcode too, one outside the table
(from SEND_COMMAND by itself or from a wire frame), is the model's choice (DESIGN CHOICE, unsafe, log 14). -/
def otherCommand (p : Panel) (modeOk : Bool) (op : Byte) : Panel :=
  if modeOk then { p with rx := .other op }
  else { p.forgetWindow with rx := .other op, gram := [] }

/-- R234 to R237, R242: one command byte. -/
def commandByte (cfg : Config) (p : Panel) (op : Byte) : Panel :=
  if op = cfg.opCaset then { p.endPhase with rx := .param .column [] }
  else if op = cfg.opRaset then { p.endPhase with rx := .param .row [] }
  else if op = cfg.opRamwr then p.endPhase.startWrite
  else p.endPhase.otherCommand cfg.panelModeOk op

/-- R234: the bytes of one transaction, in order. -/
def receive (cfg : Config) (mode : Mode) (bs : List Byte) (p : Panel) : Panel :=
  match mode with
  | .command => bs.foldl (commandByte cfg) p
  | .data => bs.foldl dataByte p

/-- R245: a failed transaction, of which the first `delivered` bytes arrived. Then the window registers,
the pointer and every cell of the window that was current become `⊥` (log 2). -/
def receiveFailed (cfg : Config) (mode : Mode) (bs : List Byte) (delivered : Nat) (p : Panel) : Panel :=
  let q := p.receive cfg mode (bs.take delivered)
  { q.forgetWindow with gram := Gram.forget q.gram p.inWindow }

/-- R244: the colour fields of a glass value. -/
def red (v : Word16) : BitVec 5 := v.extractLsb' 11 5
def green (v : Word16) : BitVec 6 := v.extractLsb' 5 6
def blue (v : Word16) : BitVec 5 := v.extractLsb' 0 5

end Panel

/-- R241, R243: what the panel shows at glass coordinate `(x, y)`; `none` is an unknown value. Without the
premise PANEL_MODE_OK, and off the panel, nothing is known. -/
def glass (s : State) (x y : Nat) : Option Word16 :=
  if s.cfg.panelModeOk && onPanel s.cfg x y then
    s.panel.cell (BitVec.ofNat 16 (x + s.cfg.offsetX)) (BitVec.ofNat 16 (y + s.cfg.offsetY))
  else none

end Sys2Proof.Machine
end

