-- ==== Sys2Proof/Machine/Flags.lean ====
section
/-! DEFINITION. The flags of the block: the fault codes (60_exceptions.md R263), the phase and result register
updates (10_state.md R21, R22, R27), and the appending of events (R28). -/

namespace Sys2Proof.Machine

/-- R263: the code of a fault. -/
def BlockFault.code : BlockFault → Nat
  | .transportError => 1
  | .notReady => 2

namespace State

/-- R27: set the result register. -/
def setRet (s : State) (v : Option Nat) : State := { s with ret := v }

/-- R21: INIT completed. -/
def setReady (s : State) : State := { s with phase := .ready }

/-- R28: append an event; the only operation that writes `trace`. -/
def emit (s : State) (ev : Event) : State := { s with trace := s.trace ++ [ev] }

/-- The receiver's new state. -/
def setPanel (s : State) (p : Panel) : State := { s with panel := p }

/-- The new content of scratch. -/
def setScratch (s : State) (m : List Host.Cell) : State := { s with scratch := m }

/-- The new pin levels (R26). -/
def setPins (s : State) (p : Pins) : State := { s with pins := p }

/-- The pending inputs. -/
def setInbox (s : State) (q : List Input) : State := { s with inbox := q }

/-- R260: the transport's answer to the `k`-th transaction from now: the environment's, or else the free
value (log 1). -/
def answer (s : State) (k : Nat) : TxAnswer :=
  match s.answers[k]? with
  | some a => a
  | none => Config.transportAnswer (s.txCount + k)

/-- One transaction was performed. -/
def useAnswer (s : State) : State := { s with answers := s.answers.tail, txCount := s.txCount + 1 }

end State

end Sys2Proof.Machine
end

