-- ==== Sys2Proof/Machine/Ops.lean ====
section
/-! DEFINITION. The named operations the meanings share (00_scope.md R10): raising a fault and block reset,
scratch access, `Transmit`, `SetPin`, `DelayMs`, and the checks in front of a request
(60_exceptions.md R264, R265, R268). -/

namespace Sys2Proof.Machine

/-! ### Raising a fault, and the one way out of it -/

/-- R264, trap entry: record the fault and its info if none is recorded, phase FAILED, `ret` none. Nothing
else changes: scratch, pins and trace stay as they are, and no state is saved elsewhere. -/
def State.raise (s : State) (f : BlockFault) (info : FaultInfo) : State :=
  { s with
    fault := match s.fault with
      | none => some f
      | some g => some g
    faultInfo := match s.fault with
      | none => some info
      | some _ => s.faultInfo
    phase := .failed
    ret := none }

/-- R290, block reset, the only way out of FAILED (R270): every piece of block state to its reset value
(R31), and the configuration sampled. It drives no pin and transmits nothing, so the receiver keeps its
state; scratch becomes unspecified anew (log 3, log 8). -/
def State.blockReset (s : State) (cfg : Config) : State :=
  { s with
    cfg := cfg
    phase := .uninit
    fault := none
    faultInfo := none
    scratch := []
    pins := { reset := none, backlight := none }
    trace := []
    ret := none
    epoch := s.epoch + 1 }

/-! ### Running rules -/

/-- A rule in progress: it runs on, or a fault stopped the request (R264). -/
inductive Run where
  | running (s : State)
  | stopped (s : State)
  deriving DecidableEq, Repr

/-- Go on with the next part of a rule, unless a fault stopped the request (R10, R264). -/
def Run.andThen (r : Run) (f : State → Run) : Run :=
  match r with
  | .running s => f s
  | .stopped s => .stopped s

/-- The state a rule ends in, whether it completed or a fault stopped it. -/
def Run.state (r : Run) : State :=
  match r with
  | .running s => s
  | .stopped s => s

/-! ### Scratch (20_memory.md R60, R61) -/

/-- `ScratchWrite` (R10) of consecutive bytes from offset `off`; no other byte changes (R67). -/
def State.scratchWrite (s : State) (off : Nat) (bs : List Byte) : State :=
  s.setScratch (Store.writeRun s.scratch off bs)

/-- `ScratchRead(off, n)` (R10): `n` bytes in offset order. A byte that no rule has written since reset is
a free value (R23, log 3). -/
def State.scratchRead (s : State) (off n : Nat) : List Byte :=
  Store.readRun (Config.unspecifiedByte s.epoch) s.scratch off n

/-- R170: `stage(n, color)`, `n` copies of the pixel's two bytes from offset 0, low byte first. -/
def State.stage (s : State) (n : Nat) (color : Word16) : State :=
  s.scratchWrite 0 (List.replicate n (pack565 color)).flatten

/-! ### The collaborators (60_exceptions.md R260 to R262) -/

/-- `Transmit(mode, bs)` with its event and, on `err`, the TransportError of the caller (R130, R131, R260).
The receiver takes the bytes as the transaction completes (R71, R234), or a prefix of them (R245). -/
def transmit (mode : Mode) (bs : List Byte) (info : FaultInfo) (s : State) : Run :=
  match s.answer 0 with
  | .ok =>
    .running ((s.useAnswer.emit (.tx mode bs .ok)).setPanel (s.panel.receive s.cfg mode bs))
  | .err delivered =>
    .stopped (((s.useAnswer.emit (.tx mode bs .err)).setPanel
      (s.panel.receiveFailed s.cfg mode bs delivered)).raise .transportError info)

/-- The receiver's view of a pin change: the rising edge of the reset line ends a reset pulse (R233, log 12). -/
def Panel.seePin (p : Panel) (before : Option Level) (pin : Pin) (level : Level) : Panel :=
  match pin, level, before with
  | .reset, .high, some .low => Panel.powerOn
  | _, _, _ => p

/-- The pins after one is driven (R26). -/
def Pins.drive (pins : Pins) (pin : Pin) (level : Level) : Pins :=
  match pin with
  | .reset => { pins with reset := some level }
  | .backlight => { pins with backlight := some level }

/-- `SetPin(p, lvl)` with its event (R140, R261): it cannot fail. -/
def State.setPin (s : State) (pin : Pin) (level : Level) : State :=
  ((s.emit (.pin pin level)).setPins (s.pins.drive pin level)).setPanel
    (s.panel.seePin s.pins.reset pin level)

/-- `DelayMs(n)` with its event (R262): it cannot fail, and the model keeps no clock. -/
def State.delayMs (s : State) (n : Nat) : State := s.emit (.delay n)

/-! ### The checks in front of a rule, in the order of R268 -/

/-- A rule completed or was stopped by a fault: either way the block is in a next state. -/
def finish (r : Run) : Host.Outcome State Fault Refusal := .next r.state

/-- INIT and the micro-operations: an ill-formed configuration is refused (R7), and in FAILED nothing runs
(R141, R264, R270). -/
def gate (s : State) (body : State → Run) : Host.Outcome State Fault Refusal :=
  if s.cfg.wf then
    match s.phase with
    | .failed => .fault .stuckFailed
    | .uninit => finish (body s)
    | .ready => finish (body s)
  else .refused .illFormedConfig

/-- R265, the drawing gate, before anything of the request itself: FAILED has no step, UNINIT raises
NotReady with the request's selector. -/
def admitDrawing (sel : Byte) (s : State) (body : State → Run) : Host.Outcome State Fault Refusal :=
  if s.cfg.wf then
    match s.phase with
    | .failed => .fault .stuckFailed
    | .uninit => .next (s.raise .notReady (.selector sel))
    | .ready => finish (body s)
  else .refused .illFormedConfig

/-- The end of a request that returns no count: `ret <- none` (R27). -/
def returnNone (s : State) : Run := .running (s.setRet none)

end Sys2Proof.Machine
end

