-- ==== Sys2Proof/Machine/CommandProtocol.lean ====
section
/-! DEFINITION. The Command Protocol Layer (40_command_protocol.md): the micro-operations and INIT. -/

namespace Sys2Proof.Machine

/-- R130. -/
def sendCommand (op : Byte) (s : State) : Run := transmit .command [op] (.opcode op) s

/-- R131: a zero-length call is a no-op. -/
def sendParameters (bs : List Byte) (s : State) : Run :=
  match bs with
  | [] => .running s
  | b :: rest => transmit .data (b :: rest) (.length (rest.length + 1)) s

/-- R134: CASET, its parameters, RASET, its parameters, RAMWR. -/
def selectWindow (x0 y0 x1 y1 : Int) (s : State) : Run :=
  (sendCommand s.cfg.opCaset s).andThen fun s =>
  (sendParameters (windowBytes x0 x1 s.cfg.offsetX) s).andThen fun s =>
  (sendCommand s.cfg.opRaset s).andThen fun s =>
  (sendParameters (windowBytes y0 y1 s.cfg.offsetY) s).andThen fun s =>
  sendCommand s.cfg.opRamwr s

/-- R138, one record: the opcode, its parameters, and the delay if the record's flag is set (R139). -/
def sendRecord (r : CommandRecord) (s : State) : Run :=
  (sendCommand r.op s).andThen fun s =>
  (sendParameters (r.params.take (r.count &&& s.cfg.countMask).toNat) s).andThen fun s =>
  if r.count &&& s.cfg.delayFlag ≠ 0x00#8 then .running (s.delayMs s.cfg.initDelayMs) else .running s

/-- R138: the records in order up to the sentinel, which is not sent. (A well-formed table has one, R96; the
end of the list is never reached without it.) -/
def sendRecords (records : List CommandRecord) (s : State) : Run :=
  match records with
  | [] => .running s
  | r :: rest =>
    if r.count = s.cfg.sentinel then .running s
    else (sendRecord r s).andThen (sendRecords rest)

/-- R138. -/
def runInit (s : State) : Run := sendRecords s.cfg.initTable s

/-- R140: the reset pulse with a delay after each edge, the replay, the backlight. -/
def initBody (s : State) : Run :=
  let s := s.setPin .reset .low
  let s := s.delayMs s.cfg.resetDelayMs
  let s := s.setPin .reset .high
  let s := s.delayMs s.cfg.resetDelayMs
  (runInit s).andThen fun s =>
  returnNone (s.setPin .backlight s.cfg.blOnLevel).setReady

/-- INIT (R140, R141). -/
def execInit (s : State) : Host.Outcome State Fault Refusal := gate s initBody

/-- SEND_COMMAND (R130). -/
def execSendCommand (op : Byte) (s : State) : Host.Outcome State Fault Refusal :=
  gate s (sendCommand op)

/-- SEND_PARAMETERS (R131). -/
def execSendParameters (bs : List Byte) (s : State) : Host.Outcome State Fault Refusal :=
  gate s (sendParameters bs)

/-- SELECT_WINDOW (R134). Corners outside R135 break its assertion (log 11). -/
def execSelectWindow (x0 y0 x1 y1 : Int) (s : State) : Host.Outcome State Fault Refusal :=
  if s.cfg.wf ∧ s.phase ≠ .failed ∧ ¬ windowInPanel s.cfg x0 y0 x1 y1 then .fault .windowAssertion
  else gate s (selectWindow x0 y0 x1 y1)

/-- RUN_INIT_SEQUENCE (R138). -/
def execRunInitSequence (s : State) : Host.Outcome State Fault Refusal := gate s runInit

end Sys2Proof.Machine
end

