-- ==== Sys2Proof/Machine/Staging.lean ====
section
/-! DEFINITION. The Framebuffer Staging Layer (41_staging.md): FILL_SCREEN, FILL_RECT, DRAW_PIXEL. -/

namespace Sys2Proof.Machine

/-- The common tail of R171, R175 and R177: stage `w * h` pixels, select the window, stream exactly the
staged bytes as one transaction. -/
def streamRect (r : Rect) (color : Word16) (s : State) : Run :=
  let s := s.stage (r.w * r.h) color
  (selectWindow r.x r.y (r.x + r.w - 1) (r.y + r.h - 1) s).andThen fun s =>
  sendParameters (s.scratchRead 0 (2 * (r.w * r.h))) s

/-- R171, after the gate. -/
def fillScreenBody (color : Word16) (s : State) : Run :=
  streamRect { x := 0, y := 0, w := s.cfg.width, h := s.cfg.height } color s

/-- R175, after the gate: a clipped-away rectangle has no event and no scratch write. -/
def fillRectBody (x y : Int) (w h : Nat) (color : Word16) (s : State) : Run :=
  match clip s.cfg x y w h with
  | none => .running s
  | some r => streamRect r color s

/-- R177, after the gate: one pixel, if it is on-panel. -/
def drawPixelBody (x y : Int) (color : Word16) (s : State) : Run :=
  if onPanel s.cfg x y then
    let s := s.stage 1 color
    (selectWindow x y x y s).andThen fun s =>
    sendParameters (s.scratchRead 0 2) s
  else .running s

/-- FILL_SCREEN (R171). -/
def execFillScreen (color : Word16) (s : State) : Host.Outcome State Fault Refusal :=
  admitDrawing 0x01#8 s fun s => (fillScreenBody color s).andThen returnNone

/-- FILL_RECT (R175). -/
def execFillRect (x y w h color : Word16) (s : State) : Host.Outcome State Fault Refusal :=
  admitDrawing 0x02#8 s fun s =>
    (fillRectBody x.toInt y.toInt w.toNat h.toNat color s).andThen returnNone

/-- DRAW_PIXEL (R177). -/
def execDrawPixel (x y color : Word16) (s : State) : Host.Outcome State Fault Refusal :=
  admitDrawing 0x03#8 s fun s => (drawPixelBody x.toInt y.toInt color s).andThen returnNone

end Sys2Proof.Machine
end

