-- ==== Sys2Proof/Machine/Glyph.lean ====
section
/-! DEFINITION. The glyph front end (42_glyph.md): DRAW_CHAR, DRAW_STRING. -/

namespace Sys2Proof.Machine

/-- R202: a block of size 1 is a pixel, any other a square rectangle. -/
def paint (px py : Int) (size : Nat) (color : Word16) (s : State) : Run :=
  if size = 1 then drawPixelBody px py color s else fillRectBody px py size size color s

/-- R203: paint the cells in order; a skipped background cell calls nothing. -/
def paintCells (x y : Int) (size : Nat) (g : Glyph) (fg bg : Word16) (cells : List (Nat × Nat))
    (s : State) : Run :=
  match cells with
  | [] => .running s
  | c :: rest =>
    match cellColor g fg bg c with
    | some color =>
      (paint (x + c.1 * size) (y + c.2 * size) size color s).andThen
        (paintCells x y size g fg bg rest)
    | none => paintCells x y size g fg bg rest s

/-- R203, after the gate. -/
def drawCharBody (x y : Int) (ch : Byte) (fg bg : Word16) (size : Nat) (s : State) : Run :=
  if rejectGlyph s.cfg x y size then .running s
  else paintCells x y size (glyphOf s.cfg ch) fg bg (glyphCells s.cfg) s

/-- R207, the loop over the text: draw the character, count it, advance the column by `size`, and stop
once it exceeds MAX_TEXT_COL; then `ret <- cnt`. -/
def drawText (text : List Byte) (col row : Nat) (fg bg : Word16) (size cnt : Nat) (s : State) : Run :=
  match text with
  | [] => .running (s.setRet (some cnt))
  | ch :: rest =>
    (drawCharBody (col * s.cfg.cellW : Nat) (row * s.cfg.cellH : Nat) ch fg bg size s).andThen fun s =>
    if s.cfg.maxTextCol < col + size then .running (s.setRet (some (cnt + 1)))
    else drawText rest (col + size) row fg bg size (cnt + 1) s

/-- R207, after the gate. -/
def drawStringBody (col row : Nat) (text : List Byte) (fg bg : Word16) (size : Nat) (s : State) : Run :=
  if s.cfg.maxTextRow < row then .running (s.setRet (some 0))
  else drawText (cText text) col row fg bg size 0 s

/-- DRAW_CHAR (R203). -/
def execDrawChar (x y : Word16) (ch : Byte) (fg bg : Word16) (size : Byte) (s : State) :
    Host.Outcome State Fault Refusal :=
  admitDrawing 0x04#8 s fun s =>
    (drawCharBody x.toInt y.toInt ch fg bg size.toNat s).andThen returnNone

/-- DRAW_STRING (R207). -/
def execDrawString (col row : Byte) (text : List Byte) (fg bg : Word16) (size : Byte) (s : State) :
    Host.Outcome State Fault Refusal :=
  admitDrawing 0x05#8 s (drawStringBody col.toNat row.toNat text fg bg size.toNat)

end Sys2Proof.Machine
end

