-- ==== Sys2Proof/Machine/Reserved.lean ====
section
/-! DEFINITION. The reserved request selectors (30_encoding.md R101, 60_exceptions.md R267). -/

namespace Sys2Proof.Machine

/-- RESERVED (R101): "A request with a selector in 0x06..0xFF is refused. The block takes no step". The
refusal comes before every other check (R268). -/
def execReserved (sel : Byte) (_ : State) : Host.Outcome State Fault Refusal :=
  .refused (.reservedSelector sel)

end Sys2Proof.Machine
end

