-- ==== Sys2Proof/Machine/Wire.lean ====
section
/-! DEFINITION. The wire commands as the controller executes them (43_panel_receiver.md R235 to R242): a
command byte and the data bytes that follow it. They touch the receiver alone, in every phase of the block
(R232, log 15). -/

namespace Sys2Proof.Machine

/-- R234: the receiver takes a command transaction and the data bytes after it. -/
def receiveFrame (op : Byte) (data : List Byte) (s : State) : State :=
  s.setPanel ((s.panel.receive s.cfg .command [op]).receive s.cfg .data data)

/-- CASET (R235). -/
def execCaset (data : List Byte) (s : State) : Host.Outcome State Fault Refusal :=
  if s.cfg.wf then .next (receiveFrame s.cfg.opCaset data s) else .refused .illFormedConfig

/-- RASET (R236). -/
def execRaset (data : List Byte) (s : State) : Host.Outcome State Fault Refusal :=
  if s.cfg.wf then .next (receiveFrame s.cfg.opRaset data s) else .refused .illFormedConfig

/-- RAMWR (R237 to R240). -/
def execRamwr (data : List Byte) (s : State) : Host.Outcome State Fault Refusal :=
  if s.cfg.wf then .next (receiveFrame s.cfg.opRamwr data s) else .refused .illFormedConfig

/-- R242: any other wire command, which is no row of the opcode table. -/
def receiveOther (op : Byte) (operands : List Operand) (s : State) : State :=
  match operands with
  | [.bytes data] => receiveFrame op data s
  | _ => receiveFrame op [] s

end Sys2Proof.Machine
end

