-- ==== Sys2Proof/Machine/Dispatch.lean ====
section
/-! DEFINITION. The dispatch: one arm per row of the opcode table. -/

namespace Sys2Proof.Machine

def exec (i : Instr) (s : State) : Host.Outcome State Fault Refusal :=
  match i with
  -- requests (30_encoding.md R98)
  | .init => Sys2Proof.Machine.execInit s
  | .fillScreen color => Sys2Proof.Machine.execFillScreen color s
  | .fillRect x y w h color => Sys2Proof.Machine.execFillRect x y w h color s
  | .drawPixel x y color => Sys2Proof.Machine.execDrawPixel x y color s
  | .drawChar x y ch fg bg size => Sys2Proof.Machine.execDrawChar x y ch fg bg size s
  | .drawString col row text fg bg size => Sys2Proof.Machine.execDrawString col row text fg bg size s
  | .reserved sel => Sys2Proof.Machine.execReserved sel s
  -- micro-operations (R99)
  | .sendCommand op => Sys2Proof.Machine.execSendCommand op s
  | .sendParameters bs => Sys2Proof.Machine.execSendParameters bs s
  | .selectWindow x0 y0 x1 y1 => Sys2Proof.Machine.execSelectWindow x0 y0 x1 y1 s
  | .runInitSequence => Sys2Proof.Machine.execRunInitSequence s
  -- wire commands (R97)
  | .caset data => Sys2Proof.Machine.execCaset data s
  | .raset data => Sys2Proof.Machine.execRaset data s
  | .ramwr data => Sys2Proof.Machine.execRamwr data s

end Sys2Proof.Machine
end

