-- ==== Sys2Proof/Machine/Fetch.lean ====
section
/-! DEFINITION. What a step does with the oldest input besides running an instruction (60_exceptions.md R267,
R274): the parts of the step that stand around exec. -/

namespace Sys2Proof.Machine

/-- A frame that decodes to no instruction: refused (R101), or, on the wire, another opcode (R242). -/
def runReject (r : Reject) (operands : List Operand) (s : State) : Host.Outcome State Fault Refusal :=
  match r with
  | .badOperands sel => .refused (.operandWidth sel)
  | .unknownMicroOp id => .refused (.unknownMicroOp id)
  | .otherOpcode op => .next (receiveOther op operands s)
  | .emptyFrame => .refused (.operandWidth 0x00#8)

/-- R290, R292: block reset samples a configuration; an ill-formed one is refused before reset (R267). -/
def runBlockReset (cfg : Config) (s : State) : Host.Outcome State Fault Refusal :=
  if cfg.wf then .next (s.blockReset cfg) else .refused .illFormedConfig

/-- Does the block itself run the instruction, so that it has no step in FAILED (R264)? A reserved selector is
refused before (R268), and the wire commands are the receiver's (R232). -/
def runsOnBlock (i : Instr) : Bool :=
  match i with
  | .init => true
  | .fillScreen _ => true
  | .fillRect _ _ _ _ _ => true
  | .drawPixel _ _ _ => true
  | .drawChar _ _ _ _ _ _ => true
  | .drawString _ _ _ _ _ _ => true
  | .reserved _ => false
  | .sendCommand _ => true
  | .sendParameters _ => true
  | .selectWindow _ _ _ _ => true
  | .runInitSequence => true
  | .caset _ => false
  | .raset _ => false
  | .ramwr _ => false

/-- The first block reset among pending inputs, and what stands behind it. -/
def nextReset (inputs : List Input) : Option (Config × List Input) :=
  match inputs with
  | [] => none
  | .blockReset cfg :: later => some (cfg, later)
  | .frame _ :: later => nextReset later

/-- R264, R290: an instruction that has no step because the block is in FAILED waits for the next block reset,
which discards it, and with it the frames that were offered before the reset and never taken (log 8). -/
def recovery (phase : Phase) (i : Instr) (behind : List Input) : Option (Config × List Input) :=
  match phase with
  | .failed => if runsOnBlock i then nextReset behind else none
  | .uninit => none
  | .ready => none

/-- The frame that holds a table word becomes the oldest input. -/
def placeTableWord (s : State) (nbits w : Nat) : State :=
  s.setInbox (.frame (tableFrame nbits w) :: s.inbox)

end Sys2Proof.Machine
end

