-- ==== Sys2Proof/Machine/Step.lean ====
section
/-! DEFINITION. One step of the machine: an ill-formed configuration is refused (00_scope.md R7); otherwise the
oldest input is taken, and a frame that decodes to an instruction is executed to completion or to its first
fault (R11). In FAILED a request has no step and waits for the next block reset among the inputs, which discards
it (60_exceptions.md R264, 70_reset_and_hazards.md R290). With no input pending the block waits (R291). -/

namespace Sys2Proof.Machine

def step (s : State) : Host.Outcome State Fault Refusal :=
  if s.cfg.wf then
    match s.inbox with
    | [] => .next s
    | .blockReset cfg :: rest => runBlockReset cfg (s.setInbox rest)
    | .frame f :: rest =>
      match decode s.cfg f with
      | .ok i =>
        match recovery s.phase i rest with
        | some (cfg, later) => runBlockReset cfg (s.setInbox later)
        | none => exec i (s.setInbox rest)
      | .error r => runReject r f.operands (s.setInbox rest)
  else .refused .illFormedConfig

/-- `s` with a word of the opcode table as its oldest input, on the port of its number space. -/
def State.withFetchWord (s : State) (nbits w : Nat) : State := placeTableWord s nbits w

end Sys2Proof.Machine
end

