-- ==== Sys2Proof/Safety.lean ====
section
/-! DEFINITION. The terms the claims use: what a run of successful transactions leaves, the event lists the
trace laws of the spec give for each rule (40_command_protocol.md R134 to R142, 41_staging.md R171 to R180,
42_glyph.md R200 to R208), where a failing transaction cuts such a list (60_exceptions.md R264), the invariant
of the machine, and agreement of two outcomes up to a hidden part of the state. None of it is used by the machine. -/

namespace Sys2Proof.Machine

/-! ### Premises on the transport -/

/-- The next `n` transactions succeed. (R260: "a claim that needs success states it as a premise".) -/
def AllOk (s : State) (n : Nat) : Prop := ∀ k, k < n → s.answer k = .ok

/-- The next `n` transactions succeed and the one after them fails, having delivered `d` bytes. -/
def FailsAfter (s : State) (n d : Nat) : Prop := AllOk s n ∧ s.answer n = .err d

/-! ### Event lists -/

/-- Is the event a transaction? (`PIN` and `DELAY` events are not.) -/
def Event.isTx : Event → Bool
  | .tx _ _ _ => true
  | .pin _ _ => false
  | .delay _ => false

/-- Is the event a failed transaction? -/
def Event.isErr : Event → Bool
  | .tx _ _ .err => true
  | .tx _ _ .ok => false
  | .pin _ _ => false
  | .delay _ => false

/-- How many transactions an event list has. -/
def txs (evs : List Event) : Nat := evs.countP Event.isTx

/-- R264: the events up to the transaction number `n` (from 0), which fails; nothing after it. -/
def cutAt : Nat → List Event → List Event
  | _, [] => []
  | 0, .tx m bs _ :: _ => [.tx m bs .err]
  | n + 1, .tx m bs r :: rest => .tx m bs r :: cutAt n rest
  | n, .pin p l :: rest => .pin p l :: cutAt n rest
  | n, .delay d :: rest => .delay d :: cutAt n rest

/-- A successful command transaction, `C op`. -/
def okCommand (op : Byte) : Event := .tx .command [op] .ok

/-- The successful data transaction of these bytes, `D b0 b1 ...`; none where there is no byte (R131). -/
def okData (bs : List Byte) : List Event :=
  match bs with
  | [] => []
  | b :: rest => [.tx .data (b :: rest) .ok]

/-- R137: the five transactions of SELECT_WINDOW. -/
def windowEvents (cfg : Config) (x0 y0 x1 y1 : Int) : List Event :=
  [ okCommand cfg.opCaset,
    .tx .data [0x00#8, byteOf (x0 + cfg.offsetX), 0x00#8, byteOf (x1 + cfg.offsetX)] .ok,
    okCommand cfg.opRaset,
    .tx .data [0x00#8, byteOf (y0 + cfg.offsetY), 0x00#8, byteOf (y1 + cfg.offsetY)] .ok,
    okCommand cfg.opRamwr ]

/-- R94: the pixel stream of `n` pixels of one colour, low byte first. -/
def pixelBytes (n : Nat) (color : Word16) : List Byte :=
  (List.replicate n [loByte color, hiByte color]).flatten

/-- R137: a window and its pixel stream. -/
def rectEvents (cfg : Config) (x y : Int) (w h : Nat) (color : Word16) : List Event :=
  windowEvents cfg x y (x + w - 1) (y + h - 1) ++ [.tx .data (pixelBytes (w * h) color) .ok]

/-- R175: what FILL_RECT emits: nothing, if the clipping drops it. -/
def fillEvents (cfg : Config) (x y : Int) (w h : Nat) (color : Word16) : List Event :=
  match clip cfg x y w h with
  | none => []
  | some r => rectEvents cfg r.x r.y r.w r.h color

/-- R177: what DRAW_PIXEL emits. -/
def pixelEvents (cfg : Config) (x y : Int) (color : Word16) : List Event :=
  if onPanel cfg x y then rectEvents cfg x y 1 1 color else []

/-- R202: what painting one block emits. -/
def paintEvents (cfg : Config) (px py : Int) (size : Nat) (color : Word16) : List Event :=
  if size = 1 then pixelEvents cfg px py color else fillEvents cfg px py size size color

/-- R203, R204: the cells DRAW_CHAR paints, in order, each with its colour: a set bit in `fg`, a clear
bit in `bg` unless the two are equal. -/
def paintCalls (cfg : Config) (ch : Byte) (fg bg : Word16) : List ((Nat × Nat) × Word16) :=
  (glyphCells cfg).filterMap fun c =>
    if glyphBit (glyphOf cfg ch) c.1 c.2 then some (c, fg)
    else if fg = bg then none
    else some (c, bg)

/-- R203: what DRAW_CHAR emits. -/
def charEvents (cfg : Config) (x y : Int) (ch : Byte) (fg bg : Word16) (size : Nat) : List Event :=
  if rejectGlyph cfg x y size then []
  else (paintCalls cfg ch fg bg).flatMap fun c =>
    paintEvents cfg (x + c.1.1 * size) (y + c.1.2 * size) size c.2

/-- R207, R208: how many characters DRAW_STRING renders of a text of `len` characters, in closed form. -/
def renderedCount (len col row size : Nat) : Nat :=
  if 15 < row then 0
  else if 20 < col then min len 1
  else if size = 0 then len
  else min len ((20 - col) / size + 1)

/-- R206, R207: what DRAW_STRING emits: the rendered characters, at the pitch of 6 by 8 pixels. -/
def stringEvents (cfg : Config) (col row : Nat) (text : List Byte) (fg bg : Word16) (size : Nat) :
    List Event :=
  (List.range (renderedCount (cText text).length col row size)).flatMap fun k =>
    charEvents cfg (6 * (col + k * size) : Nat) (8 * row : Nat) ((cText text).getD k 0x00#8) fg bg size

/-- R138, R139: what one Command Record emits. -/
def recordEvents (cfg : Config) (r : CommandRecord) : List Event :=
  okCommand r.op :: okData (r.params.take (r.count &&& 0x1F#8).toNat)
    ++ (if r.count.getLsbD 7 then [.delay cfg.initDelayMs] else [])

/-- R138: the records before the sentinel. -/
def liveRecords (cfg : Config) : List CommandRecord :=
  cfg.initTable.takeWhile (fun r => decide (r.count ≠ 0xFF#8))

/-- R138: what RUN_INIT_SEQUENCE emits. -/
def replayEvents (cfg : Config) : List Event := (liveRecords cfg).flatMap (recordEvents cfg)

/-- R140, R293: what INIT emits. -/
def initEvents (cfg : Config) : List Event :=
  [.pin .reset .low, .delay cfg.resetDelayMs, .pin .reset .high, .delay cfg.resetDelayMs]
    ++ replayEvents cfg ++ [.pin .backlight cfg.blOnLevel]

/-- What a request or micro-operation emits when every transaction succeeds and its checks let it run. -/
def expectedEvents (cfg : Config) : Instr → List Event
  | .init => initEvents cfg
  | .fillScreen color => rectEvents cfg 0 0 cfg.width cfg.height color
  | .fillRect x y w h color => fillEvents cfg x.toInt y.toInt w.toNat h.toNat color
  | .drawPixel x y color => pixelEvents cfg x.toInt y.toInt color
  | .drawChar x y ch fg bg size => charEvents cfg x.toInt y.toInt ch fg bg size.toNat
  | .drawString col row text fg bg size =>
    stringEvents cfg col.toNat row.toNat text fg bg size.toNat
  | .reserved _ => []
  | .sendCommand op => [okCommand op]
  | .sendParameters bs => okData bs
  | .selectWindow x0 y0 x1 y1 => windowEvents cfg x0 y0 x1 y1
  | .runInitSequence => replayEvents cfg
  | .caset _ => []
  | .raset _ => []
  | .ramwr _ => []

/-- R174, R175: the pixels FILL_RECT stages, if any. -/
def fillStaged (cfg : Config) (x y : Int) (w h : Nat) : List Nat :=
  match clip cfg x y w h with
  | none => []
  | some r => [r.w * r.h]

/-- R177, R202: the pixels one painted block stages, if any. -/
def blockStaged (cfg : Config) (px py : Int) (size : Nat) : List Nat :=
  if size = 1 then (if onPanel cfg px py then [1] else []) else fillStaged cfg px py size size

/-- R203: what each painted block of DRAW_CHAR stages, how many pixels and in which colour. -/
def charStagings (cfg : Config) (x y : Int) (ch : Byte) (fg bg : Word16) (size : Nat) :
    List (Nat × Word16) :=
  if rejectGlyph cfg x y size then []
  else (paintCalls cfg ch fg bg).flatMap fun c =>
    (blockStaged cfg (x + c.1.1 * size) (y + c.1.2 * size) size).map fun n => (n, c.2)

/-- R170: the stagings of an instruction in order, each by its number of pixels and its colour. -/
def stagings (cfg : Config) : Instr → List (Nat × Word16)
  | .fillScreen color => [(cfg.width * cfg.height, color)]
  | .fillRect x y w h color =>
    (fillStaged cfg x.toInt y.toInt w.toNat h.toNat).map fun n => (n, color)
  | .drawPixel x y color => if onPanel cfg x.toInt y.toInt then [(1, color)] else []
  | .drawChar x y ch fg bg size => charStagings cfg x.toInt y.toInt ch fg bg size.toNat
  | .drawString col row text fg bg size =>
    (List.range (renderedCount (cText text).length col.toNat row.toNat size.toNat)).flatMap fun k =>
      charStagings cfg (6 * (col.toNat + k * size.toNat) : Nat) (8 * row.toNat : Nat)
        ((cText text).getD k 0x00#8) fg bg size.toNat
  | .init => []
  | .reserved _ => []
  | .sendCommand _ => []
  | .sendParameters _ => []
  | .selectWindow _ _ _ _ => []
  | .runInitSequence => []
  | .caset _ => []
  | .raset _ => []
  | .ramwr _ => []

/-- R170: how many pixels an instruction stages at a time. A staging of `n` pixels stores to the scratch
offsets `0..2n-1` and to no other (R68). -/
def stagedPixels (cfg : Config) (i : Instr) : List Nat := (stagings cfg i).map Prod.fst

/-- The state after some stagings, one after the other. -/
def State.stageAll (s : State) (l : List (Nat × Word16)) : State :=
  l.foldl (fun u b => u.stage b.1 b.2) s

/-- Does the instruction store to this scratch offset? -/
def storesTo (cfg : Config) (i : Instr) (off : Nat) : Prop := ∃ n ∈ stagedPixels cfg i, off < 2 * n

/-- The value the glass shows for a colour: its byte swap (R62, R238). -/
def shown (color : Word16) : Word16 := joinBytes (loByte color) (hiByte color)

/-- R173, R174: is the glass pixel `(gx, gy)` in the clipped rectangle `(x, y, w, h)`? The rectangle must start
on the panel, and what lies past the panel's edges is cut off. -/
def covers (cfg : Config) (x y : Int) (w h : Nat) (gx gy : Nat) : Bool :=
  onPanel cfg x y && onPanel cfg gx gy && decide (x ≤ gx) && decide ((gx : Int) < x + w)
    && decide (y ≤ gy) && decide ((gy : Int) < y + h)

/-- R100: the values an operand may have. -/
inductive Range where
  | ints (least greatest : Int)
  | text
  deriving DecidableEq, Repr

/-- R100: the ranges of the declared widths. -/
def Range.u8 : Range := .ints 0 255
def Range.u16 : Range := .ints 0 65535
def Range.s16 : Range := .ints (-32768) 32767

/-- R98: the operands of each request, in order, by the ranges of their declared widths. -/
def declaredRanges (sel : Byte) : List Range :=
  match sel.toNat with
  | 0x01 => [.u16]
  | 0x02 => [.s16, .s16, .u16, .u16, .u16]
  | 0x03 => [.s16, .s16, .u16]
  | 0x04 => [.s16, .s16, .u8, .u16, .u16, .u8]
  | 0x05 => [.u8, .u8, .text, .u16, .u16, .u8]
  | _ => []

/-- R100: an operand of the declared kind and within its range. -/
def Range.holds : Range → Operand → Prop
  | .ints least greatest, .int v => least ≤ v ∧ v ≤ greatest
  | .text, .bytes _ => True
  | .ints _ _, .bytes _ => False
  | .text, .int _ => False

/-- R101: the operands of a request fit: as many as declared, each of its kind and within its range. -/
def OperandsFit (sel : Byte) (operands : List Operand) : Prop :=
  List.Forall₂ Range.holds (declaredRanges sel) operands

/-- The selector of a request (R98), as NotReady records it (R263). -/
def selectorOf : Instr → Byte
  | .init => 0x00#8
  | .fillScreen _ => 0x01#8
  | .fillRect _ _ _ _ _ => 0x02#8
  | .drawPixel _ _ _ => 0x03#8
  | .drawChar _ _ _ _ _ _ => 0x04#8
  | .drawString _ _ _ _ _ _ => 0x05#8
  | .reserved sel => sel
  | .sendCommand _ => 0x10#8
  | .sendParameters _ => 0x11#8
  | .selectWindow _ _ _ _ => 0x12#8
  | .runInitSequence => 0x13#8
  | .caset _ => 0x2A#8
  | .raset _ => 0x2B#8
  | .ramwr _ => 0x2C#8

/-- R302: the least time of an event list, in milliseconds. -/
def delayTotal (evs : List Event) : Nat :=
  (evs.map fun ev => match ev with
    | .delay ms => ms
    | .tx _ _ _ => 0
    | .pin _ _ => 0).sum

/-- The receiver's view of an event of the trace (R233, R234): a successful transaction is received, the
rising edge of the reset line ends a pulse. -/
def Panel.observe (cfg : Config) (p : Panel) : Event → Panel
  | .tx mode bs .ok => p.receive cfg mode bs
  | .tx _ _ .err => p
  | .pin .reset .high => Panel.powerOn
  | .pin .reset .low => p
  | .pin .backlight _ => p
  | .delay _ => p

/-! ### What a rule leaves -/

/-- `t` is `s` after the successful events `evs`: they are appended to the trace, the receiver has seen
them, the transport has answered their transactions; configuration, phase, fault, pins and pending inputs
are as before. (`scratch` and `ret` are not spoken of.) -/
structure Performed (s t : State) (evs : List Event) : Prop where
  trace     : t.trace = s.trace ++ evs
  panel     : t.panel = evs.foldl (Panel.observe s.cfg) s.panel
  answers   : t.answers = s.answers.drop (txs evs)
  txCount   : t.txCount = s.txCount + txs evs
  cfg       : t.cfg = s.cfg
  phase     : t.phase = s.phase
  fault     : t.fault = s.fault
  faultInfo : t.faultInfo = s.faultInfo
  pins      : t.pins = s.pins
  inbox     : t.inbox = s.inbox
  epoch     : t.epoch = s.epoch

/-- Scratch holds `n` pixels of one colour from offset 0, and beyond them what it held before (R68, R170). -/
def Staged (s t : State) (n : Nat) (color : Word16) : Prop :=
  (∀ k, k < n → Store.read t.scratch (2 * k) = some (loByte color)
    ∧ Store.read t.scratch (2 * k + 1) = some (hiByte color))
  ∧ ∀ off, 2 * n ≤ off → Store.read t.scratch off = Store.read s.scratch off

/-- The info a TransportError records of a transaction (R263). -/
def infoOf : Mode → List Byte → FaultInfo
  | .command, [] => .length 0
  | .command, op :: _ => .opcode op
  | .data, bs => .length bs.length

/-- R22, R28, R91, R92, R264 and the canonical forms: what holds of every reachable state. -/
structure State.Inv (s : State) : Prop where
  /-- R22: `fault ≠ none` if and only if `phase = FAILED`. -/
  faultIffFailed : s.fault.isSome ↔ s.phase = .failed
  /-- R263: a fault has its info. -/
  infoIffFault : s.faultInfo.isSome = s.fault.isSome
  /-- R264: a fault leaves no result. -/
  failedNoRet : s.phase = .failed → s.ret = none
  /-- R264: after a TransportError the trace ends in the failed transaction, and its info is recorded. -/
  errorIsLast : s.fault = some .transportError →
    ∃ before mode bs, s.trace = before ++ [.tx mode bs .err] ∧ s.faultInfo = some (infoOf mode bs)
  /-- R264: no failed transaction stands anywhere else in the trace. -/
  errorOnlyLast : ∀ ev ∈ s.trace.dropLast, ev.isErr = false
  /-- R264: a failed transaction in the trace means TransportError. -/
  errorMeansFault : (∃ ev ∈ s.trace, ev.isErr = true) → s.fault = some .transportError
  /-- R91, R92, R297: no empty transaction, and a command transaction is one byte. -/
  framing : ∀ mode bs r, Event.tx mode bs r ∈ s.trace → bs ≠ [] ∧ (mode = .command → bs.length = 1)
  /-- The scratch memory is canonical. -/
  scratchCanonical : Memory.wf s.scratch
  /-- R60: no byte is held outside `0..SCRATCH_BYTES-1`. -/
  scratchInRange : ∀ c ∈ s.scratch, c.1 < s.cfg.scratchBytes
  /-- The controller RAM is canonical. -/
  gramCanonical : Gram.wf s.panel.gram
  /-- R235: fewer than four parameter bytes are pending. -/
  paramShort : ∀ reg buf, s.panel.rx = .param reg buf → buf.length < 4
  /-- R140, R141: in READY the reset line is high and the backlight on. -/
  readyPins : s.phase = .ready →
    s.pins.reset = some .high ∧ s.pins.backlight = some s.cfg.blOnLevel

/-- Two outcomes agree up to what `hide` hides. -/
def SameUpTo (hide : State → State) :
    Host.Outcome State Fault Refusal → Host.Outcome State Fault Refusal → Prop
  | .next t, .next u => hide t = hide u
  | .fault a, .fault b => a = b
  | .refused a, .refused b => a = b
  | .next _, .fault _ => False
  | .next _, .refused _ => False
  | .fault _, .next _ => False
  | .fault _, .refused _ => False
  | .refused _, .next _ => False
  | .refused _, .fault _ => False

/-- The client's drawing requests (R265). -/
def isDrawing : Instr → Bool
  | .fillScreen _ => true
  | .fillRect _ _ _ _ _ => true
  | .drawPixel _ _ _ => true
  | .drawChar _ _ _ _ _ _ => true
  | .drawString _ _ _ _ _ _ => true
  | .init => false
  | .reserved _ => false
  | .sendCommand _ => false
  | .sendParameters _ => false
  | .selectWindow _ _ _ _ => false
  | .runInitSequence => false
  | .caset _ => false
  | .raset _ => false
  | .ramwr _ => false

/-- When an instruction of the block is let run: the checks of R268 and the assertion of R135. -/
def Admitted (i : Instr) (s : State) : Prop :=
  s.cfg.wf = true ∧ s.phase ≠ .failed ∧ (isDrawing i = true → s.phase = .ready) ∧
    match i with
    | .selectWindow x0 y0 x1 y1 => windowInPanel s.cfg x0 y0 x1 y1 = true
    | .reserved _ => False
    | .caset _ => False
    | .raset _ => False
    | .ramwr _ => False
    | _ => True

/-- The wire commands (R97). -/
def isWire : Instr → Bool
  | .caset _ => true
  | .raset _ => true
  | .ramwr _ => true
  | .init => false
  | .fillScreen _ => false
  | .fillRect _ _ _ _ _ => false
  | .drawPixel _ _ _ => false
  | .drawChar _ _ _ _ _ _ => false
  | .drawString _ _ _ _ _ _ => false
  | .reserved _ => false
  | .sendCommand _ => false
  | .sendParameters _ => false
  | .selectWindow _ _ _ _ => false
  | .runInitSequence => false

end Sys2Proof.Machine
end

