-- ==== Sys2Proof/Certificates/Slice0/Obligations.lean ====
section
/-! DEFINITION. The statements about the model, for the provers. Each docstring names the rule of spec/ it
comes from, and the spec's decision (92_eei_decisions.md) or the assumption-log row it rests on, if any. -/

open Sys2Proof Sys2Proof.Machine

/-! ### Encoding -/

/-- R98 to R100: no operand of any well-formed instruction loses a bit in its frame. The byte layout is the
model's (log 5); the second clause, about the pair `(sel, operands)`, does not rest on it. -/
def Obligations.DecodeOfEncodeIsTheInstruction : Prop :=
  ∀ (cfg : Config) (i : Instr), cfg.wf = true → i.wf = true →
    decodeBytes cfg (portOf i) (encode cfg i) = .ok i ∧ decode cfg (frameOf cfg i) = .ok i

/-- Where a byte string decodes to an instruction, it is that instruction's only encoding (log 5). A reserved
selector is refused whatever follows it (R101), so it is left out. -/
def Obligations.EncodeOfDecodeIsTheBytes : Prop :=
  ∀ (cfg : Config) (port : Port) (bytes : List Byte) (i : Instr), cfg.wf = true →
    decodeBytes cfg port bytes = .ok i → (∀ sel, i ≠ .reserved sel) →
    encode cfg i = bytes ∧ portOf i = port

/-- The programs of 95_test_vectors.md part 3, byte by byte, and two byte strings that the spec does not write out
as one frame: the id 0x13 of R99 and the opcode 0x2A of R97 with its parameters. That these two are frames, laid
out so, is the model's choice (log 5); the opcode is the spec's presumption (log 18). -/
def Obligations.SpecWordsDecode : Prop :=
  decodeBytes Config.reference .request [0x00#8] = .ok .init ∧
  decodeBytes Config.reference .request [0x01#8, 0xFF#8, 0xFF#8] = .ok (.fillScreen 0xFFFF#16) ∧
  decodeBytes Config.reference .request
    [0x02#8, 0x00#8, 0x78#8, 0x00#8, 0x96#8, 0x00#8, 0x14#8, 0x00#8, 0x14#8, 0xAB#8, 0xCD#8] =
      .ok (.fillRect 120#16 150#16 20#16 20#16 0xABCD#16) ∧
  decodeBytes Config.reference .request [0x03#8, 0x00#8, 0x7F#8, 0x00#8, 0x9F#8, 0x00#8, 0xF8#8] =
    .ok (.drawPixel 127#16 159#16 0x00F8#16) ∧
  decodeBytes Config.reference .request
    [0x04#8, 0x00#8, 0x00#8, 0x00#8, 0x00#8, 0x41#8, 0xF8#8, 0x00#8, 0xF8#8, 0x00#8, 0x01#8] =
      .ok (.drawChar 0#16 0#16 0x41#8 0xF800#16 0xF800#16 1#8) ∧
  decodeBytes Config.reference .request
    [0x05#8, 0x13#8, 0x01#8, 0x41#8, 0x42#8, 0x43#8, 0x00#8, 0x00#8, 0x00#8, 0x00#8, 0x00#8, 0x01#8] =
      .ok (.drawString 19#8 1#8 [0x41#8, 0x42#8, 0x43#8] 0#16 0#16 1#8) ∧
  decodeBytes Config.reference .wire [0x2A#8, 0x00#8, 0x02#8, 0x00#8, 0x81#8] =
    .ok (.caset [0x00#8, 0x02#8, 0x00#8, 0x81#8]) ∧
  decodeBytes Config.reference .micro [0x13#8] = .ok .runInitSequence

/-! ### The step -/

/-- R11, R274: when the oldest pending frame's bytes decode to an instruction, the step takes that frame and
runs exactly that instruction. (How frames come to the block is the model's, log 4.) The premise leaves out one
case, an instruction that has no step in FAILED with a block reset pending behind it, which
BlockResetRecoversFromFailed states (log 8). -/
def Obligations.StepRunsTheDecodedInstruction : Prop :=
  ∀ (s : State) (port : Port) (bytes : List Byte) (f : Frame) (rest : List Input) (i : Instr),
    s.cfg.wf = true → s.inbox = .frame f :: rest → parseFrame port bytes = some f →
    decodeBytes s.cfg port bytes = .ok i →
    (s.phase = .failed → isWire i = false → (∀ sel, i ≠ .reserved sel) →
      ∀ c, .blockReset c ∉ rest) →
    step s = exec i (s.setInbox rest)

/-- R291: with no request the block waits (log 9). -/
def Obligations.IdleStepWaits : Prop :=
  ∀ s : State, s.cfg.wf = true → s.inbox = [] → step s = .next s

/-- R290, R31 (decisions D19, D22, D33; log 3 and log 8 for what the model keeps): block reset, in any phase,
sets every piece of block state to its reset value, samples the configuration and leaves the receiver alone. That
the recorded info is none afterwards is the model's choice (log 16): R31 does not list it. -/
def Obligations.BlockResetRestoresTheResetState : Prop :=
  ∀ (s : State) (c : Config) (rest : List Input),
    s.cfg.wf = true → c.wf = true → s.inbox = .blockReset c :: rest →
    ∃ t, step s = .next t ∧ t.cfg = c ∧ t.phase = .uninit ∧ t.fault = none ∧ t.faultInfo = none ∧
      (∀ off, Store.read t.scratch off = none) ∧ t.epoch = s.epoch + 1 ∧ t.pins.reset = none ∧
      t.pins.backlight = none ∧ t.trace = [] ∧ t.ret = none ∧ t.panel = s.panel ∧ t.inbox = rest ∧
      t.answers = s.answers ∧ t.txCount = s.txCount

/-- R290, R264, R270 (decisions D19, D20): block reset is the way out of FAILED also when a request was offered there
first. Such a request has no step, and the block reset behind it discards it. That the frames between the two are
discarded with it, and that the step looks behind the stuck request, is the model's choice (log 8). With no block
reset behind it the request is stuck. -/
def Obligations.BlockResetRecoversFromFailed : Prop :=
  ∀ (s : State) (f : Frame) (i : Instr) (rest : List Input), s.cfg.wf = true → s.phase = .failed →
    s.inbox = .frame f :: rest → decode s.cfg f = .ok i → isWire i = false →
    (∀ sel, i ≠ .reserved sel) →
    ((∀ c, .blockReset c ∉ rest) → step s = .fault .stuckFailed) ∧
    (∀ (frames : List Frame) (c : Config) (later : List Input),
      rest = frames.map .frame ++ .blockReset c :: later →
      step s = step (s.setInbox (.blockReset c :: later)) ∧
      (c.wf = true → ∃ t, step s = .next t ∧ t.cfg = c ∧ t.phase = .uninit ∧ t.fault = none ∧
        t.pins.reset = none ∧ t.pins.backlight = none ∧ t.trace = [] ∧ t.ret = none ∧
        (∀ off, Store.read t.scratch off = none) ∧ t.panel = s.panel ∧ t.inbox = later))

/-- R7, R267 (decisions D6, D9, D36): nothing runs under an ill-formed configuration, and none is sampled. -/
def Obligations.IllFormedConfigurationIsRefused : Prop :=
  (∀ s : State, s.cfg.wf = false → step s = .refused .illFormedConfig) ∧
  (∀ (s : State) (c : Config) (rest : List Input), s.cfg.wf = true → c.wf = false →
    s.inbox = .blockReset c :: rest → step s = .refused .illFormedConfig)

/-- R101, R268 (decision D36): a reserved selector is refused in every phase, whatever its operands, before any
other check of the request; RESERVED stops so on every path. -/
def Obligations.ReservedSelectorsAreRefused : Prop :=
  (∀ (s : State) (sel : Byte) (operands : List Operand) (rest : List Input),
    s.cfg.wf = true → 6 ≤ sel.toNat →
    s.inbox = .frame { port := .request, head := sel, operands := operands } :: rest →
    step s = .refused (.reservedSelector sel)) ∧
  (∀ (s : State) (sel : Byte), exec (.reserved sel) s = .refused (.reservedSelector sel))

/-- R100, R101 (decisions D3, D36): a request whose operands do not fit (too few or too many, one of the wrong
kind, or an integer outside its declared width) is refused in every phase, and one whose operands fit runs with
their 16-bit and 8-bit patterns and the text up to its first zero byte (log 21). `OperandsFit` and `declaredRanges`
are in Safety.lean. (For FAILED with a block reset behind the request see BlockResetRecoversFromFailed.) -/
def Obligations.OperandsOutsideTheirWidthsAreRefused : Prop :=
  ∀ (s : State) (rest : List Input), s.cfg.wf = true →
    (∀ (sel : Byte) (operands : List Operand), sel.toNat < 6 → ¬ OperandsFit sel operands →
      s.inbox = .frame { port := .request, head := sel, operands := operands } :: rest →
      step s = .refused (.operandWidth sel)) ∧
    ((s.phase = .failed → ∀ c, .blockReset c ∉ rest) →
      (s.inbox = .frame { port := .request, head := 0x00#8, operands := [] } :: rest →
        step s = exec .init (s.setInbox rest)) ∧
      (∀ color : Int, OperandsFit 0x01#8 [.int color] →
        s.inbox = .frame { port := .request, head := 0x01#8, operands := [.int color] } :: rest →
        step s = exec (.fillScreen (BitVec.ofInt 16 color)) (s.setInbox rest)) ∧
      (∀ x y w h color : Int,
        OperandsFit 0x02#8 [.int x, .int y, .int w, .int h, .int color] →
        s.inbox = .frame { port := .request, head := 0x02#8,
                           operands := [.int x, .int y, .int w, .int h, .int color] } :: rest →
        step s = exec (.fillRect (BitVec.ofInt 16 x) (BitVec.ofInt 16 y) (BitVec.ofInt 16 w)
          (BitVec.ofInt 16 h) (BitVec.ofInt 16 color)) (s.setInbox rest)) ∧
      (∀ x y color : Int, OperandsFit 0x03#8 [.int x, .int y, .int color] →
        s.inbox = .frame { port := .request, head := 0x03#8,
                           operands := [.int x, .int y, .int color] } :: rest →
        step s = exec (.drawPixel (BitVec.ofInt 16 x) (BitVec.ofInt 16 y) (BitVec.ofInt 16 color))
          (s.setInbox rest)) ∧
      (∀ x y ch fg bg size : Int,
        OperandsFit 0x04#8 [.int x, .int y, .int ch, .int fg, .int bg, .int size] →
        s.inbox = .frame { port := .request, head := 0x04#8,
                           operands := [.int x, .int y, .int ch, .int fg, .int bg, .int size] } :: rest →
        step s = exec (.drawChar (BitVec.ofInt 16 x) (BitVec.ofInt 16 y) (BitVec.ofInt 8 ch)
          (BitVec.ofInt 16 fg) (BitVec.ofInt 16 bg) (BitVec.ofInt 8 size)) (s.setInbox rest)) ∧
      (∀ (col row : Int) (text : List Byte) (fg bg size : Int),
        OperandsFit 0x05#8 [.int col, .int row, .bytes text, .int fg, .int bg, .int size] →
        s.inbox = .frame { port := .request, head := 0x05#8,
                           operands := [.int col, .int row, .bytes text, .int fg, .int bg,
                             .int size] } :: rest →
        step s = exec (.drawString (BitVec.ofInt 8 col) (BitVec.ofInt 8 row) (cText text)
          (BitVec.ofInt 16 fg) (BitVec.ofInt 16 bg) (BitVec.ofInt 8 size)) (s.setInbox rest)))

/-- R242 (decision D27): a wire command other than CASET, RASET and RAMWR touches the receiver's phase. Under
PANEL_MODE_OK nothing else of it changes beside the half pixel (R234); that this holds of an opcode outside
INIT_TABLE too, and that everything else becomes unknown without that premise, is the model's choice (log 14). A
pending parameter list, which the opcode ends (R235, R236), is in CasetSetsTheColumns and RasetSetsTheRows. -/
def Obligations.OtherWireCommandSetsThePhase : Prop :=
  ∀ (s : State) (op : Byte) (data : List Byte) (rest : List Input),
    s.cfg.wf = true → op ≠ s.cfg.opCaset → op ≠ s.cfg.opRaset → op ≠ s.cfg.opRamwr →
    s.inbox = .frame { port := .wire, head := op, operands := [.bytes data] } :: rest →
    ∃ p, step s = .next ((s.setInbox rest).setPanel p) ∧ p.rx = .other op ∧ p.half = none ∧
      (s.cfg.panelModeOk = true → (∀ reg buf, s.panel.rx ≠ .param reg buf) →
        p = { s.panel with rx := .other op, half := none }) ∧
      (s.cfg.panelModeOk = false → p = { Panel.powerOn with rx := .other op })

/-! ### The command protocol -/

/-- R130: SEND_COMMAND, micro-operation 0x10 of an 8-bit operand, sends any opcode unchanged as one command
transaction; a failing one raises TransportError with the opcode (R264 says what raising does). -/
def Obligations.SendCommandEffect : Prop :=
  (∀ (op : Byte) (cfg : Config),
    decode cfg { port := .micro, head := 0x10#8, operands := [.int op.toNat] } = .ok (.sendCommand op)) ∧
  ∀ (op : Byte) (s : State), s.cfg.wf = true → s.phase ≠ .failed →
    (s.answer 0 = .ok →
      ∃ t, exec (.sendCommand op) s = .next t ∧ Performed s t [.tx .command [op] .ok] ∧
        t.scratch = s.scratch ∧ t.ret = s.ret) ∧
    (∀ d, s.answer 0 = .err d → s.fault = none →
      ∃ t, exec (.sendCommand op) s = .next t ∧ t.trace = s.trace ++ [.tx .command [op] .err] ∧
        t.fault = some .transportError ∧ t.faultInfo = some (.opcode op) ∧ t.phase = .failed ∧
        t.ret = none ∧ t.scratch = s.scratch ∧ t.pins = s.pins ∧ t.cfg = s.cfg ∧ t.inbox = s.inbox ∧
        t.answers = s.answers.drop 1 ∧ t.txCount = s.txCount + 1 ∧ t.epoch = s.epoch)

/-- R131 (decision D23: never split): SEND_PARAMETERS sends a non-empty sequence as one data transaction;
an empty one is a no-op that cannot fault. -/
def Obligations.SendParametersEffect : Prop :=
  ∀ (bs : List Byte) (s : State), s.cfg.wf = true → s.phase ≠ .failed →
    (bs = [] → exec (.sendParameters bs) s = .next s) ∧
    (bs ≠ [] → s.answer 0 = .ok →
      ∃ t, exec (.sendParameters bs) s = .next t ∧ Performed s t [.tx .data bs .ok] ∧
        t.scratch = s.scratch ∧ t.ret = s.ret) ∧
    (∀ d, bs ≠ [] → s.answer 0 = .err d → s.fault = none →
      ∃ t, exec (.sendParameters bs) s = .next t ∧ t.trace = s.trace ++ [.tx .data bs .err] ∧
        t.fault = some .transportError ∧ t.faultInfo = some (.length bs.length) ∧ t.phase = .failed ∧
        t.ret = none ∧ t.scratch = s.scratch ∧ t.pins = s.pins ∧ t.cfg = s.cfg ∧ t.inbox = s.inbox)

/-- R134, R137, R246 (R237's decision D25): SELECT_WINDOW with corners in the panel emits its five transactions
and leaves the receiver at the window's origin, ready for exactly the window's pixels. -/
def Obligations.SelectWindowProgramsTheWindow : Prop :=
  ∀ (x0 y0 x1 y1 : Int) (s : State), s.cfg.wf = true → s.phase ≠ .failed →
    0 ≤ x0 → x0 ≤ x1 → x1 < s.cfg.width → 0 ≤ y0 → y0 ≤ y1 → y1 < s.cfg.height → AllOk s 5 →
    ∃ t, exec (.selectWindow x0 y0 x1 y1) s = .next t ∧
      Performed s t (windowEvents s.cfg x0 y0 x1 y1) ∧ t.scratch = s.scratch ∧ t.ret = s.ret ∧
      t.panel = { rx := .memWrite
                  xs := some (BitVec.ofNat 16 (x0.toNat + s.cfg.offsetX))
                  xe := some (BitVec.ofNat 16 (x1.toNat + s.cfg.offsetX))
                  ys := some (BitVec.ofNat 16 (y0.toNat + s.cfg.offsetY))
                  ye := some (BitVec.ofNat 16 (y1.toNat + s.cfg.offsetY))
                  ptr := some (BitVec.ofNat 16 (x0.toNat + s.cfg.offsetX),
                    BitVec.ofNat 16 (y0.toNat + s.cfg.offsetY))
                  half := none
                  left := some (((x1 - x0 + 1) * (y1 - y0 + 1)).toNat)
                  gram := s.panel.gram }

/-- R135: corners outside the panel break SELECT_WINDOW's assertion (log 11). -/
def Obligations.SelectWindowOutsideThePanelStops : Prop :=
  ∀ (x0 y0 x1 y1 : Int) (s : State), s.cfg.wf = true → s.phase ≠ .failed →
    ¬ (0 ≤ x0 ∧ x0 ≤ x1 ∧ x1 < s.cfg.width ∧ 0 ≤ y0 ∧ y0 ≤ y1 ∧ y1 < s.cfg.height) →
    exec (.selectWindow x0 y0 x1 y1) s = .fault .windowAssertion

/-- R138, R139 (decision D5: the delay flag and the sentinel): RUN_INIT_SEQUENCE emits, for the records before
the sentinel in order, the opcode, the parameters and the delay. -/
def Obligations.RunInitSequenceReplaysTheTable : Prop :=
  ∀ s : State, s.cfg.wf = true → s.phase ≠ .failed → AllOk s (txs (replayEvents s.cfg)) →
    ∃ t, exec .runInitSequence s = .next t ∧ Performed s t (replayEvents s.cfg) ∧
      t.scratch = s.scratch ∧ t.ret = s.ret

/-- R95, R138 (decision D5): bits 6 and 5 of a record's count byte have no effect. -/
def Obligations.InitRecordIgnoresTheMaskedBits : Prop :=
  ∀ (r : CommandRecord) (count : Byte) (s : State), s.cfg.wf = true →
    count &&& 0x9F#8 = r.count &&& 0x9F#8 → sendRecord { r with count := count } s = sendRecord r s

/-! ### INIT -/

/-- R140, R141 (decisions D7, D8, D21; log 12 for the receiver's view of the pulse): INIT in UNINIT and in READY. -/
def Obligations.InitCompletes : Prop :=
  ∀ s : State, s.cfg.wf = true → s.phase ≠ .failed → AllOk s (txs (replayEvents s.cfg)) →
    ∃ t, exec .init s = .next t ∧ t.trace = s.trace ++ initEvents s.cfg ∧ t.phase = .ready ∧
      t.ret = none ∧ t.pins.reset = some .high ∧ t.pins.backlight = some s.cfg.blOnLevel ∧
      t.panel = (replayEvents s.cfg).foldl (Panel.observe s.cfg) Panel.powerOn ∧
      t.scratch = s.scratch ∧ t.cfg = s.cfg ∧ t.fault = s.fault ∧ t.faultInfo = s.faultInfo ∧
      t.answers = s.answers.drop (txs (replayEvents s.cfg)) ∧
      t.txCount = s.txCount + txs (replayEvents s.cfg) ∧ t.inbox = s.inbox ∧ t.epoch = s.epoch

/-- R293: INIT's steps in their one order, each once; the backlight comes on only after the whole replay
succeeded, and where a transaction of the replay fails, everything up to it stands in the trace, nothing
after it, and the backlight pin is as before. -/
def Obligations.InitStepsInOrder : Prop :=
  ∀ s : State, s.cfg.wf = true → s.phase ≠ .failed →
    (AllOk s (txs (replayEvents s.cfg)) →
      ∃ t, exec .init s = .next t ∧
        t.trace = s.trace ++ [.pin .reset .low] ++ [.delay s.cfg.resetDelayMs] ++ [.pin .reset .high]
          ++ [.delay s.cfg.resetDelayMs] ++ replayEvents s.cfg ++ [.pin .backlight s.cfg.blOnLevel]) ∧
    (∀ n d, FailsAfter s n d → n < txs (replayEvents s.cfg) →
      ∃ t, exec .init s = .next t ∧
        t.trace = s.trace ++ [.pin .reset .low] ++ [.delay s.cfg.resetDelayMs] ++ [.pin .reset .high]
          ++ [.delay s.cfg.resetDelayMs] ++ cutAt n (replayEvents s.cfg) ∧
        t.pins.reset = some .high ∧ t.pins.backlight = s.pins.backlight ∧ t.phase = .failed)

/-- R142: successful replays, and successful INITs, emit the same events whenever the table, the two delays
and the backlight level are the same, whatever else differs. -/
def Obligations.InitReplayIsDeterministic : Prop :=
  ∀ s s' t t' : State, s.cfg.initTable = s'.cfg.initTable → s.cfg.initDelayMs = s'.cfg.initDelayMs →
    s.cfg.resetDelayMs = s'.cfg.resetDelayMs → s.cfg.blOnLevel = s'.cfg.blOnLevel →
    t.phase ≠ .failed → t'.phase ≠ .failed →
    ((exec .init s = .next t → exec .init s' = .next t' →
      ∃ evs, t.trace = s.trace ++ evs ∧ t'.trace = s'.trace ++ evs) ∧
     (exec .runInitSequence s = .next t → exec .runInitSequence s' = .next t' →
      ∃ evs, t.trace = s.trace ++ evs ∧ t'.trace = s'.trace ++ evs))

/-- R302: a successful INIT holds delays of `2 * RESET_DELAY_MS + INIT_DELAY_MS * F` milliseconds, where `F` is the
number of non-sentinel records whose count has bit 7 set. -/
def Obligations.InitTakesItsDelays : Prop :=
  ∀ s t : State, exec .init s = .next t → t.phase ≠ .failed →
    ∃ evs, t.trace = s.trace ++ evs ∧
      delayTotal evs = 2 * s.cfg.resetDelayMs + s.cfg.initDelayMs *
        (s.cfg.initTable.filter fun r => decide (r.count ≠ 0xFF#8) && r.count.getLsbD 7).length

/-! ### The gate -/

/-- R264, R270 (decision D20): in FAILED no request and no micro-operation has a step (log 17). -/
def Obligations.FailedBlockIsStuck : Prop :=
  ∀ (i : Instr) (s : State), s.cfg.wf = true → s.phase = .failed → isWire i = false →
    (∀ sel, i ≠ .reserved sel) → exec i s = .fault .stuckFailed

/-- R265, R263, R264 (decision D19; log 16): a drawing request in UNINIT raises NotReady with its selector, before
any of its own checks, and changes nothing else. -/
def Obligations.DrawingBeforeInitRaisesNotReady : Prop :=
  ∀ (i : Instr) (s : State), isDrawing i = true → s.cfg.wf = true → s.phase = .uninit →
    s.fault = none →
    exec i s = .next { s with
      fault := some .notReady, faultInfo := some (.selector (selectorOf i)), phase := .failed,
      ret := none }

/-! ### Staging -/

/-- R171 (decision D23): FILL_SCREEN stages the whole scratch buffer, selects the whole glass and streams it. -/
def Obligations.FillScreenCompletes : Prop :=
  ∀ (color : Word16) (s : State), s.cfg.wf = true → s.phase = .ready → AllOk s 6 →
    ∃ t, exec (.fillScreen color) s = .next t ∧
      Performed s t (windowEvents s.cfg 0 0 (s.cfg.width - 1) (s.cfg.height - 1)
        ++ [.tx .data (pixelBytes (s.cfg.width * s.cfg.height) color) .ok]) ∧
      Staged s t (s.cfg.width * s.cfg.height) color ∧ t.ret = none

/-- R174, R175 (decision D10, D11): FILL_RECT of a rectangle that starts on-panel and is not empty is shrunk to
`min(w, WIDTH - x)` by `min(h, HEIGHT - y)`, staged, selected and streamed. -/
def Obligations.FillRectCompletes : Prop :=
  ∀ (x y w h color : Word16) (s : State), s.cfg.wf = true → s.phase = .ready → AllOk s 6 →
    onPanel s.cfg x.toInt y.toInt = true → w ≠ 0 → h ≠ 0 →
    ∃ t, exec (.fillRect x y w h color) s = .next t ∧
      Performed s t
        (windowEvents s.cfg x.toInt y.toInt
          (x.toInt + min w.toNat (s.cfg.width - x.toNat) - 1)
          (y.toInt + min h.toNat (s.cfg.height - y.toNat) - 1)
        ++ [.tx .data (pixelBytes
          (min w.toNat (s.cfg.width - x.toNat) * min h.toNat (s.cfg.height - y.toNat)) color) .ok]) ∧
      Staged s t (min w.toNat (s.cfg.width - x.toNat) * min h.toNat (s.cfg.height - y.toNat)) color ∧
      t.ret = none

/-- R173 to R175, R266 (decisions D10, D11): FILL_RECT of a rectangle that starts off-panel, or is empty, does
nothing but clear `ret`, whatever the transport would answer. -/
def Obligations.FillRectOffPanelIsNoOp : Prop :=
  ∀ (x y w h color : Word16) (s : State), s.cfg.wf = true → s.phase = .ready →
    (onPanel s.cfg x.toInt y.toInt = false ∨ w = 0 ∨ h = 0) →
    exec (.fillRect x y w h color) s = .next { s with ret := none }

/-- R177 (decision D12): DRAW_PIXEL on-panel writes one pixel, off-panel nothing. -/
def Obligations.DrawPixelCompletes : Prop :=
  ∀ (x y color : Word16) (s : State), s.cfg.wf = true → s.phase = .ready →
    (onPanel s.cfg x.toInt y.toInt = true → AllOk s 6 →
      ∃ t, exec (.drawPixel x y color) s = .next t ∧
        Performed s t (windowEvents s.cfg x.toInt y.toInt x.toInt y.toInt
          ++ [.tx .data [loByte color, hiByte color] .ok]) ∧
        Staged s t 1 color ∧ t.ret = none) ∧
    (onPanel s.cfg x.toInt y.toInt = false →
      exec (.drawPixel x y color) s = .next { s with ret := none })

/-- R178: DRAW_PIXEL and FILL_RECT of size 1 by 1 have the same outcome in every state and under every transport;
only the selector that NotReady records differs. -/
def Obligations.DrawPixelIsUnitFillRect : Prop :=
  ∀ (x y color : Word16) (s : State),
    SameUpTo (fun t => { t with faultInfo := none }) (exec (.drawPixel x y color) s)
      (exec (.fillRect x y 1 1 color) s) ∧
    (s.phase ≠ .uninit → exec (.drawPixel x y color) s = exec (.fillRect x y 1 1 color) s)

/-- R176: whatever the operands, the clipped rectangle is inside the glass, or there is none. -/
def Obligations.ClippedRectangleIsContained : Prop :=
  ∀ (cfg : Config) (x y : Int) (w h : Nat),
    clip cfg x y w h = none ∨
    ∃ r, clip cfg x y w h = some r ∧ r.x = x ∧ r.y = y ∧ 0 ≤ r.x ∧ 1 ≤ r.w ∧
      r.x + r.w - 1 < cfg.width ∧ 0 ≤ r.y ∧ 1 ≤ r.h ∧ r.y + r.h - 1 < cfg.height

/-- R61: pixel `k` of a staging occupies `scratch[2k] = color[7:0]` and `scratch[2k+1] = color[15:8]`; decoding
the two bytes gives the colour back (R64), and the bytes beyond the staged pixels keep their values (R68, R170). -/
def Obligations.StagedPixelsAreLowByteFirst : Prop :=
  ∀ (s : State) (n : Nat) (color : Word16),
    (∀ k, k < n → ∃ b0 b1,
      Store.read (s.stage n color).scratch (2 * k) = some b0 ∧
      Store.read (s.stage n color).scratch (2 * k + 1) = some b1 ∧
      b0.toNat = color.toNat % 256 ∧ b1.toNat = color.toNat / 256 ∧ joinBytes b1 b0 = color) ∧
    (∀ off, 2 * n ≤ off → Store.read (s.stage n color).scratch off = Store.read s.scratch off)

/-! ### The glass -/

/-- R175, R241, R246 under PANEL_MODE_OK (decisions D24, D25, D27): FILL_RECT shows the colour's byte swap on
exactly the clipped region. -/
def Obligations.FillRectShowsOnTheGlass : Prop :=
  ∀ (x y w h color : Word16) (s : State), s.cfg.wf = true → s.phase = .ready →
    s.cfg.panelModeOk = true → AllOk s 6 →
    ∃ t, exec (.fillRect x y w h color) s = .next t ∧ ∀ gx gy : Nat,
      glass t gx gy = if covers s.cfg x.toInt y.toInt w.toNat h.toNat gx gy then some (shown color)
        else glass s gx gy

/-- R171, R241, R246 under PANEL_MODE_OK (decisions D24, D25, D27). -/
def Obligations.FillScreenShowsOnTheGlass : Prop :=
  ∀ (color : Word16) (s : State), s.cfg.wf = true → s.phase = .ready → s.cfg.panelModeOk = true →
    AllOk s 6 →
    ∃ t, exec (.fillScreen color) s = .next t ∧ ∀ gx gy : Nat, gx < s.cfg.width →
      gy < s.cfg.height → glass t gx gy = some (joinBytes (loByte color) (hiByte color))

/-- R177, R241, R246 under PANEL_MODE_OK (decisions D24, D25, D27): exactly one pixel changes, or none. -/
def Obligations.DrawPixelShowsOnTheGlass : Prop :=
  ∀ (x y color : Word16) (s : State), s.cfg.wf = true → s.phase = .ready →
    s.cfg.panelModeOk = true → AllOk s 6 →
    ∃ t, exec (.drawPixel x y color) s = .next t ∧ ∀ gx gy : Nat,
      glass t gx gy = if onPanel s.cfg x.toInt y.toInt ∧ (gx : Int) = x.toInt ∧ (gy : Int) = y.toInt
        then some (shown color) else glass s gx gy

/-- R179, under PANEL_MODE_OK (decisions D24, D25, D27): after two fills of one rectangle the region shows only the
second colour, and no other pixel has changed. -/
def Obligations.LastWriteWins : Prop :=
  ∀ (x y w h c1 c2 : Word16) (s : State), s.cfg.wf = true → s.phase = .ready →
    s.cfg.panelModeOk = true → AllOk s 12 →
    ∃ t u, exec (.fillRect x y w h c1) s = .next t ∧ exec (.fillRect x y w h c2) t = .next u ∧
      ∀ gx gy : Nat,
        (covers s.cfg x.toInt y.toInt w.toNat h.toNat gx gy = true → glass u gx gy = some (shown c2)) ∧
        (covers s.cfg x.toInt y.toInt w.toNat h.toNat gx gy = false → glass u gx gy = glass s gx gy)

/-- R180, R299, R231 (decision D25): a successful drawing request fills its last window exactly, leaves no half
pixel, makes no known cell unknown, and writes no cell outside the glass plus the offsets. -/
def Obligations.DrawingStreamsExactlyTheWindow : Prop :=
  ∀ (i : Instr) (s : State), isDrawing i = true → s.cfg.wf = true → s.phase = .ready →
    AllOk s (txs (expectedEvents s.cfg i)) →
    ∃ t, exec i s = .next t ∧
      (t.panel = s.panel ∨
        (t.panel.rx = .memWrite ∧ t.panel.half = none ∧ t.panel.left = some 0)) ∧
      (∀ c r : Word16, (s.panel.cell c r).isSome = true → (t.panel.cell c r).isSome = true) ∧
      (∀ c r : Word16,
        ¬ (s.cfg.offsetX ≤ c.toNat ∧ c.toNat < s.cfg.offsetX + s.cfg.width ∧
          s.cfg.offsetY ≤ r.toNat ∧ r.toNat < s.cfg.offsetY + s.cfg.height) →
        t.panel.cell c r = s.panel.cell c r)

/-! ### Glyphs -/

/-- R200 to R203 (decisions D13, D14, D18): DRAW_CHAR paints its cells in the order (0,0), (0,1), ... (4,7), column
by column. A code from N_GLYPHS on has the blank glyph; any other has the five bytes FONT gives it, byte `i` for
column `i`, bit 0 the top row. A glyph off the panel is a no-op whatever the transport would answer. -/
def Obligations.DrawCharCompletes : Prop :=
  ∀ (x y : Word16) (ch : Byte) (fg bg : Word16) (size : Byte) (s : State),
    s.cfg.wf = true → s.phase = .ready →
    (AllOk s (txs (charEvents s.cfg x.toInt y.toInt ch fg bg size.toNat)) →
      ∃ t, exec (.drawChar x y ch fg bg size) s = .next t ∧
        Performed s t (charEvents s.cfg x.toInt y.toInt ch fg bg size.toNat) ∧ t.ret = none) ∧
    (glyphCells s.cfg).length = 40 ∧
    (∀ k, k < 40 → (glyphCells s.cfg)[k]? = some (k / 8, k % 8)) ∧
    (s.cfg.nGlyphs ≤ ch.toNat → ∀ i j, glyphBit (glyphOf s.cfg ch) i j = false) ∧
    (ch.toNat < s.cfg.nGlyphs → ∃ g, s.cfg.font[ch.toNat]? = some g ∧ g.length = 5 ∧
      ∀ i, i < 5 → ∃ b, g[i]? = some b ∧
        ∀ j, j < 8 → glyphBit (glyphOf s.cfg ch) i j = b.getLsbD j) ∧
    ((x.toInt ≥ s.cfg.width ∨ y.toInt ≥ s.cfg.height ∨ x.toInt + 5 * size.toNat - 1 < 0 ∨
        y.toInt + 8 * size.toNat - 1 < 0) →
      exec (.drawChar x y ch fg bg size) s = .next { s with ret := none })

/-- R204: DRAW_CHAR makes 40 paint calls when `fg` and `bg` differ and one for each set bit when they are equal,
strictly fewer when a bit is clear; for a glyph wholly on the panel each call is six transactions. (Which bits are
set, DrawCharCompletes says.) -/
def Obligations.TransparentBackgroundPaintsTheSetBits : Prop :=
  ∀ (x y : Word16) (ch : Byte) (fg bg : Word16) (size : Byte) (s : State),
    s.cfg.wf = true → s.phase = .ready →
    (paintCalls s.cfg ch fg bg).length =
      (if fg = bg then ((glyphCells s.cfg).filter fun c =>
        glyphBit (glyphOf s.cfg ch) c.1 c.2).length else 40) ∧
    ((∃ i j, i < 5 ∧ j < 8 ∧ glyphBit (glyphOf s.cfg ch) i j = false) → fg = bg →
      (paintCalls s.cfg ch fg bg).length < 40) ∧
    (0 ≤ x.toInt → 0 ≤ y.toInt → x.toInt + 5 * size.toNat ≤ s.cfg.width →
      y.toInt + 8 * size.toNat ≤ s.cfg.height → size ≠ 0 →
      AllOk s (6 * (paintCalls s.cfg ch fg bg).length) →
      ∃ t evs, exec (.drawChar x y ch fg bg size) s = .next t ∧ t.trace = s.trace ++ evs ∧
        txs evs = 6 * (paintCalls s.cfg ch fg bg).length)

/-- R205 (decision D35): size 0 is legal, emits nothing and writes nothing. -/
def Obligations.SizeZeroEmitsNothing : Prop :=
  ∀ (x y : Word16) (ch : Byte) (fg bg : Word16) (col row : Byte) (text : List Byte) (s : State),
    s.cfg.wf = true → s.phase = .ready →
    exec (.drawChar x y ch fg bg 0) s = .next { s with ret := none } ∧
    (row.toNat ≤ 15 → col.toNat ≤ 20 →
      exec (.drawString col row text fg bg 0) s = .next { s with ret := some (cText text).length })

/-- R203, R241, R246 under PANEL_MODE_OK (decisions D14, D18, D24, D25, D27): what DRAW_CHAR of size 1 or more
shows. A cell whose start is on-panel shows `fg` where its bit is set, `bg` where it is clear and the two
differ, and what was there before where they are equal; no other glass pixel changes. (Which bits are set,
DrawCharCompletes says.) -/
def Obligations.DrawCharShowsTheGlyph : Prop :=
  ∀ (x y : Word16) (ch : Byte) (fg bg : Word16) (size : Byte) (s : State),
    s.cfg.wf = true → s.phase = .ready → s.cfg.panelModeOk = true → size ≠ 0 →
    AllOk s (txs (charEvents s.cfg x.toInt y.toInt ch fg bg size.toNat)) →
    ∃ t, exec (.drawChar x y ch fg bg size) s = .next t ∧ ∀ gx gy : Nat,
      (∀ i j : Nat, i < 5 → j < 8 →
        covers s.cfg (x.toInt + i * size.toNat) (y.toInt + j * size.toNat) size.toNat size.toNat
          gx gy = true →
        glass t gx gy = if glyphBit (glyphOf s.cfg ch) i j then some (shown fg)
          else if fg = bg then glass s gx gy else some (shown bg)) ∧
      ((∀ i j : Nat, i < 5 → j < 8 →
        covers s.cfg (x.toInt + i * size.toNat) (y.toInt + j * size.toNat) size.toNat size.toNat
          gx gy = false) →
        glass t gx gy = glass s gx gy)

/-- R206, R207 (decisions D15, D16, D17): DRAW_STRING draws the rendered characters on the fixed grid and
returns their number. -/
def Obligations.DrawStringCompletes : Prop :=
  ∀ (col row : Byte) (text : List Byte) (fg bg : Word16) (size : Byte) (s : State),
    s.cfg.wf = true → s.phase = .ready →
    AllOk s (txs (stringEvents s.cfg col.toNat row.toNat text fg bg size.toNat)) →
    ∃ t, exec (.drawString col row text fg bg size) s = .next t ∧
      Performed s t (stringEvents s.cfg col.toNat row.toNat text fg bg size.toNat) ∧
      t.ret = some (renderedCount (cText text).length col.toNat row.toNat size.toNat)

/-- R208, and R207's decision D15 for a start past column 20. -/
def Obligations.DrawStringReturnLaws : Prop :=
  ∀ (col row : Byte) (text : List Byte) (fg bg : Word16) (size : Byte) (s : State),
    s.cfg.wf = true → s.phase = .ready →
    (15 < row.toNat → exec (.drawString col row text fg bg size) s = .next { s with ret := some 0 }) ∧
    (∀ t, exec (.drawString col row text fg bg size) s = .next t → t.phase ≠ .failed →
      row.toNat ≤ 15 → size ≠ 0 →
      (col.toNat ≤ 20 →
        t.ret = some (min (cText text).length ((20 - col.toNat) / size.toNat + 1))) ∧
      (20 < col.toNat → t.ret = some (min (cText text).length 1)) ∧
      (col = 19 → size = 1 → (cText text).length = 3 → t.ret = some 2))

/-! ### Faults -/

/-- R264, R263, R260, R245 (decisions D19, D20, D37; log 2): whichever transaction of a request or micro-operation
fails, the trace holds every event up to it and none after it, TransportError is recorded with its info and no
result is returned. Scratch holds the stagings made up to then (one before every six transactions of a drawing
request) and nothing else new; the pins are as before, but for INIT, which has pulsed the reset line. In the
receiver the window registers and the pointer are unknown, and so is every cell of the window that was current, or
every cell where that window was unknown. That the pixel count is unknown too is the model's (log 2). -/
def Obligations.TransportErrorStopsTheRequest : Prop :=
  ∀ (i : Instr) (s : State) (n d : Nat), Admitted i s → s.fault = none → FailsAfter s n d →
    n < txs (expectedEvents s.cfg i) →
    ∃ t evs mode bs, exec i s = .next t ∧
      cutAt n (expectedEvents s.cfg i) = evs ++ [.tx mode bs .err] ∧
      t.trace = s.trace ++ evs ++ [.tx mode bs .err] ∧
      t.phase = .failed ∧ t.fault = some .transportError ∧ t.faultInfo = some (infoOf mode bs) ∧
      t.ret = none ∧
      t.scratch = (s.stageAll ((stagings s.cfg i).take (n / 6 + 1))).scratch ∧
      (∀ off, ¬ storesTo s.cfg i off → Store.read t.scratch off = Store.read s.scratch off) ∧
      (i ≠ .init → t.pins = s.pins) ∧
      (i = .init → t.pins = { reset := some .high, backlight := s.pins.backlight }) ∧
      t.panel.xs = none ∧ t.panel.xe = none ∧ t.panel.ys = none ∧ t.panel.ye = none ∧
      t.panel.ptr = none ∧ t.panel.left = none ∧
      (Gram.wf s.panel.gram → ∀ q, q = evs.foldl (Panel.observe s.cfg) s.panel →
        (∀ xs xe ys ye c r : Word16, q.xs = some xs → q.xe = some xe → q.ys = some ys →
          q.ye = some ye → xs ≤ c → c ≤ xe → ys ≤ r → r ≤ ye → t.panel.cell c r = none) ∧
        ((q.xs = none ∨ q.xe = none ∨ q.ys = none ∨ q.ye = none) →
          ∀ c r : Word16, t.panel.cell c r = none)) ∧
      t.answers = s.answers.drop (n + 1) ∧ t.txCount = s.txCount + n + 1 ∧ t.cfg = s.cfg ∧
      t.inbox = s.inbox ∧ t.epoch = s.epoch

/-- R245 (decisions D37, D38; log 2): a failed transaction, whatever it delivered, leaves the window registers and
the pointer unknown, and every cell of the window that was current; where the window was unknown, every cell. -/
def Obligations.FailedTransactionForgetsTheWindow : Prop :=
  ∀ (i : Instr) (s : State) (d : Nat), s.cfg.wf = true → s.phase ≠ .failed →
    Gram.wf s.panel.gram → s.answer 0 = .err d →
    ((∃ op, i = .sendCommand op) ∨ ∃ b bs, i = .sendParameters (b :: bs)) →
    ∃ t, exec i s = .next t ∧ t.panel.xs = none ∧ t.panel.xe = none ∧ t.panel.ys = none ∧
      t.panel.ye = none ∧ t.panel.ptr = none ∧ t.panel.left = none ∧
      (∀ xs xe ys ye c r : Word16, s.panel.xs = some xs → s.panel.xe = some xe →
        s.panel.ys = some ys → s.panel.ye = some ye → xs ≤ c → c ≤ xe → ys ≤ r → r ≤ ye →
        t.panel.cell c r = none) ∧
      ((s.panel.xs = none ∨ s.panel.xe = none ∨ s.panel.ys = none ∨ s.panel.ye = none) →
        ∀ c r : Word16, t.panel.cell c r = none)

/-! ### The receiver -/

/-- R235 (decision D26 for short and overlong lists): CASET sets the columns by its first four bytes and ignores
further ones; with fewer, the next command, whatever it is, leaves the columns unknown. -/
def Obligations.CasetSetsTheColumns : Prop :=
  ∀ s : State, s.cfg.wf = true →
    (∀ b0 b1 b2 b3 extra, ∃ t, exec (.caset (b0 :: b1 :: b2 :: b3 :: extra)) s = .next t ∧
      t = s.setPanel t.panel ∧ t.panel.xs = some (joinBytes b0 b1) ∧
      t.panel.xe = some (joinBytes b2 b3) ∧ t.panel.rx = .idle ∧ t.panel.half = none ∧
      t.panel.ptr = s.panel.ptr ∧ t.panel.left = s.panel.left ∧ t.panel.gram = s.panel.gram ∧
      ((∀ buf, s.panel.rx ≠ .param .row buf) →
        t.panel.ys = s.panel.ys ∧ t.panel.ye = s.panel.ye)) ∧
    (∀ data, data.length < 4 → ∃ t, exec (.caset data) s = .next t ∧
      t.panel.rx = .param .column data ∧ t.panel.gram = s.panel.gram ∧
      ∀ op, (t.panel.receive s.cfg .command [op]).xs = none ∧
        (t.panel.receive s.cfg .command [op]).xe = none)

/-- R236: RASET is the same as CASET with YS and YE in place of XS and XE (R235's decision D26). -/
def Obligations.RasetSetsTheRows : Prop :=
  ∀ s : State, s.cfg.wf = true →
    (∀ b0 b1 b2 b3 extra, ∃ t, exec (.raset (b0 :: b1 :: b2 :: b3 :: extra)) s = .next t ∧
      t = s.setPanel t.panel ∧ t.panel.ys = some (joinBytes b0 b1) ∧
      t.panel.ye = some (joinBytes b2 b3) ∧ t.panel.rx = .idle ∧ t.panel.half = none ∧
      t.panel.ptr = s.panel.ptr ∧ t.panel.left = s.panel.left ∧ t.panel.gram = s.panel.gram ∧
      ((∀ buf, s.panel.rx ≠ .param .column buf) →
        t.panel.xs = s.panel.xs ∧ t.panel.xe = s.panel.xe)) ∧
    (∀ data, data.length < 4 → ∃ t, exec (.raset data) s = .next t ∧
      t.panel.rx = .param .row data ∧ t.panel.gram = s.panel.gram ∧
      ∀ op, (t.panel.receive s.cfg .command [op]).ys = none ∧
        (t.panel.receive s.cfg .command [op]).ye = none)

/-- R239: a pixel inside the window is written at the pointer, counted, and the pointer goes on row-major. (The
row address is 16 bits wide, R230; past its last value log 20 applies.) -/
def Obligations.PixelWriteAdvancesThePointer : Prop :=
  ∀ (p : Panel) (v cx cy xs xe : Word16) (n : Nat), p.ptr = some (cx, cy) → p.left = some (n + 1) →
    p.xs = some xs → p.xe = some xe → cy.toNat < 65535 →
    (p.writePixel v).cell cx cy = some v ∧
    (∀ c r : Word16, c ≠ cx ∨ r ≠ cy → (p.writePixel v).cell c r = p.cell c r) ∧
    (p.writePixel v).left = some n ∧
    (∃ cx' cy', (p.writePixel v).ptr = some (cx', cy') ∧
      (cx.toNat + 1 ≤ xe.toNat → cx'.toNat = cx.toNat + 1 ∧ cy' = cy) ∧
      (xe.toNat < cx.toNat + 1 → cx' = xs ∧ cy'.toNat = cy.toNat + 1)) ∧
    (p.writePixel v).xs = p.xs ∧ (p.writePixel v).xe = p.xe ∧ (p.writePixel v).ys = p.ys ∧
    (p.writePixel v).ye = p.ye ∧ (p.writePixel v).rx = p.rx ∧ (p.writePixel v).half = p.half

/-- R237 to R239, R246 (decisions D24, D25): RAMWR and `n` pixels, not more than the window holds, fill the window
row-major from its origin, and nothing else. -/
def Obligations.RamwrWritesTheWindow : Prop :=
  ∀ (s : State) (xs xe ys ye : Word16) (pixels : List Word16), s.cfg.wf = true →
    (∀ reg buf, s.panel.rx ≠ .param reg buf) → s.panel.xs = some xs → s.panel.xe = some xe →
    s.panel.ys = some ys → s.panel.ye = some ye → xs ≤ xe → ys ≤ ye →
    pixels.length ≤ (xe.toNat - xs.toNat + 1) * (ye.toNat - ys.toNat + 1) →
    ∃ t, exec (.ramwr (pixels.flatMap fun v => [hiByte v, loByte v])) s = .next t ∧
      t = s.setPanel t.panel ∧ t.panel.rx = .memWrite ∧ t.panel.half = none ∧
      t.panel.left = some ((xe.toNat - xs.toNat + 1) * (ye.toNat - ys.toNat + 1) - pixels.length) ∧
      ∀ c r : Word16, t.panel.cell c r =
        if xs ≤ c ∧ c ≤ xe ∧ ys ≤ r ∧
          (r.toNat - ys.toNat) * (xe.toNat - xs.toNat + 1) + (c.toNat - xs.toNat) < pixels.length
        then pixels[(r.toNat - ys.toNat) * (xe.toNat - xs.toNat + 1) + (c.toNat - xs.toNat)]?
        else s.panel.cell c r

/-- R240 (decision D25; log 13 for an inverted window): a pixel past the window's end makes every cell of the
window unknown and no other; a pixel in an unknown or inverted window makes every cell unknown. -/
def Obligations.RamwrOutsideTheWindowForgets : Prop :=
  ∀ s : State, s.cfg.wf = true → Gram.wf s.panel.gram → (∀ reg buf, s.panel.rx ≠ .param reg buf) →
    (∀ hi lo, (s.panel.xs = none ∨ s.panel.xe = none ∨ s.panel.ys = none ∨ s.panel.ye = none ∨
        ∃ xs xe ys ye, s.panel.xs = some xs ∧ s.panel.xe = some xe ∧ s.panel.ys = some ys ∧
          s.panel.ye = some ye ∧ (xe < xs ∨ ye < ys)) →
      ∃ t, exec (.ramwr [hi, lo]) s = .next t ∧ ∀ c r : Word16, t.panel.cell c r = none) ∧
    (∀ (xs xe ys ye v : Word16) (pixels : List Word16), s.panel.xs = some xs → s.panel.xe = some xe →
      s.panel.ys = some ys → s.panel.ye = some ye → xs ≤ xe → ys ≤ ye →
      pixels.length = (xe.toNat - xs.toNat + 1) * (ye.toNat - ys.toNat + 1) →
      ∃ t, exec (.ramwr ((pixels ++ [v]).flatMap fun v => [hiByte v, loByte v])) s = .next t ∧
        (∀ c r : Word16, xs ≤ c → c ≤ xe → ys ≤ r → r ≤ ye → t.panel.cell c r = none) ∧
        (∀ c r : Word16, ¬ (xs ≤ c ∧ c ≤ xe ∧ ys ≤ r ∧ r ≤ ye) →
          t.panel.cell c r = s.panel.cell c r))

/-- R232, R234 (log 15): a wire command with any data bytes, in every phase of the block, has a next state, which
differs in the receiver only. -/
def Obligations.WireCommandsTouchTheReceiverOnly : Prop :=
  ∀ (data : List Byte) (s : State), s.cfg.wf = true →
    (∃ p, exec (.caset data) s = .next (s.setPanel p)) ∧
    (∃ p, exec (.raset data) s = .next (s.setPanel p)) ∧
    (∃ p, exec (.ramwr data) s = .next (s.setPanel p))

/-! ### Frames and the whole machine -/

/-- What no instruction changes (R20 to R30, R67, R68, R73): the configuration and the pending inputs; the pins,
but for INIT; every scratch byte outside the request's stagings, whose offsets are computed; `fault`, unless one
is raised; `ret` by a micro-operation; the receiver, by an instruction that emits nothing. -/
def Obligations.ExecFrame : Prop :=
  ∀ (i : Instr) (s t : State), exec i s = .next t →
    t.cfg = s.cfg ∧ t.inbox = s.inbox ∧ t.epoch = s.epoch ∧
    (∃ evs, t.trace = s.trace ++ evs ∧ t.answers = s.answers.drop (txs evs) ∧
      t.txCount = s.txCount + txs evs) ∧
    (i ≠ .init → t.pins = s.pins) ∧
    (∀ off, ¬ storesTo s.cfg i off → Store.read t.scratch off = Store.read s.scratch off) ∧
    (t.phase ≠ .failed → t.fault = s.fault ∧ t.faultInfo = s.faultInfo) ∧
    (t.phase ≠ .failed → portOf i = .micro → t.ret = s.ret ∧ t.phase = s.phase) ∧
    (isWire i = true → t = s.setPanel t.panel) ∧
    (isWire i = false → t.trace = s.trace → t.panel = s.panel)

/-- R22, R28, R91, R92, R264, R60 and the canonical forms, in every state that meets them, not only in runs from
reset (`State.Inv` says the clauses one by one). -/
def Obligations.StepKeepsTheInvariant : Prop :=
  ∀ s t : State, s.Inv → step s = .next t → t.Inv

/-- The reset state meets the invariant. -/
def Obligations.ResetMeetsTheInvariant : Prop := State.reset.Inv

/-- R31, R233 (decisions D19, D22, D25, D33): the values the spec gives for reset. That the reset state holds the
reference configuration with R6's values, and that this is well-formed (a table and a font that R6 leaves OPEN), is
the model's choice (log 7): R31 gives only 'the configured values'. -/
def Obligations.ResetState : Prop :=
  State.reset.phase = .uninit ∧ State.reset.fault = none ∧
  (∀ off, Store.read State.reset.scratch off = none) ∧ State.reset.pins.reset = none ∧
  State.reset.pins.backlight = none ∧ State.reset.trace = [] ∧ State.reset.ret = none ∧
  State.reset.panel.rx = .idle ∧ State.reset.panel.xs = none ∧ State.reset.panel.xe = none ∧
  State.reset.panel.ys = none ∧ State.reset.panel.ye = none ∧ State.reset.panel.ptr = none ∧
  State.reset.panel.left = none ∧ State.reset.panel.half = none ∧
  (∀ c r, State.reset.panel.cell c r = none) ∧ State.reset.cfg.wf = true ∧
  State.reset.cfg.width = 128 ∧ State.reset.cfg.height = 160 ∧ State.reset.cfg.scratchBytes = 40960 ∧
  State.reset.cfg.offsetX = 2 ∧ State.reset.cfg.offsetY = 1 ∧ State.reset.cfg.resetDelayMs = 500 ∧
  State.reset.cfg.initDelayMs = 100

/-- R28: the trace is empty at reset and append-only, no transaction in it is empty, and no rule reads it: with
any other trace in the state, the same events are appended and everything else is the same. -/
def Obligations.TraceIsAppendOnlyAndUnread : Prop :=
  State.reset.trace = [] ∧
  ∀ (i : Instr) (s : State) (tr : List Event),
    (∀ t, exec i s = .next t → ∃ evs, t.trace = s.trace ++ evs ∧
      (∀ mode bs r, Event.tx mode bs r ∈ evs → bs ≠ []) ∧
      exec i { s with trace := tr } = .next { t with trace := tr ++ evs }) ∧
    (∀ f, exec i s = .fault f → exec i { s with trace := tr } = .fault f) ∧
    (∀ r, exec i s = .refused r → exec i { s with trace := tr } = .refused r)

/-- R132: SEND_COMMAND transmits only in command mode, SEND_PARAMETERS only in data mode, and every transaction
any instruction adds to the trace is one command byte or a run of data bytes. -/
def Obligations.DcDiscipline : Prop :=
  ∀ (i : Instr) (s t : State), exec i s = .next t → ∃ evs, t.trace = s.trace ++ evs ∧
    (∀ mode bs r, Event.tx mode bs r ∈ evs →
      (mode = .command ∧ ∃ op, bs = [op]) ∨ (mode = .data ∧ bs ≠ [])) ∧
    (∀ op, i = .sendCommand op → ∃ r, evs = [.tx .command [op] r]) ∧
    (∀ bs, i = .sendParameters bs → bs ≠ [] → ∃ r, evs = [.tx .data bs r])

/-- R21, R290 (decision D19): the only ways the phase changes. The block reset is the oldest input or, in FAILED,
stands behind requests that have no step (log 8). -/
def Obligations.PhaseChangesOnlyAsSpecified : Prop :=
  ∀ s t : State, step s = .next t →
    t.phase = s.phase ∨
    (t.phase = .ready ∧ ∃ f rest, s.inbox = .frame f :: rest ∧ decode s.cfg f = .ok .init) ∨
    (t.phase = .failed ∧ t.fault ≠ none ∧ s.phase ≠ .failed) ∨
    (t.phase = .uninit ∧ ∃ before c rest, s.inbox = before ++ .blockReset c :: rest ∧
      (before = [] ∨ s.phase = .failed ∧ ∀ x ∈ before, ∃ f, x = .frame f))

/-- R24, R73: no step but block reset changes the configuration, so no store changes what a later replay or
glyph lookup reads. (In FAILED a step may take a block reset behind the oldest input, log 8.) -/
def Obligations.ConfigurationIsFixedBetweenResets : Prop :=
  ∀ s t : State, step s = .next t → (∀ c rest, s.inbox ≠ .blockReset c :: rest) →
    (s.phase = .failed → ∀ c, .blockReset c ∉ s.inbox) →
    t.cfg = s.cfg ∧ t.cfg.initTable = s.cfg.initTable ∧ t.cfg.font = s.cfg.font

/-- R23 (decision D22): no rule transmits a scratch byte it has not written, so the content of scratch before a
step can be seen in nothing the step leaves, but for scratch itself. -/
def Obligations.ScratchIsNotObservable : Prop :=
  ∀ (s : State) (m : List Host.Cell),
    SameUpTo (fun t => t.setScratch []) (step s) (step (s.setScratch m))

/-- R232: the receiver takes no part in the block's faults and returns nothing: a step with any other receiver
differs in the receiver only. -/
def Obligations.ReceiverIsNotObservable : Prop :=
  ∀ (s : State) (p : Panel),
    SameUpTo (fun t => t.setPanel Panel.powerOn) (step s) (step (s.setPanel p))
end

