-- ==== Sys2Proof/Laws/State.lean ====
section
/-! SUPPORT. One lemma per field of State and per named update, so that no proof unfolds a record update. -/

namespace Sys2Proof.Machine.State

variable (s : State)

/-! ### `setRet` -/

@[simp] theorem setRet_cfg (v : Option Nat) : (s.setRet v).cfg = s.cfg := rfl
@[simp] theorem setRet_phase (v : Option Nat) : (s.setRet v).phase = s.phase := rfl
@[simp] theorem setRet_fault (v : Option Nat) : (s.setRet v).fault = s.fault := rfl
@[simp] theorem setRet_faultInfo (v : Option Nat) : (s.setRet v).faultInfo = s.faultInfo := rfl
@[simp] theorem setRet_scratch (v : Option Nat) : (s.setRet v).scratch = s.scratch := rfl
@[simp] theorem setRet_pins (v : Option Nat) : (s.setRet v).pins = s.pins := rfl
@[simp] theorem setRet_trace (v : Option Nat) : (s.setRet v).trace = s.trace := rfl
@[simp] theorem setRet_ret (v : Option Nat) : (s.setRet v).ret = v := rfl
@[simp] theorem setRet_panel (v : Option Nat) : (s.setRet v).panel = s.panel := rfl
@[simp] theorem setRet_inbox (v : Option Nat) : (s.setRet v).inbox = s.inbox := rfl
@[simp] theorem setRet_answers (v : Option Nat) : (s.setRet v).answers = s.answers := rfl
@[simp] theorem setRet_txCount (v : Option Nat) : (s.setRet v).txCount = s.txCount := rfl
@[simp] theorem setRet_epoch (v : Option Nat) : (s.setRet v).epoch = s.epoch := rfl

/-! ### `setReady` -/

@[simp] theorem setReady_cfg : s.setReady.cfg = s.cfg := rfl
@[simp] theorem setReady_phase : s.setReady.phase = .ready := rfl
@[simp] theorem setReady_fault : s.setReady.fault = s.fault := rfl
@[simp] theorem setReady_faultInfo : s.setReady.faultInfo = s.faultInfo := rfl
@[simp] theorem setReady_scratch : s.setReady.scratch = s.scratch := rfl
@[simp] theorem setReady_pins : s.setReady.pins = s.pins := rfl
@[simp] theorem setReady_trace : s.setReady.trace = s.trace := rfl
@[simp] theorem setReady_ret : s.setReady.ret = s.ret := rfl
@[simp] theorem setReady_panel : s.setReady.panel = s.panel := rfl
@[simp] theorem setReady_inbox : s.setReady.inbox = s.inbox := rfl
@[simp] theorem setReady_answers : s.setReady.answers = s.answers := rfl
@[simp] theorem setReady_txCount : s.setReady.txCount = s.txCount := rfl
@[simp] theorem setReady_epoch : s.setReady.epoch = s.epoch := rfl

/-! ### `emit` -/

@[simp] theorem emit_cfg (ev : Event) : (s.emit ev).cfg = s.cfg := rfl
@[simp] theorem emit_phase (ev : Event) : (s.emit ev).phase = s.phase := rfl
@[simp] theorem emit_fault (ev : Event) : (s.emit ev).fault = s.fault := rfl
@[simp] theorem emit_faultInfo (ev : Event) : (s.emit ev).faultInfo = s.faultInfo := rfl
@[simp] theorem emit_scratch (ev : Event) : (s.emit ev).scratch = s.scratch := rfl
@[simp] theorem emit_pins (ev : Event) : (s.emit ev).pins = s.pins := rfl
@[simp] theorem emit_trace (ev : Event) : (s.emit ev).trace = s.trace ++ [ev] := rfl
@[simp] theorem emit_ret (ev : Event) : (s.emit ev).ret = s.ret := rfl
@[simp] theorem emit_panel (ev : Event) : (s.emit ev).panel = s.panel := rfl
@[simp] theorem emit_inbox (ev : Event) : (s.emit ev).inbox = s.inbox := rfl
@[simp] theorem emit_answers (ev : Event) : (s.emit ev).answers = s.answers := rfl
@[simp] theorem emit_txCount (ev : Event) : (s.emit ev).txCount = s.txCount := rfl
@[simp] theorem emit_epoch (ev : Event) : (s.emit ev).epoch = s.epoch := rfl

/-! ### `setPanel` -/

@[simp] theorem setPanel_cfg (p : Panel) : (s.setPanel p).cfg = s.cfg := rfl
@[simp] theorem setPanel_phase (p : Panel) : (s.setPanel p).phase = s.phase := rfl
@[simp] theorem setPanel_fault (p : Panel) : (s.setPanel p).fault = s.fault := rfl
@[simp] theorem setPanel_faultInfo (p : Panel) : (s.setPanel p).faultInfo = s.faultInfo := rfl
@[simp] theorem setPanel_scratch (p : Panel) : (s.setPanel p).scratch = s.scratch := rfl
@[simp] theorem setPanel_pins (p : Panel) : (s.setPanel p).pins = s.pins := rfl
@[simp] theorem setPanel_trace (p : Panel) : (s.setPanel p).trace = s.trace := rfl
@[simp] theorem setPanel_ret (p : Panel) : (s.setPanel p).ret = s.ret := rfl
@[simp] theorem setPanel_panel (p : Panel) : (s.setPanel p).panel = p := rfl
@[simp] theorem setPanel_inbox (p : Panel) : (s.setPanel p).inbox = s.inbox := rfl
@[simp] theorem setPanel_answers (p : Panel) : (s.setPanel p).answers = s.answers := rfl
@[simp] theorem setPanel_txCount (p : Panel) : (s.setPanel p).txCount = s.txCount := rfl
@[simp] theorem setPanel_epoch (p : Panel) : (s.setPanel p).epoch = s.epoch := rfl

/-! ### `setScratch` -/

@[simp] theorem setScratch_cfg (m : List Host.Cell) : (s.setScratch m).cfg = s.cfg := rfl
@[simp] theorem setScratch_phase (m : List Host.Cell) : (s.setScratch m).phase = s.phase := rfl
@[simp] theorem setScratch_fault (m : List Host.Cell) : (s.setScratch m).fault = s.fault := rfl
@[simp] theorem setScratch_faultInfo (m : List Host.Cell) : (s.setScratch m).faultInfo = s.faultInfo := rfl
@[simp] theorem setScratch_scratch (m : List Host.Cell) : (s.setScratch m).scratch = m := rfl
@[simp] theorem setScratch_pins (m : List Host.Cell) : (s.setScratch m).pins = s.pins := rfl
@[simp] theorem setScratch_trace (m : List Host.Cell) : (s.setScratch m).trace = s.trace := rfl
@[simp] theorem setScratch_ret (m : List Host.Cell) : (s.setScratch m).ret = s.ret := rfl
@[simp] theorem setScratch_panel (m : List Host.Cell) : (s.setScratch m).panel = s.panel := rfl
@[simp] theorem setScratch_inbox (m : List Host.Cell) : (s.setScratch m).inbox = s.inbox := rfl
@[simp] theorem setScratch_answers (m : List Host.Cell) : (s.setScratch m).answers = s.answers := rfl
@[simp] theorem setScratch_txCount (m : List Host.Cell) : (s.setScratch m).txCount = s.txCount := rfl
@[simp] theorem setScratch_epoch (m : List Host.Cell) : (s.setScratch m).epoch = s.epoch := rfl

/-! ### `setPins` -/

@[simp] theorem setPins_cfg (p : Pins) : (s.setPins p).cfg = s.cfg := rfl
@[simp] theorem setPins_phase (p : Pins) : (s.setPins p).phase = s.phase := rfl
@[simp] theorem setPins_fault (p : Pins) : (s.setPins p).fault = s.fault := rfl
@[simp] theorem setPins_faultInfo (p : Pins) : (s.setPins p).faultInfo = s.faultInfo := rfl
@[simp] theorem setPins_scratch (p : Pins) : (s.setPins p).scratch = s.scratch := rfl
@[simp] theorem setPins_pins (p : Pins) : (s.setPins p).pins = p := rfl
@[simp] theorem setPins_trace (p : Pins) : (s.setPins p).trace = s.trace := rfl
@[simp] theorem setPins_ret (p : Pins) : (s.setPins p).ret = s.ret := rfl
@[simp] theorem setPins_panel (p : Pins) : (s.setPins p).panel = s.panel := rfl
@[simp] theorem setPins_inbox (p : Pins) : (s.setPins p).inbox = s.inbox := rfl
@[simp] theorem setPins_answers (p : Pins) : (s.setPins p).answers = s.answers := rfl
@[simp] theorem setPins_txCount (p : Pins) : (s.setPins p).txCount = s.txCount := rfl
@[simp] theorem setPins_epoch (p : Pins) : (s.setPins p).epoch = s.epoch := rfl

/-! ### `setInbox` -/

@[simp] theorem setInbox_cfg (q : List Input) : (s.setInbox q).cfg = s.cfg := rfl
@[simp] theorem setInbox_phase (q : List Input) : (s.setInbox q).phase = s.phase := rfl
@[simp] theorem setInbox_fault (q : List Input) : (s.setInbox q).fault = s.fault := rfl
@[simp] theorem setInbox_faultInfo (q : List Input) : (s.setInbox q).faultInfo = s.faultInfo := rfl
@[simp] theorem setInbox_scratch (q : List Input) : (s.setInbox q).scratch = s.scratch := rfl
@[simp] theorem setInbox_pins (q : List Input) : (s.setInbox q).pins = s.pins := rfl
@[simp] theorem setInbox_trace (q : List Input) : (s.setInbox q).trace = s.trace := rfl
@[simp] theorem setInbox_ret (q : List Input) : (s.setInbox q).ret = s.ret := rfl
@[simp] theorem setInbox_panel (q : List Input) : (s.setInbox q).panel = s.panel := rfl
@[simp] theorem setInbox_inbox (q : List Input) : (s.setInbox q).inbox = q := rfl
@[simp] theorem setInbox_answers (q : List Input) : (s.setInbox q).answers = s.answers := rfl
@[simp] theorem setInbox_txCount (q : List Input) : (s.setInbox q).txCount = s.txCount := rfl
@[simp] theorem setInbox_epoch (q : List Input) : (s.setInbox q).epoch = s.epoch := rfl

/-! ### `useAnswer` -/

@[simp] theorem useAnswer_cfg : s.useAnswer.cfg = s.cfg := rfl
@[simp] theorem useAnswer_phase : s.useAnswer.phase = s.phase := rfl
@[simp] theorem useAnswer_fault : s.useAnswer.fault = s.fault := rfl
@[simp] theorem useAnswer_faultInfo : s.useAnswer.faultInfo = s.faultInfo := rfl
@[simp] theorem useAnswer_scratch : s.useAnswer.scratch = s.scratch := rfl
@[simp] theorem useAnswer_pins : s.useAnswer.pins = s.pins := rfl
@[simp] theorem useAnswer_trace : s.useAnswer.trace = s.trace := rfl
@[simp] theorem useAnswer_ret : s.useAnswer.ret = s.ret := rfl
@[simp] theorem useAnswer_panel : s.useAnswer.panel = s.panel := rfl
@[simp] theorem useAnswer_inbox : s.useAnswer.inbox = s.inbox := rfl
@[simp] theorem useAnswer_answers : s.useAnswer.answers = s.answers.tail := rfl
@[simp] theorem useAnswer_txCount : s.useAnswer.txCount = s.txCount + 1 := rfl
@[simp] theorem useAnswer_epoch : s.useAnswer.epoch = s.epoch := rfl

/-! ### `raise` -/

@[simp] theorem raise_cfg (f : BlockFault) (info : FaultInfo) : (s.raise f info).cfg = s.cfg := rfl
@[simp] theorem raise_phase (f : BlockFault) (info : FaultInfo) : (s.raise f info).phase = .failed := rfl
@[simp] theorem raise_scratch (f : BlockFault) (info : FaultInfo) : (s.raise f info).scratch = s.scratch := rfl
@[simp] theorem raise_pins (f : BlockFault) (info : FaultInfo) : (s.raise f info).pins = s.pins := rfl
@[simp] theorem raise_trace (f : BlockFault) (info : FaultInfo) : (s.raise f info).trace = s.trace := rfl
@[simp] theorem raise_ret (f : BlockFault) (info : FaultInfo) : (s.raise f info).ret = none := rfl
@[simp] theorem raise_panel (f : BlockFault) (info : FaultInfo) : (s.raise f info).panel = s.panel := rfl
@[simp] theorem raise_inbox (f : BlockFault) (info : FaultInfo) : (s.raise f info).inbox = s.inbox := rfl
@[simp] theorem raise_answers (f : BlockFault) (info : FaultInfo) : (s.raise f info).answers = s.answers := rfl
@[simp] theorem raise_txCount (f : BlockFault) (info : FaultInfo) : (s.raise f info).txCount = s.txCount := rfl
@[simp] theorem raise_epoch (f : BlockFault) (info : FaultInfo) : (s.raise f info).epoch = s.epoch := rfl
theorem raise_fault_of_none (f : BlockFault) (info : FaultInfo) (h : s.fault = none) :
    (s.raise f info).fault = some f := by simp [raise, h]
theorem raise_faultInfo_of_none (f : BlockFault) (info : FaultInfo) (h : s.fault = none) :
    (s.raise f info).faultInfo = some info := by simp [raise, h]
theorem raise_fault_isSome (f : BlockFault) (info : FaultInfo) : (s.raise f info).fault.isSome = true := by
  unfold raise; cases s.fault <;> rfl

/-! ### `blockReset` -/

@[simp] theorem blockReset_cfg (c : Config) : (s.blockReset c).cfg = c := rfl
@[simp] theorem blockReset_phase (c : Config) : (s.blockReset c).phase = .uninit := rfl
@[simp] theorem blockReset_fault (c : Config) : (s.blockReset c).fault = none := rfl
@[simp] theorem blockReset_faultInfo (c : Config) : (s.blockReset c).faultInfo = none := rfl
@[simp] theorem blockReset_scratch (c : Config) : (s.blockReset c).scratch = [] := rfl
@[simp] theorem blockReset_pins (c : Config) : (s.blockReset c).pins = { reset := none, backlight := none } := rfl
@[simp] theorem blockReset_trace (c : Config) : (s.blockReset c).trace = [] := rfl
@[simp] theorem blockReset_ret (c : Config) : (s.blockReset c).ret = none := rfl
@[simp] theorem blockReset_panel (c : Config) : (s.blockReset c).panel = s.panel := rfl
@[simp] theorem blockReset_inbox (c : Config) : (s.blockReset c).inbox = s.inbox := rfl
@[simp] theorem blockReset_answers (c : Config) : (s.blockReset c).answers = s.answers := rfl
@[simp] theorem blockReset_txCount (c : Config) : (s.blockReset c).txCount = s.txCount := rfl
@[simp] theorem blockReset_epoch (c : Config) : (s.blockReset c).epoch = s.epoch + 1 := rfl

/-! ### `scratchWrite` -/

@[simp] theorem scratchWrite_cfg (off : Nat) (bs : List Byte) : (s.scratchWrite off bs).cfg = s.cfg := rfl
@[simp] theorem scratchWrite_phase (off : Nat) (bs : List Byte) : (s.scratchWrite off bs).phase = s.phase := rfl
@[simp] theorem scratchWrite_fault (off : Nat) (bs : List Byte) : (s.scratchWrite off bs).fault = s.fault := rfl
@[simp] theorem scratchWrite_faultInfo (off : Nat) (bs : List Byte) : (s.scratchWrite off bs).faultInfo = s.faultInfo := rfl
@[simp] theorem scratchWrite_scratch (off : Nat) (bs : List Byte) : (s.scratchWrite off bs).scratch = Store.writeRun s.scratch off bs := rfl
@[simp] theorem scratchWrite_pins (off : Nat) (bs : List Byte) : (s.scratchWrite off bs).pins = s.pins := rfl
@[simp] theorem scratchWrite_trace (off : Nat) (bs : List Byte) : (s.scratchWrite off bs).trace = s.trace := rfl
@[simp] theorem scratchWrite_ret (off : Nat) (bs : List Byte) : (s.scratchWrite off bs).ret = s.ret := rfl
@[simp] theorem scratchWrite_panel (off : Nat) (bs : List Byte) : (s.scratchWrite off bs).panel = s.panel := rfl
@[simp] theorem scratchWrite_inbox (off : Nat) (bs : List Byte) : (s.scratchWrite off bs).inbox = s.inbox := rfl
@[simp] theorem scratchWrite_answers (off : Nat) (bs : List Byte) : (s.scratchWrite off bs).answers = s.answers := rfl
@[simp] theorem scratchWrite_txCount (off : Nat) (bs : List Byte) : (s.scratchWrite off bs).txCount = s.txCount := rfl
@[simp] theorem scratchWrite_epoch (off : Nat) (bs : List Byte) : (s.scratchWrite off bs).epoch = s.epoch := rfl

/-! ### `stage` -/

@[simp] theorem stage_cfg (n : Nat) (color : Word16) : (s.stage n color).cfg = s.cfg := rfl
@[simp] theorem stage_phase (n : Nat) (color : Word16) : (s.stage n color).phase = s.phase := rfl
@[simp] theorem stage_fault (n : Nat) (color : Word16) : (s.stage n color).fault = s.fault := rfl
@[simp] theorem stage_faultInfo (n : Nat) (color : Word16) : (s.stage n color).faultInfo = s.faultInfo := rfl
@[simp] theorem stage_scratch (n : Nat) (color : Word16) : (s.stage n color).scratch = Store.writeRun s.scratch 0 (List.replicate n (pack565 color)).flatten := rfl
@[simp] theorem stage_pins (n : Nat) (color : Word16) : (s.stage n color).pins = s.pins := rfl
@[simp] theorem stage_trace (n : Nat) (color : Word16) : (s.stage n color).trace = s.trace := rfl
@[simp] theorem stage_ret (n : Nat) (color : Word16) : (s.stage n color).ret = s.ret := rfl
@[simp] theorem stage_panel (n : Nat) (color : Word16) : (s.stage n color).panel = s.panel := rfl
@[simp] theorem stage_inbox (n : Nat) (color : Word16) : (s.stage n color).inbox = s.inbox := rfl
@[simp] theorem stage_answers (n : Nat) (color : Word16) : (s.stage n color).answers = s.answers := rfl
@[simp] theorem stage_txCount (n : Nat) (color : Word16) : (s.stage n color).txCount = s.txCount := rfl
@[simp] theorem stage_epoch (n : Nat) (color : Word16) : (s.stage n color).epoch = s.epoch := rfl

/-! ### `setPin` -/

@[simp] theorem setPin_cfg (pin : Pin) (level : Level) : (s.setPin pin level).cfg = s.cfg := rfl
@[simp] theorem setPin_phase (pin : Pin) (level : Level) : (s.setPin pin level).phase = s.phase := rfl
@[simp] theorem setPin_fault (pin : Pin) (level : Level) : (s.setPin pin level).fault = s.fault := rfl
@[simp] theorem setPin_faultInfo (pin : Pin) (level : Level) : (s.setPin pin level).faultInfo = s.faultInfo := rfl
@[simp] theorem setPin_scratch (pin : Pin) (level : Level) : (s.setPin pin level).scratch = s.scratch := rfl
@[simp] theorem setPin_pins (pin : Pin) (level : Level) : (s.setPin pin level).pins = s.pins.drive pin level := rfl
@[simp] theorem setPin_trace (pin : Pin) (level : Level) : (s.setPin pin level).trace = s.trace ++ [.pin pin level] := rfl
@[simp] theorem setPin_ret (pin : Pin) (level : Level) : (s.setPin pin level).ret = s.ret := rfl
@[simp] theorem setPin_panel (pin : Pin) (level : Level) : (s.setPin pin level).panel = s.panel.seePin s.pins.reset pin level := rfl
@[simp] theorem setPin_inbox (pin : Pin) (level : Level) : (s.setPin pin level).inbox = s.inbox := rfl
@[simp] theorem setPin_answers (pin : Pin) (level : Level) : (s.setPin pin level).answers = s.answers := rfl
@[simp] theorem setPin_txCount (pin : Pin) (level : Level) : (s.setPin pin level).txCount = s.txCount := rfl
@[simp] theorem setPin_epoch (pin : Pin) (level : Level) : (s.setPin pin level).epoch = s.epoch := rfl

/-! ### `delayMs` -/

@[simp] theorem delayMs_cfg (n : Nat) : (s.delayMs n).cfg = s.cfg := rfl
@[simp] theorem delayMs_phase (n : Nat) : (s.delayMs n).phase = s.phase := rfl
@[simp] theorem delayMs_fault (n : Nat) : (s.delayMs n).fault = s.fault := rfl
@[simp] theorem delayMs_faultInfo (n : Nat) : (s.delayMs n).faultInfo = s.faultInfo := rfl
@[simp] theorem delayMs_scratch (n : Nat) : (s.delayMs n).scratch = s.scratch := rfl
@[simp] theorem delayMs_pins (n : Nat) : (s.delayMs n).pins = s.pins := rfl
@[simp] theorem delayMs_trace (n : Nat) : (s.delayMs n).trace = s.trace ++ [.delay n] := rfl
@[simp] theorem delayMs_ret (n : Nat) : (s.delayMs n).ret = s.ret := rfl
@[simp] theorem delayMs_panel (n : Nat) : (s.delayMs n).panel = s.panel := rfl
@[simp] theorem delayMs_inbox (n : Nat) : (s.delayMs n).inbox = s.inbox := rfl
@[simp] theorem delayMs_answers (n : Nat) : (s.delayMs n).answers = s.answers := rfl
@[simp] theorem delayMs_txCount (n : Nat) : (s.delayMs n).txCount = s.txCount := rfl
@[simp] theorem delayMs_epoch (n : Nat) : (s.delayMs n).epoch = s.epoch := rfl

/-! ### The transport's answers -/

/-- Using an answer shifts the ones to come. -/
theorem answer_useAnswer (k : Nat) : s.useAnswer.answer k = s.answer (k + 1) := by
  unfold answer useAnswer
  cases s.answers <;> simp [Nat.add_assoc, Nat.add_comm 1 k]

/-- The answers depend on `answers` and `txCount` alone. -/
theorem answer_congr {s t : State} (ha : t.answers = s.answers) (hc : t.txCount = s.txCount) (k : Nat) :
    t.answer k = s.answer k := by
  unfold answer; rw [ha, hc]

end Sys2Proof.Machine.State
end

