-- ==== Sys2Proof/Laws/Store.lean ====
section
/-! SUPPORT. The laws of sparse storage: a read after a write, what a write leaves alone, and that every
operation keeps the canonical form. -/

namespace Sys2Proof.Machine

variable {α : Type}

namespace Store

@[simp] theorem read_nil (k : Nat) : read ([] : List (Nat × α)) k = none := rfl

theorem read_cons (e : Nat × α) (m : List (Nat × α)) (k : Nat) :
    read (e :: m) k = if k = e.1 then some e.2 else read m k := rfl

/-- A read after a write to the same key gives the value written. -/
theorem read_write_same (m : List (Nat × α)) (k : Nat) (v : α) : read (write m k v) k = some v := by
  induction m with
  | nil => simp [write, read]
  | cons e m ih =>
    obtain ⟨k', v'⟩ := e
    unfold write
    split
    · simp [read_cons]
    · split
      · simp [read_cons]
      · simp [read_cons, *]

/-- A write leaves every other key alone. -/
theorem read_write_other (m : List (Nat × α)) {k j : Nat} (v : α) (h : j ≠ k) :
    read (write m k v) j = read m j := by
  induction m with
  | nil => simp [write, read_cons, h]
  | cons e m ih =>
    obtain ⟨k', v'⟩ := e
    unfold write
    split
    · simp [read_cons, h]
    · split
      · subst_vars; simp [read_cons, h]
      · simp [read_cons, ih]

theorem mem_write {m : List (Nat × α)} {k : Nat} {v : α} {e : Nat × α} (h : e ∈ write m k v) :
    e = (k, v) ∨ e ∈ m := by
  induction m with
  | nil => simpa [write] using h
  | cons e' m ih =>
    obtain ⟨k', v'⟩ := e'
    unfold write at h
    split at h
    · simpa using h
    · split at h
      · rcases List.mem_cons.1 h with h | h <;> simp [h]
      · rcases List.mem_cons.1 h with h | h
        · simp [h]
        · rcases ih h with h | h <;> simp [h]

/-- A write keeps the canonical form. -/
theorem write_wf {m : List (Nat × α)} (h : wf m) (k : Nat) (v : α) : wf (write m k v) := by
  induction m with
  | nil => simp [write]
  | cons e m ih =>
    obtain ⟨k', v'⟩ := e
    obtain ⟨hhead, htail⟩ := List.pairwise_cons.1 h
    unfold write
    split
    · rename_i hlt
      refine List.pairwise_cons.2 ⟨?_, h⟩
      intro e he
      rcases List.mem_cons.1 he with rfl | he
      · exact hlt
      · exact Nat.lt_trans hlt (hhead e he)
    · split
      · subst_vars; exact List.pairwise_cons.2 ⟨fun e he => hhead e he, htail⟩
      · refine List.pairwise_cons.2 ⟨?_, ih htail⟩
        intro e he
        rcases mem_write he with rfl | he
        · simp only; omega
        · exact hhead e he

theorem write_ne_nil (m : List (Nat × α)) (k : Nat) (v : α) : write m k v ≠ [] := by
  cases m with
  | nil => simp [write]
  | cons e m =>
    unfold write
    split
    · simp
    · split <;> simp

theorem read_append (a b : List (Nat × α)) (k : Nat) :
    read (a ++ b) k = match read a k with | some v => some v | none => read b k := by
  induction a with
  | nil => rfl
  | cons e a ih =>
    simp only [List.cons_append, read_cons]
    split
    · rfl
    · exact ih

theorem read_filter (m : List (Nat × α)) (p : Nat → Bool) (k : Nat) :
    read (m.filter (fun e => p e.1)) k = if p k then read m k else none := by
  induction m with
  | nil => simp
  | cons e m ih =>
    simp only [List.filter_cons, read_cons]
    split
    · rename_i hp
      rw [read_cons, ih]
      split
      · subst_vars; simp [hp]
      · rfl
    · rename_i hp
      rw [ih]
      split
      · rename_i hk
        have : k ≠ e.1 := by rintro rfl; exact hp hk
        simp [this]
      · rfl

theorem mem_run {start : Nat} {vs : List α} {e : Nat × α} (h : e ∈ run start vs) :
    start ≤ e.1 ∧ e.1 < start + vs.length := by
  induction vs generalizing start with
  | nil => simp [run] at h
  | cons v vs ih =>
    simp only [run, List.mem_cons] at h
    rcases h with rfl | h
    · simp
    · have := ih h; simp only [List.length_cons]; omega

theorem read_run (start : Nat) (vs : List α) (k : Nat) :
    read (run start vs) k = if start ≤ k then vs[k - start]? else none := by
  induction vs generalizing start with
  | nil => simp [run]
  | cons v vs ih =>
    simp only [run, read_cons]
    split
    · subst_vars; simp
    · rw [ih]
      by_cases h : start + 1 ≤ k
      · have h' : start ≤ k := by omega
        have e : k - start = (k - (start + 1)) + 1 := by omega
        simp [h, h', e]
      · have h' : ¬ start ≤ k := by omega
        simp [h, h']

theorem run_wf (start : Nat) (vs : List α) : wf (run start vs) := by
  induction vs generalizing start with
  | nil => simp [run]
  | cons v vs ih =>
    refine List.pairwise_cons.2 ⟨?_, ih _⟩
    intro e he
    have := (mem_run he).1
    simp only; omega

/-- The bytes of a run read back, each at its key. -/
theorem read_writeRun_inside (m : List (Nat × α)) {start : Nat} {vs : List α} {k : Nat}
    (h : start ≤ k) (h' : k < start + vs.length) : read (writeRun m start vs) k = vs[k - start]? := by
  have hlen : k - start < vs.length := by omega
  unfold writeRun
  rw [read_append, read_append, read_filter m (fun j => decide (j < start)), read_run]
  have : ¬ k < start := by omega
  simp [h, this, hlen]

/-- A run leaves every key outside it alone. -/
theorem read_writeRun_outside (m : List (Nat × α)) {start : Nat} {vs : List α} {k : Nat}
    (h : k < start ∨ start + vs.length ≤ k) : read (writeRun m start vs) k = read m k := by
  unfold writeRun
  rw [read_append, read_append, read_filter m (fun j => decide (j < start)), read_run,
    read_filter m (fun j => decide (start + vs.length ≤ j))]
  rcases h with h | h
  · have h2 : ¬ start ≤ k := by omega
    have h3 : ¬ start + vs.length ≤ k := by omega
    simp only [h, h2, h3]
    cases read m k <;> simp
  · have h2 : ¬ k < start := by omega
    have h3 : start ≤ k := by omega
    have h4 : vs[k - start]? = none := by simp; omega
    simp [h, h2, h3, h4]

theorem mem_writeRun {m : List (Nat × α)} {start : Nat} {vs : List α} {e : Nat × α}
    (h : e ∈ writeRun m start vs) : e ∈ m ∨ (start ≤ e.1 ∧ e.1 < start + vs.length) := by
  unfold writeRun at h
  simp only [List.mem_append, List.mem_filter] at h
  rcases h with (h | h) | h
  · exact .inl h.1
  · exact .inr (mem_run h)
  · exact .inl h.1

/-- Writing a run keeps the canonical form. -/
theorem writeRun_wf {m : List (Nat × α)} (h : wf m) (start : Nat) (vs : List α) :
    wf (writeRun m start vs) := by
  unfold writeRun wf
  simp only [List.pairwise_append, List.mem_append, List.mem_filter, decide_eq_true_eq]
  refine ⟨⟨h.filter _, run_wf start vs, ?_⟩, h.filter _, ?_⟩
  · rintro a ⟨-, ha⟩ b hb
    have := (mem_run hb).1; omega
  · rintro a (⟨-, ha⟩ | ha) b ⟨-, hb⟩
    · omega
    · have := (mem_run ha).2; omega

/-- Reading a run is reading its keys one by one. -/
theorem readRun_eq_map (absent : Nat → α) (m : List (Nat × α)) (start n : Nat) :
    readRun absent m start n =
      (List.range n).map fun i => match read m (start + i) with
        | some v => v
        | none => absent (start + i) := by
  induction n generalizing m start with
  | zero => rfl
  | succ n ih =>
    rw [List.range_succ_eq_map, List.map_cons, List.map_map]
    unfold readRun
    cases m with
    | nil => simp [ih, Nat.add_assoc, Nat.add_comm 1, Function.comp_def]
    | cons e m =>
      obtain ⟨key, v⟩ := e
      simp only
      split
      · rename_i hk
        subst hk
        simp only [read_cons, Nat.add_zero, if_true, ih, Function.comp_def, List.cons.injEq, true_and]
        refine List.map_congr_left fun i _ => ?_
        have e1 : key + 1 + i = key + (i + 1) := by omega
        have e2 : key + (i + 1) ≠ key := by omega
        simp [e1]
      · rename_i hk
        have hk' : start ≠ key := fun h => hk h.symm
        simp only [ih, Nat.add_zero, Function.comp_def, read_cons, hk', if_false, List.cons.injEq]
        refine ⟨by trivial, List.map_congr_left fun i _ => ?_⟩
        have e1 : start + 1 + i = start + (i + 1) := by omega
        rw [e1]

/-- What a run wrote is read back whole. -/
theorem readRun_writeRun (absent : Nat → α) (m : List (Nat × α)) (start : Nat) (vs : List α) :
    readRun absent (writeRun m start vs) start vs.length = vs := by
  rw [readRun_eq_map]
  refine List.ext_getElem (by simp) fun i h1 h2 => ?_
  have hi : i < vs.length := by simpa using h2
  simp only [List.getElem_map, List.getElem_range]
  rw [read_writeRun_inside m (by omega) (by omega)]
  simp [hi]

end Store

namespace Gram

/-- A read after a write to the same cell gives the pixel written. -/
theorem read_write_same (g : List (Nat × List (Nat × Word16))) (c r : Nat) (v : Word16) :
    read (write g c r v) c r = some v := by
  unfold read write
  cases h : Store.read g r <;> simp [Store.read_write_same, Store.read_cons]

/-- A write leaves every other cell alone. -/
theorem read_write_other (g : List (Nat × List (Nat × Word16))) {c r c' r' : Nat} (v : Word16)
    (h : c' ≠ c ∨ r' ≠ r) : read (write g c r v) c' r' = read g c' r' := by
  unfold read write
  by_cases hr : r' = r
  · subst hr
    have hc : c' ≠ c := by simpa using h
    cases hg : Store.read g r' <;>
      simp [Store.read_write_same, Store.read_cons, Store.read_write_other, hc]
  · cases hg : Store.read g r <;> simp [Store.read_write_other _ _ hr]

theorem mem_of_read {g : List (Nat × List (Nat × Word16))} {r : Nat} {row : List (Nat × Word16)}
    (h : Store.read g r = some row) : (r, row) ∈ g := by
  induction g with
  | nil => simp at h
  | cons e g ih =>
    rw [Store.read_cons] at h
    split at h
    · obtain ⟨k, v⟩ := e; simp_all
    · exact List.mem_cons_of_mem _ (ih h)

/-- A write keeps the canonical form. -/
theorem write_wf {g : List (Nat × List (Nat × Word16))} (h : wf g) (c r : Nat) (v : Word16) :
    wf (write g c r v) := by
  unfold write
  split
  · rename_i row hrow
    refine ⟨Store.write_wf h.1 _ _, fun e he => ?_⟩
    rcases Store.mem_write he with rfl | he
    · exact ⟨Store.write_ne_nil _ _ _, Store.write_wf (h.2 _ (mem_of_read hrow)).2 _ _⟩
    · exact h.2 e he
  · refine ⟨Store.write_wf h.1 _ _, fun e he => ?_⟩
    rcases Store.mem_write he with rfl | he
    · simp
    · exact h.2 e he

/-- Forgetting cells keeps the canonical form. -/
theorem forget_wf {g : List (Nat × List (Nat × Word16))} (h : wf g) (p : Nat → Nat → Bool) :
    wf (forget g p) := by
  unfold forget
  refine ⟨List.Pairwise.filter _ (List.pairwise_map.2 h.1), fun e he => ?_⟩
  simp only [List.mem_filter, List.mem_map] at he
  obtain ⟨⟨row, hrow, rfl⟩, hne⟩ := he
  exact ⟨by simpa using hne, (h.2 row hrow).2.filter _⟩

theorem read_none_of_forall_ne {m : List (Nat × α)} {k : Nat} (h : ∀ e ∈ m, k ≠ e.1) :
    Store.read m k = none := by
  induction m with
  | nil => rfl
  | cons e m ih =>
    rw [Store.read_cons, if_neg (h e (by simp))]
    exact ih fun e he => h e (by simp [he])

/-- The row that stays of a row whose cells are forgotten. -/
theorem read_row_forget {g : List (Nat × List (Nat × Word16))} (h : Store.wf g) (p : Nat → Nat → Bool)
    (r : Nat) : Store.read (forget g p) r =
      (Store.read g r).bind fun row =>
        if (row.filter fun cell => !p cell.1 r).isEmpty then none
        else some (row.filter fun cell => !p cell.1 r) := by
  unfold forget
  induction g with
  | nil => rfl
  | cons e g ih =>
    obtain ⟨r', row⟩ := e
    obtain ⟨hhead, htail⟩ := List.pairwise_cons.1 h
    have ih := ih htail
    rw [List.map_cons, List.filter_cons]
    by_cases hempty : (row.filter fun cell => !p cell.1 r').isEmpty = true
    · rw [if_neg (by simp only [hempty]; decide)]
      by_cases hr : r = r'
      · subst hr
        rw [read_none_of_forall_ne, Store.read_cons, if_pos rfl, Option.bind_some, if_pos hempty]
        intro e he
        simp only [List.mem_filter, List.mem_map] at he
        obtain ⟨⟨row', hrow', rfl⟩, -⟩ := he
        have := hhead row' hrow'
        simp only at this ⊢; omega
      · rw [ih, Store.read_cons, if_neg hr]
    · rw [if_pos (by simpa using hempty)]
      by_cases hr : r = r'
      · subst hr
        rw [Store.read_cons, if_pos rfl, Store.read_cons, if_pos rfl, Option.bind_some, if_neg hempty]
      · rw [Store.read_cons, if_neg hr, ih, Store.read_cons, if_neg hr]

/-- A forgotten cell is `⊥`, every other one keeps its content. -/
theorem read_forget {g : List (Nat × List (Nat × Word16))} (h : Store.wf g) (p : Nat → Nat → Bool)
    (c r : Nat) : read (forget g p) c r = if p c r then none else read g c r := by
  unfold read
  rw [read_row_forget h]
  cases Store.read g r with
  | none => simp
  | some row =>
    have hf := Store.read_filter row (fun c => !p c r) c
    rw [Option.bind_some]
    by_cases hempty : (row.filter fun cell => !p cell.1 r).isEmpty = true
    · rw [if_pos hempty]
      rw [List.isEmpty_iff.1 hempty, Store.read_nil] at hf
      cases hp : p c r <;> simp_all
    · rw [if_neg hempty]
      simp only [hf]
      cases p c r <;> simp

end Gram

end Sys2Proof.Machine
end

