-- ==== Sys2Proof/Laws/Script.lean ====
section
/-! SUPPORT. Every rule of the block is a fixed script of acts: events to perform in order, and pixels to stage
between them. This file says once what playing a script can do; Laws/Rules.lean says which script each rule is. -/

namespace Sys2Proof.Machine

/-- One act of a rule: an event to perform (a transaction stands with result `ok`), or pixels to stage. -/
inductive Act where
  | event (ev : Event)
  | stage (n : Nat) (color : Word16)
  deriving DecidableEq, Repr

/-- Perform one act. -/
def Act.run : Act → State → Run
  | .event (.tx mode bs _), s => transmit mode bs (infoOf mode bs) s
  | .event (.pin pin level), s => .running (s.setPin pin level)
  | .event (.delay n), s => .running (s.delayMs n)
  | .stage n color, s => .running (s.stage n color)

/-- Perform the acts in order, until a fault stops the request. -/
def play : List Act → State → Run
  | [], s => .running s
  | a :: rest, s => (a.run s).andThen (play rest)

/-- The effect of one act when its transaction succeeds. -/
def State.apply (s : State) : Act → State
  | .event (.tx mode bs _) =>
    (s.useAnswer.emit (.tx mode bs .ok)).setPanel (s.panel.receive s.cfg mode bs)
  | .event (.pin pin level) => s.setPin pin level
  | .event (.delay n) => s.delayMs n
  | .stage n color => s.stage n color

/-- The effect of a script when all its transactions succeed. -/
def State.applyAll (s : State) (acts : List Act) : State := acts.foldl State.apply s

/-- The events of a script. -/
def eventsOf (acts : List Act) : List Event :=
  acts.filterMap fun a => match a with
    | .event ev => some ev
    | .stage _ _ => none

@[simp] theorem andThen_running (s : State) (f : State → Run) : (Run.running s).andThen f = f s := rfl
@[simp] theorem andThen_stopped (s : State) (f : State → Run) :
    (Run.stopped s).andThen f = .stopped s := rfl
@[simp] theorem state_running (s : State) : (Run.running s).state = s := rfl
@[simp] theorem state_stopped (s : State) : (Run.stopped s).state = s := rfl

theorem andThen_assoc (r : Run) (f g : State → Run) :
    (r.andThen f).andThen g = r.andThen fun s => (f s).andThen g := by
  cases r <;> rfl

/-- Two continuations that agree wherever the rule runs on are the same continuation. -/
theorem andThen_congr {r : Run} {f g : State → Run} (h : ∀ t, r = .running t → f t = g t) :
    r.andThen f = r.andThen g := by
  cases r with
  | running s => exact h s rfl
  | stopped s => rfl

@[simp] theorem eventsOf_nil : eventsOf [] = [] := rfl
@[simp] theorem eventsOf_event (ev : Event) (rest : List Act) :
    eventsOf (.event ev :: rest) = ev :: eventsOf rest := rfl
@[simp] theorem eventsOf_stage (n : Nat) (c : Word16) (rest : List Act) :
    eventsOf (.stage n c :: rest) = eventsOf rest := rfl
@[simp] theorem eventsOf_append (a b : List Act) : eventsOf (a ++ b) = eventsOf a ++ eventsOf b :=
  List.filterMap_append
@[simp] theorem eventsOf_map (evs : List Event) : eventsOf (evs.map Act.event) = evs := by
  induction evs with
  | nil => rfl
  | cons ev evs ih => simp [ih]

theorem eventsOf_flatMap {β : Type} (l : List β) (f : β → List Act) :
    eventsOf (l.flatMap f) = l.flatMap fun b => eventsOf (f b) := by
  induction l with
  | nil => rfl
  | cons b l ih => simp [ih]

theorem play_append (a b : List Act) (s : State) : play (a ++ b) s = (play a s).andThen (play b) := by
  induction a generalizing s with
  | nil => rfl
  | cons x a ih =>
    simp only [List.cons_append, play, andThen_assoc]
    exact andThen_congr fun t _ => ih t

@[simp] theorem applyAll_nil (s : State) : s.applyAll [] = s := rfl
@[simp] theorem applyAll_cons (s : State) (a : Act) (acts : List Act) :
    s.applyAll (a :: acts) = (s.apply a).applyAll acts := rfl
theorem applyAll_append (s : State) (a b : List Act) :
    s.applyAll (a ++ b) = (s.applyAll a).applyAll b := List.foldl_append

/-! ### Transactions -/

/-- A transaction that succeeds. -/
theorem transmit_ok {s : State} (mode : Mode) (bs : List Byte) (info : FaultInfo)
    (h : s.answer 0 = .ok) : transmit mode bs info s =
      .running ((s.useAnswer.emit (.tx mode bs .ok)).setPanel (s.panel.receive s.cfg mode bs)) := by
  simp [transmit, h]

/-- A transaction that fails raises TransportError (R130, R131, R264). -/
theorem transmit_err {s : State} (mode : Mode) (bs : List Byte) (info : FaultInfo) {d : Nat}
    (h : s.answer 0 = .err d) : transmit mode bs info s =
      .stopped (((s.useAnswer.emit (.tx mode bs .err)).setPanel
        (s.panel.receiveFailed s.cfg mode bs d)).raise .transportError info) := by
  simp [transmit, h]

/-- All an act can do: run on with its effect, or be a transaction that fails. -/
theorem Act.run_cases (a : Act) (s : State) :
    a.run s = .running (s.apply a) ∨
      ∃ mode bs r d, a = .event (.tx mode bs r) ∧ s.answer 0 = .err d ∧
        a.run s = .stopped (((s.useAnswer.emit (.tx mode bs .err)).setPanel
          (s.panel.receiveFailed s.cfg mode bs d)).raise .transportError (infoOf mode bs)) := by
  match a with
  | .event (.tx mode bs r) =>
    cases h : s.answer 0 with
    | ok => exact .inl (transmit_ok mode bs _ h)
    | err d => exact .inr ⟨mode, bs, r, d, rfl, rfl, transmit_err mode bs _ h⟩
  | .event (.pin _ _) => exact .inl rfl
  | .event (.delay _) => exact .inl rfl
  | .stage _ _ => exact .inl rfl

theorem Act.run_running {a : Act} {s t : State} (h : a.run s = .running t) : t = s.apply a := by
  rcases a.run_cases s with h' | ⟨_, _, _, _, _, _, h'⟩ <;> rw [h'] at h <;> cases h
  rfl

@[simp] theorem apply_cfg (s : State) (a : Act) : (s.apply a).cfg = s.cfg := by
  match a with
  | .event (.tx _ _ _) => rfl
  | .event (.pin _ _) => rfl
  | .event (.delay _) => rfl
  | .stage _ _ => rfl

@[simp] theorem applyAll_cfg (s : State) (acts : List Act) : (s.applyAll acts).cfg = s.cfg := by
  induction acts generalizing s with
  | nil => rfl
  | cons a acts ih => rw [applyAll_cons, ih, apply_cfg]

theorem play_running {acts : List Act} {s t : State} (h : play acts s = .running t) :
    t = s.applyAll acts := by
  induction acts generalizing s with
  | nil => cases h; rfl
  | cons a acts ih =>
    rcases a.run_cases s with h' | ⟨_, _, _, _, _, _, h'⟩ <;> rw [play, h'] at h
    · exact ih h
    · cases h

/-- After events alone, scratch is as before. -/
theorem applyAll_events_scratch (s : State) (evs : List Event) :
    (s.applyAll (evs.map Act.event)).scratch = s.scratch := by
  induction evs generalizing s with
  | nil => rfl
  | cons ev evs ih =>
    rw [List.map_cons, applyAll_cons, ih]
    cases ev <;> rfl

/-! ### A script whose transactions all succeed -/

theorem txs_cons_tx (mode : Mode) (bs : List Byte) (r : TxResult) (evs : List Event) :
    txs (.tx mode bs r :: evs) = txs evs + 1 := List.countP_cons_of_pos rfl
theorem txs_cons_pin (p : Pin) (l : Level) (evs : List Event) :
    txs (.pin p l :: evs) = txs evs := by simp [txs, Event.isTx]
theorem txs_cons_delay (n : Nat) (evs : List Event) :
    txs (.delay n :: evs) = txs evs := by simp [txs, Event.isTx]
@[simp] theorem txs_nil : txs [] = 0 := rfl
@[simp] theorem txs_append (a b : List Event) : txs (a ++ b) = txs a + txs b := List.countP_append

theorem AllOk.mono {s : State} {m n : Nat} (h : AllOk s n) (hm : m ≤ n) : AllOk s m :=
  fun k hk => h k (by omega)

theorem AllOk.congr {s t : State} {n : Nat} (h : AllOk s n) (ha : t.answers = s.answers)
    (hc : t.txCount = s.txCount) : AllOk t n :=
  fun k hk => (State.answer_congr ha hc k).trans (h k hk)

theorem FailsAfter.congr {s t : State} {n d : Nat} (h : FailsAfter s n d) (ha : t.answers = s.answers)
    (hc : t.txCount = s.txCount) : FailsAfter t n d :=
  ⟨h.1.congr ha hc, (State.answer_congr ha hc n).trans h.2⟩

theorem AllOk.tail {s : State} {n : Nat} (h : AllOk s (n + 1)) : AllOk s.useAnswer n :=
  fun k hk => (s.answer_useAnswer k).trans (h (k + 1) (by omega))

theorem FailsAfter.tail {s : State} {n d : Nat} (h : FailsAfter s (n + 1) d) :
    FailsAfter s.useAnswer n d :=
  ⟨h.1.tail, (s.answer_useAnswer n).trans h.2⟩

/-- With every answer `ok` a script runs to its end. -/
theorem play_ok {acts : List Act} {s : State} (h : AllOk s (txs (eventsOf acts))) :
    play acts s = .running (s.applyAll acts) := by
  induction acts generalizing s with
  | nil => rfl
  | cons a acts ih =>
    match a with
    | .event (.tx mode bs r) =>
      rw [eventsOf_event, txs_cons_tx] at h
      rw [play, Act.run, transmit_ok mode bs _ (h 0 (by omega)), andThen_running]
      exact ih ((AllOk.tail h).congr rfl rfl)
    | .event (.pin p l) =>
      rw [eventsOf_event, txs_cons_pin] at h
      exact ih (h.congr rfl rfl)
    | .event (.delay n) =>
      rw [eventsOf_event, txs_cons_delay] at h
      exact ih (h.congr rfl rfl)
    | .stage n c => exact ih (h.congr rfl rfl)

/-- No event of the list is a pin change. -/
def PinFree (evs : List Event) : Prop := ∀ p l, Event.pin p l ∉ evs

theorem PinFree.tail {ev : Event} {evs : List Event} (h : PinFree (ev :: evs)) : PinFree evs :=
  fun p l hm => h p l (List.mem_cons_of_mem _ hm)

theorem PinFree.append {a b : List Event} (ha : PinFree a) (hb : PinFree b) : PinFree (a ++ b) :=
  fun p l hm => (List.mem_append.1 hm).elim (ha p l) (hb p l)

/-- Every transaction of the list stands with result `ok`. -/
def OkList (evs : List Event) : Prop := ∀ ev ∈ evs, ev.isErr = false

theorem OkList.tail {ev : Event} {evs : List Event} (h : OkList (ev :: evs)) : OkList evs :=
  fun e he => h e (List.mem_cons_of_mem _ he)

theorem OkList.append {a b : List Event} (ha : OkList a) (hb : OkList b) : OkList (a ++ b) :=
  fun e he => (List.mem_append.1 he).elim (ha e) (hb e)

theorem Performed.refl (s : State) : Performed s s [] := by
  constructor <;> simp [txs]

theorem Performed.trans {s t u : State} {a b : List Event} (h : Performed s t a)
    (h' : Performed t u b) : Performed s u (a ++ b) where
  trace := by rw [h'.trace, h.trace, List.append_assoc]
  panel := by rw [h'.panel, h.panel, h.cfg, List.foldl_append]
  answers := by rw [h'.answers, h.answers, List.drop_drop, txs_append]
  txCount := by rw [h'.txCount, h.txCount, txs_append, Nat.add_assoc]
  cfg := h'.cfg.trans h.cfg
  phase := h'.phase.trans h.phase
  fault := h'.fault.trans h.fault
  faultInfo := h'.faultInfo.trans h.faultInfo
  pins := h'.pins.trans h.pins
  inbox := h'.inbox.trans h.inbox
  epoch := h'.epoch.trans h.epoch

theorem Performed.congr {s t u : State} {evs : List Event} (h : Performed s t evs)
    (hu : ∃ m r, u = { t with scratch := m, ret := r }) : Performed s u evs := by
  obtain ⟨m, r, rfl⟩ := hu
  exact ⟨h.1, h.2, h.3, h.4, h.5, h.6, h.7, h.8, h.9, h.10, h.11⟩

/-- One act without a pin change performs its event. -/
theorem apply_performed (s : State) (a : Act) (hp : PinFree (eventsOf [a]))
    (hr : OkList (eventsOf [a])) : Performed s (s.apply a) (eventsOf [a]) := by
  match a with
  | .event (.tx mode bs .ok) =>
    constructor <;> simp [State.apply, txs, Event.isTx, Panel.observe]
  | .event (.tx mode bs .err) =>
    exact absurd (hr (.tx mode bs .err) (by simp)) (by simp [Event.isErr])
  | .event (.pin p l) => exact absurd (by simp) (hp p l)
  | .event (.delay n) => constructor <;> simp [State.apply, txs, Event.isTx, Panel.observe]
  | .stage n c => constructor <;> simp [State.apply, txs]

/-- A script without a pin change performs its events. -/
theorem applyAll_performed (s : State) (acts : List Act) (hp : PinFree (eventsOf acts))
    (hr : OkList (eventsOf acts)) : Performed s (s.applyAll acts) (eventsOf acts) := by
  induction acts generalizing s with
  | nil => exact Performed.refl s
  | cons a acts ih =>
    have e : eventsOf (a :: acts) = eventsOf [a] ++ eventsOf acts := by
      rw [← eventsOf_append]; rfl
    rw [e] at hp hr ⊢
    exact (apply_performed s a (fun p l hm => hp p l (List.mem_append_left _ hm))
      (fun ev hm => hr ev (List.mem_append_left _ hm))).trans
      (ih _ (fun p l hm => hp p l (List.mem_append_right _ hm))
        (fun ev hm => hr ev (List.mem_append_right _ hm)))

/-- `ret` is set only at a rule's end. -/
theorem applyAll_ret (s : State) (acts : List Act) : (s.applyAll acts).ret = s.ret := by
  induction acts generalizing s with
  | nil => rfl
  | cons a acts ih =>
    rw [applyAll_cons, ih]
    match a with
    | .event (.tx _ _ _) => rfl
    | .event (.pin _ _) => rfl
    | .event (.delay _) => rfl
    | .stage _ _ => rfl

/-- The phase and the fault change only at a rule's end or at a fault. -/
theorem applyAll_flags (s : State) (acts : List Act) :
    (s.applyAll acts).phase = s.phase ∧ (s.applyAll acts).fault = s.fault ∧
      (s.applyAll acts).faultInfo = s.faultInfo ∧ (s.applyAll acts).inbox = s.inbox ∧
      (s.applyAll acts).epoch = s.epoch := by
  induction acts generalizing s with
  | nil => exact ⟨rfl, rfl, rfl, rfl, rfl⟩
  | cons a acts ih =>
    rw [applyAll_cons]
    obtain ⟨h1, h2, h3, h4, h5⟩ := ih (s.apply a)
    match a with
    | .event (.tx _ _ _) => exact ⟨h1, h2, h3, h4, h5⟩
    | .event (.pin _ _) => exact ⟨h1, h2, h3, h4, h5⟩
    | .event (.delay _) => exact ⟨h1, h2, h3, h4, h5⟩
    | .stage _ _ => exact ⟨h1, h2, h3, h4, h5⟩

/-! ### A script that a transaction stops -/

/-- The state a failing transaction leaves, from the state in front of it. -/
def State.failTx (s : State) (mode : Mode) (bs : List Byte) (d : Nat) : State :=
  ((s.useAnswer.emit (.tx mode bs .err)).setPanel (s.panel.receiveFailed s.cfg mode bs d)).raise
    .transportError (infoOf mode bs)

/-- Where a script stops whose transaction number `n` fails: the acts in front of that transaction had their
effect, and the events up to it are the script's events cut there (R264). -/
theorem play_fails {l : List Act} {s : State} {n d : Nat} (h : FailsAfter s n d)
    (hn : n < txs (eventsOf l)) (hok : OkList (eventsOf l)) :
    ∃ before mode bs r rest, l = before ++ .event (.tx mode bs r) :: rest ∧
      txs (eventsOf before) = n ∧
      cutAt n (eventsOf l) = eventsOf before ++ [.tx mode bs .err] ∧
      play l s = .stopped ((s.applyAll before).failTx mode bs d) := by
  induction l generalizing s n with
  | nil => simp at hn
  | cons a l ih =>
    match a with
    | .event (.tx mode bs r) =>
      rw [eventsOf_event, txs_cons_tx] at hn
      rw [eventsOf_event] at hok
      cases n with
      | zero =>
        refine ⟨[], mode, bs, r, l, rfl, rfl, by simp [cutAt], ?_⟩
        rw [play, Act.run, transmit_err mode bs _ h.2, andThen_stopped]; rfl
      | succ n =>
        obtain ⟨before, m', bs', r', rest, h1, h2, h3, h4⟩ :=
          ih (s := s.apply (.event (.tx mode bs r))) ((FailsAfter.tail h).congr rfl rfl) (by omega)
            hok.tail
        refine ⟨.event (.tx mode bs r) :: before, m', bs', r', rest, by rw [h1]; rfl, ?_, ?_, ?_⟩
        · rw [eventsOf_event, txs_cons_tx, h2]
        · rw [eventsOf_event, cutAt, h3]; rfl
        · rw [play, Act.run, transmit_ok mode bs _ (h.1 0 (by omega)), andThen_running]; exact h4
    | .event (.pin p lv) =>
      rw [eventsOf_event, txs_cons_pin] at hn
      obtain ⟨before, m', bs', r', rest, h1, h2, h3, h4⟩ :=
        ih (s := s.apply (.event (.pin p lv))) (h.congr rfl rfl) hn
          (by rw [eventsOf_event] at hok; exact hok.tail)
      refine ⟨.event (.pin p lv) :: before, m', bs', r', rest, by rw [h1]; rfl, ?_, ?_, h4⟩
      · rw [eventsOf_event, txs_cons_pin, h2]
      · rw [eventsOf_event, eventsOf_event]; cases n <;> simp [cutAt, h3]
    | .event (.delay k) =>
      rw [eventsOf_event, txs_cons_delay] at hn
      obtain ⟨before, m', bs', r', rest, h1, h2, h3, h4⟩ :=
        ih (s := s.apply (.event (.delay k))) (h.congr rfl rfl) hn
          (by rw [eventsOf_event] at hok; exact hok.tail)
      refine ⟨.event (.delay k) :: before, m', bs', r', rest, by rw [h1]; rfl, ?_, ?_, h4⟩
      · rw [eventsOf_event, txs_cons_delay, h2]
      · rw [eventsOf_event, eventsOf_event]; cases n <;> simp [cutAt, h3]
    | .stage k c =>
      obtain ⟨before, m', bs', r', rest, h1, h2, h3, h4⟩ :=
        ih (s := s.apply (.stage k c)) (h.congr rfl rfl) hn hok
      exact ⟨.stage k c :: before, m', bs', r', rest, by rw [h1]; rfl, by rw [eventsOf_stage, h2],
        by rw [eventsOf_stage, eventsOf_stage]; exact h3, h4⟩

/-- Everything a script can do: it runs to its end, or one of its transactions fails and the acts before
that one had their effect. -/
theorem play_cases (acts : List Act) (s : State) :
    play acts s = .running (s.applyAll acts) ∨
      ∃ before mode bs r rest d, acts = before ++ .event (.tx mode bs r) :: rest ∧
        (s.applyAll before).answer 0 = .err d ∧
        play acts s = .stopped (((((s.applyAll before).useAnswer.emit (.tx mode bs .err)).setPanel
          ((s.applyAll before).panel.receiveFailed s.cfg mode bs d))).raise .transportError
            (infoOf mode bs)) := by
  induction acts generalizing s with
  | nil => exact .inl rfl
  | cons a acts ih =>
    rcases a.run_cases s with h | ⟨mode, bs, r, d, rfl, hd, h⟩
    · rcases ih (s.apply a) with h' | ⟨before, mode, bs, r, rest, d, rfl, hd, h'⟩
      · exact .inl (by rw [play, h, andThen_running, h', applyAll_cons])
      · refine .inr ⟨a :: before, mode, bs, r, rest, d, rfl, hd, ?_⟩
        rw [play, h, andThen_running, h', applyAll_cons, apply_cfg]
    · refine .inr ⟨[], mode, bs, r, acts, d, rfl, hd, ?_⟩
      rw [play, h, andThen_stopped]; rfl

/-- A property that every act of a script keeps holds after the acts. -/
theorem applyAll_keeps {P : State → Prop} {acts : List Act} {s : State} (h : P s)
    (hkeep : ∀ a ∈ acts, ∀ t, P t → P (t.apply a)) : P (s.applyAll acts) := by
  induction acts generalizing s with
  | nil => exact h
  | cons a acts ih =>
    exact ih (hkeep a (by simp) s h) fun b hb t ht => hkeep b (by simp [hb]) t ht

end Sys2Proof.Machine
end

