-- ==== Sys2Proof/Laws/Rules.lean ====
section
/-! SUPPORT. Which script each rule plays (40_command_protocol.md, 41_staging.md, 42_glyph.md): one lemma per
shared operation, then one for exec (`exec_admitted`), which later proofs cite instead of unfolding meanings. -/

namespace Sys2Proof.Machine

/-! ### What a legal configuration fixes -/

/-- R24: the hardwired fields of a legal configuration. -/
structure FixedConfig (c : Config) : Prop where
  countMask    : c.countMask = 0x1F#8
  delayFlag    : c.delayFlag = 0x80#8
  sentinel     : c.sentinel = 0xFF#8
  maxParams    : c.maxParams = 16
  glyphW       : c.glyphW = 5
  glyphH       : c.glyphH = 8
  cellW        : c.cellW = 6
  cellH        : c.cellH = 8
  maxTextRow   : c.maxTextRow = 15
  maxTextCol   : c.maxTextCol = 20

/-- R7: the geometry and the opcodes of a legal configuration. -/
structure LegalConfig (c : Config) : Prop where
  width        : 1 ≤ c.width
  height       : 1 ≤ c.height
  scratchBytes : c.scratchBytes = c.width * c.height * 2
  offsetX      : c.width - 1 + c.offsetX ≤ 255
  offsetY      : c.height - 1 + c.offsetY ≤ 255
  casetRaset   : c.opCaset ≠ c.opRaset
  casetRamwr   : c.opCaset ≠ c.opRamwr
  rasetRamwr   : c.opRaset ≠ c.opRamwr
  table        : c.tableWf c.initTable = true

theorem wf_fixed {c : Config} (h : c.wf = true) : FixedConfig c := by
  simp only [Config.wf, Config.hardwired, Bool.and_eq_true, decide_eq_true_eq] at h
  obtain ⟨-, h⟩ := h
  constructor <;> simp_all

theorem wf_legal {c : Config} (h : c.wf = true) : LegalConfig c := by
  simp only [Config.wf, Config.meetsR7, Bool.and_eq_true, decide_eq_true_eq] at h
  obtain ⟨h, -⟩ := h
  constructor <;> simp_all

/-! ### The scripts -/

/-- Events alone, as a script. -/
def acts (evs : List Event) : List Act := evs.map Act.event

/-- R171, R175, R177: stage a rectangle, select its window, stream it. -/
def rectActs (cfg : Config) (x y : Int) (w h : Nat) (color : Word16) : List Act :=
  .stage (w * h) color :: acts (rectEvents cfg x y w h color)

def fillActs (cfg : Config) (x y : Int) (w h : Nat) (color : Word16) : List Act :=
  match clip cfg x y w h with
  | none => []
  | some r => rectActs cfg r.x r.y r.w r.h color

def pixelActs (cfg : Config) (x y : Int) (color : Word16) : List Act :=
  if onPanel cfg x y then rectActs cfg x y 1 1 color else []

def paintActs (cfg : Config) (px py : Int) (size : Nat) (color : Word16) : List Act :=
  if size = 1 then pixelActs cfg px py color else fillActs cfg px py size size color

def charActs (cfg : Config) (x y : Int) (ch : Byte) (fg bg : Word16) (size : Nat) : List Act :=
  if rejectGlyph cfg x y size then []
  else (paintCalls cfg ch fg bg).flatMap fun c =>
    paintActs cfg (x + c.1.1 * size) (y + c.1.2 * size) size c.2

/-- R207: the characters rendered from column `col` on. -/
def textCount (len col size : Nat) : Nat :=
  match len with
  | 0 => 0
  | k + 1 => if 20 < col + size then 1 else textCount k (col + size) size + 1

def stringActs (cfg : Config) (col row : Nat) (text : List Byte) (fg bg : Word16) (size : Nat) :
    List Act :=
  (List.range (renderedCount (cText text).length col row size)).flatMap fun k =>
    charActs cfg (6 * (col + k * size) : Nat) (8 * row : Nat) ((cText text).getD k 0x00#8) fg bg size

/-- The script of an instruction of the block. -/
def script (cfg : Config) : Instr → List Act
  | .init => acts (initEvents cfg)
  | .fillScreen color => rectActs cfg 0 0 cfg.width cfg.height color
  | .fillRect x y w h color => fillActs cfg x.toInt y.toInt w.toNat h.toNat color
  | .drawPixel x y color => pixelActs cfg x.toInt y.toInt color
  | .drawChar x y ch fg bg size => charActs cfg x.toInt y.toInt ch fg bg size.toNat
  | .drawString col row text fg bg size => stringActs cfg col.toNat row.toNat text fg bg size.toNat
  | .reserved _ => []
  | .sendCommand op => acts [okCommand op]
  | .sendParameters bs => acts (okData bs)
  | .selectWindow x0 y0 x1 y1 => acts (windowEvents cfg x0 y0 x1 y1)
  | .runInitSequence => acts (replayEvents cfg)
  | .caset _ => []
  | .raset _ => []
  | .ramwr _ => []

/-- What an instruction sets when its script has run to the end. -/
def conclude (i : Instr) (t : State) : State :=
  match i with
  | .init => t.setReady.setRet none
  | .fillScreen _ => t.setRet none
  | .fillRect _ _ _ _ _ => t.setRet none
  | .drawPixel _ _ _ => t.setRet none
  | .drawChar _ _ _ _ _ _ => t.setRet none
  | .drawString col row text _ _ size =>
    t.setRet (some (renderedCount (cText text).length col.toNat row.toNat size.toNat))
  | .reserved _ => t
  | .sendCommand _ => t
  | .sendParameters _ => t
  | .selectWindow _ _ _ _ => t
  | .runInitSequence => t
  | .caset _ => t
  | .raset _ => t
  | .ramwr _ => t

/-! ### Scripts and their events -/

@[simp] theorem eventsOf_acts (evs : List Event) : eventsOf (acts evs) = evs := eventsOf_map evs

theorem acts_append (a b : List Event) : acts (a ++ b) = acts a ++ acts b := List.map_append

@[simp] theorem eventsOf_rectActs (cfg : Config) (x y : Int) (w h : Nat) (c : Word16) :
    eventsOf (rectActs cfg x y w h c) = rectEvents cfg x y w h c := by
  simp [rectActs]

@[simp] theorem eventsOf_fillActs (cfg : Config) (x y : Int) (w h : Nat) (c : Word16) :
    eventsOf (fillActs cfg x y w h c) = fillEvents cfg x y w h c := by
  unfold fillActs fillEvents
  cases clip cfg x y w h <;> simp

@[simp] theorem eventsOf_pixelActs (cfg : Config) (x y : Int) (c : Word16) :
    eventsOf (pixelActs cfg x y c) = pixelEvents cfg x y c := by
  unfold pixelActs pixelEvents; split <;> simp

@[simp] theorem eventsOf_paintActs (cfg : Config) (x y : Int) (n : Nat) (c : Word16) :
    eventsOf (paintActs cfg x y n c) = paintEvents cfg x y n c := by
  unfold paintActs paintEvents; split <;> simp

@[simp] theorem eventsOf_charActs (cfg : Config) (x y : Int) (ch : Byte) (fg bg : Word16)
    (n : Nat) : eventsOf (charActs cfg x y ch fg bg n) = charEvents cfg x y ch fg bg n := by
  unfold charActs charEvents; split <;> simp [eventsOf_flatMap]

@[simp] theorem eventsOf_stringActs (cfg : Config) (col row : Nat) (text : List Byte)
    (fg bg : Word16) (n : Nat) :
    eventsOf (stringActs cfg col row text fg bg n) = stringEvents cfg col row text fg bg n := by
  unfold stringActs stringEvents; simp [eventsOf_flatMap]

/-- The events of an instruction's script are its expected events. -/
@[simp] theorem eventsOf_script (cfg : Config) (i : Instr) :
    eventsOf (script cfg i) = expectedEvents cfg i := by
  cases i <;> simp [script, expectedEvents]

/-! ### The command protocol -/

theorem andThen_id (r : Run) : r.andThen Run.running = r := by cases r <;> rfl

theorem play_single (a : Act) (s : State) : play [a] s = a.run s := andThen_id _

theorem play_cfg {l : List Act} {s t : State} (h : play l s = .running t) : t.cfg = s.cfg := by
  rw [play_running h, applyAll_cfg]

/-- SEND_COMMAND plays one command transaction. -/
theorem sendCommand_eq (op : Byte) (s : State) : sendCommand op s = play (acts [okCommand op]) s := by
  rw [acts, List.map_singleton, play_single]; rfl

/-- SEND_PARAMETERS plays one data transaction, or none for no bytes. -/
theorem sendParameters_eq (bs : List Byte) (s : State) :
    sendParameters bs s = play (acts (okData bs)) s := by
  cases bs with
  | nil => rfl
  | cons b rest =>
    show _ = play [.event (.tx .data (b :: rest) .ok)] s
    rw [play_single]; rfl

/-- SELECT_WINDOW plays its five transactions. -/
theorem selectWindow_eq (x0 y0 x1 y1 : Int) (s : State) :
    selectWindow x0 y0 x1 y1 s = play (acts (windowEvents s.cfg x0 y0 x1 y1)) s := by
  have e : windowEvents s.cfg x0 y0 x1 y1 =
      [okCommand s.cfg.opCaset] ++ (okData (windowBytes x0 x1 s.cfg.offsetX) ++
        ([okCommand s.cfg.opRaset] ++ (okData (windowBytes y0 y1 s.cfg.offsetY) ++
          [okCommand s.cfg.opRamwr]))) := rfl
  rw [e]
  simp only [acts_append]
  unfold selectWindow
  rw [sendCommand_eq, play_append]
  refine andThen_congr fun t1 h1 => ?_
  rw [play_cfg h1, sendParameters_eq, play_append]
  refine andThen_congr fun t2 h2 => ?_
  rw [play_cfg h2, play_cfg h1, sendCommand_eq, play_append]
  refine andThen_congr fun t3 h3 => ?_
  rw [play_cfg h3, play_cfg h2, play_cfg h1, sendParameters_eq, play_append]
  refine andThen_congr fun t4 h4 => ?_
  rw [play_cfg h4, play_cfg h3, play_cfg h2, play_cfg h1, sendCommand_eq]

theorem flag_iff : ∀ b : Byte, (b &&& 0x80#8 ≠ 0x00#8) ↔ b.getLsbD 7 = true := by decide

/-- One Command Record plays its opcode, its parameters and its delay. -/
theorem sendRecord_eq (r : CommandRecord) {s : State} (h : s.cfg.wf = true) :
    sendRecord r s = play (acts (recordEvents s.cfg r)) s := by
  have hf := wf_fixed h
  have e : recordEvents s.cfg r = [okCommand r.op] ++
      (okData (r.params.take (r.count &&& 0x1F#8).toNat) ++
        (if r.count.getLsbD 7 then [.delay s.cfg.initDelayMs] else [])) := rfl
  rw [e]
  simp only [acts_append]
  unfold sendRecord
  rw [sendCommand_eq, play_append]
  refine andThen_congr fun t1 h1 => ?_
  rw [play_cfg h1, hf.countMask, sendParameters_eq, play_append]
  refine andThen_congr fun t2 h2 => ?_
  rw [play_cfg h2, play_cfg h1, hf.delayFlag]
  by_cases hd : r.count.getLsbD 7 = true
  · rw [if_pos ((flag_iff _).2 hd), if_pos hd]; rfl
  · rw [if_neg (fun hh => hd ((flag_iff _).1 hh)), if_neg hd]; rfl

theorem sendRecords_eq (records : List CommandRecord) {s : State} (h : s.cfg.wf = true) :
    sendRecords records s =
      play (acts ((records.takeWhile fun r => decide (r.count ≠ 0xFF#8)).flatMap
        (recordEvents s.cfg))) s := by
  induction records generalizing s with
  | nil => rfl
  | cons r rest ih =>
    unfold sendRecords
    rw [(wf_fixed h).sentinel]
    by_cases hr : r.count = 0xFF#8
    · rw [if_pos hr, List.takeWhile_cons_of_neg (by simpa using hr)]; rfl
    · rw [if_neg hr, List.takeWhile_cons_of_pos (by simpa using hr), List.flatMap_cons, acts_append,
        play_append, sendRecord_eq r h]
      refine andThen_congr fun t ht => ?_
      rw [ih (by rw [play_cfg ht]; exact h), play_cfg ht]

/-- RUN_INIT_SEQUENCE plays the records before the sentinel. -/
theorem runInit_eq {s : State} (h : s.cfg.wf = true) : runInit s = play (acts (replayEvents s.cfg)) s :=
  sendRecords_eq _ h

/-- INIT plays the pulse, the replay and the backlight. -/
theorem initBody_eq {s : State} (h : s.cfg.wf = true) :
    initBody s = (play (acts (initEvents s.cfg)) s).andThen fun t => .running (conclude .init t) := by
  obtain ⟨s4, hs4, hc4, hinit⟩ : ∃ s4, play (acts [.pin .reset .low, .delay s.cfg.resetDelayMs,
      .pin .reset .high, .delay s.cfg.resetDelayMs]) s = .running s4 ∧ s4.cfg = s.cfg ∧
      initBody s = (runInit s4).andThen fun s =>
        returnNone (s.setPin .backlight s.cfg.blOnLevel).setReady :=
    ⟨(((s.setPin .reset .low).delayMs s.cfg.resetDelayMs).setPin .reset .high).delayMs
      s.cfg.resetDelayMs, by simp only [acts, List.map, play, Act.run, andThen_running],
      by simp only [State.delayMs_cfg, State.setPin_cfg],
      by unfold initBody; simp only [State.delayMs_cfg, State.setPin_cfg]⟩
  unfold initEvents
  rw [acts_append, acts_append, play_append, play_append, andThen_assoc, andThen_assoc, hs4,
    andThen_running, hinit, runInit_eq (by rw [hc4]; exact h), hc4]
  refine andThen_congr fun t ht => ?_
  have hc : t.cfg = s.cfg := (play_cfg ht).trans hc4
  rw [hc]; rfl

theorem takeWhile_eq_filter {c : Config} (hs : c.sentinel = 0xFF#8) :
    ∀ l : List CommandRecord, c.tableWf l = true →
      l.takeWhile (fun r => decide (r.count ≠ 0xFF#8)) = l.filter fun r => decide (r.count ≠ 0xFF#8)
  | [], h => by simp [Config.tableWf] at h
  | [r], h => by
    simp only [Config.tableWf, Bool.and_eq_true, decide_eq_true_eq, hs] at h
    simp [h.1]
  | r :: r' :: rs, h => by
    simp only [Config.tableWf, Bool.and_eq_true, decide_eq_true_eq, hs] at h
    have ih := takeWhile_eq_filter hs (r' :: rs) (by simpa [hs, Config.tableWf] using h.2)
    have hr : decide (r.count ≠ 0xFF#8) = true := by simpa using h.1.1.1
    rw [List.takeWhile_cons, List.filter_cons, if_pos hr, if_pos hr, ih]

/-- R96: the sentinel is the last record, so the records in front of it are all the others. -/
theorem liveRecords_eq_filter {c : Config} (h : c.wf = true) :
    liveRecords c = c.initTable.filter fun r => decide (r.count ≠ 0xFF#8) :=
  takeWhile_eq_filter (wf_fixed h).sentinel _ (wf_legal h).table

theorem delayTotal_append (a b : List Event) : delayTotal (a ++ b) = delayTotal a + delayTotal b := by
  simp [delayTotal]

/-! ### Staging -/

theorem pixelBytes_length (n : Nat) (c : Word16) : (pixelBytes n c).length = 2 * n := by
  simp [pixelBytes, Nat.mul_comm]

theorem okData_of_ne_nil {bs : List Byte} (h : bs ≠ []) : okData bs = [.tx .data bs .ok] := by
  cases bs with
  | nil => exact absurd rfl h
  | cons b rest => rfl

theorem pixelBytes_ne_nil {n : Nat} (hn : 0 < n) (c : Word16) : pixelBytes n c ≠ [] := by
  intro h
  have := pixelBytes_length n c
  rw [h] at this; simp at this; omega

/-- After `stage n`, and as long as scratch is not written again, `2n` bytes read are the pixels. -/
theorem scratchRead_staged {s t : State} {n : Nat} {c : Word16}
    (h : t.scratch = (s.stage n c).scratch) : t.scratchRead 0 (2 * n) = pixelBytes n c := by
  unfold State.scratchRead
  rw [h, State.stage_scratch, ← pixelBytes_length n c]
  exact Store.readRun_writeRun _ _ _ _

/-- R61, R68, R170: what a staging leaves in scratch. -/
theorem stage_staged (s : State) (n : Nat) (c : Word16) : Staged s (s.stage n c) n c := by
  have hlen : (List.replicate n (pack565 c)).flatten.length = 2 * n := pixelBytes_length n c
  have hget : ∀ k, k < n → (List.replicate n (pack565 c)).flatten[2 * k]? = some (loByte c) ∧
      (List.replicate n (pack565 c)).flatten[2 * k + 1]? = some (hiByte c) := by
    clear hlen
    induction n with
    | zero => intro k hk; omega
    | succ n ih =>
      intro k hk
      rw [List.replicate_succ, List.flatten_cons]
      cases k with
      | zero => exact ⟨rfl, rfl⟩
      | succ k =>
        obtain ⟨h1, h2⟩ := ih k (by omega)
        rw [show 2 * (k + 1) = 2 * k + 1 + 1 by omega]
        exact ⟨h1, h2⟩
  refine ⟨fun k hk => ?_, fun off hoff => ?_⟩
  · obtain ⟨h1, h2⟩ := hget k hk
    rw [State.stage_scratch, Store.read_writeRun_inside _ (by omega) (by omega),
      Store.read_writeRun_inside _ (by omega) (by omega)]
    exact ⟨h1, h2⟩
  · rw [State.stage_scratch, Store.read_writeRun_outside _ (by omega)]

/-- The common tail of the staging requests plays a rectangle. -/
theorem streamRect_eq (r : Rect) (c : Word16) (s : State) (hn : 0 < r.w * r.h) :
    streamRect r c s = play (rectActs s.cfg r.x r.y r.w r.h c) s := by
  unfold streamRect rectActs rectEvents
  rw [acts_append]
  show _ = play (acts _ ++ acts _) (s.stage (r.w * r.h) c)
  rw [play_append]
  simp only
  rw [selectWindow_eq]
  refine andThen_congr fun t ht => ?_
  have hs : t.scratch = (s.stage (r.w * r.h) c).scratch := by
    rw [play_running ht]; exact applyAll_events_scratch _ _
  rw [scratchRead_staged hs, sendParameters_eq, okData_of_ne_nil (pixelBytes_ne_nil hn c)]

theorem shrink_spec {a : Int} {len limit : Nat} (hl : a < limit) :
    (shrink a len limit : Int) = min (len : Int) (limit - a) := by
  unfold shrink; split <;> omega

/-- All that clipping can answer: a rectangle that starts where it was asked to, not larger than asked, not
empty and inside the glass; or nothing, when the start is off-panel or a side is zero. -/
theorem clip_some {cfg : Config} {x y : Int} {w h : Nat} {r : Rect}
    (hr : clip cfg x y w h = some r) :
    onPanel cfg x y = true ∧ r.x = x ∧ r.y = y ∧ 0 < r.w ∧ 0 < r.h ∧ 0 ≤ x ∧ 0 ≤ y ∧
      x + r.w ≤ cfg.width ∧ y + r.h ≤ cfg.height ∧
      (r.w : Int) = min (w : Int) (cfg.width - x) ∧ (r.h : Int) = min (h : Int) (cfg.height - y) := by
  unfold clip at hr
  split at hr
  · rename_i hon
    simp only [onPanel, Bool.and_eq_true, decide_eq_true_eq] at hon
    obtain ⟨⟨⟨h1, h2⟩, h3⟩, h4⟩ := hon
    have hw := shrink_spec (len := w) h2
    have hh := shrink_spec (len := h) h4
    simp only at hr
    split at hr
    · cases hr
    · cases hr
      refine ⟨by simp [onPanel, *], rfl, rfl, ?_, ?_, h1, h3, ?_, ?_, hw, hh⟩ <;> simp only <;> omega
  · cases hr

/-- R174: a rectangle that starts on-panel and is not empty is clipped to what fits. -/
theorem clip_onPanel {cfg : Config} {x y : Int} {w h : Nat} (hon : onPanel cfg x y = true)
    (hw : 0 < w) (hh : 0 < h) : ∃ r, clip cfg x y w h = some r ∧ r.x = x ∧ r.y = y ∧
      (r.w : Int) = min (w : Int) (cfg.width - x) ∧ (r.h : Int) = min (h : Int) (cfg.height - y) := by
  have hon' := hon
  simp only [onPanel, Bool.and_eq_true, decide_eq_true_eq] at hon'
  have e1 := shrink_spec (len := w) hon'.1.1.2
  have e2 := shrink_spec (len := h) hon'.2
  unfold clip
  rw [if_pos hon]
  simp only
  rw [if_neg (by omega)]
  exact ⟨_, rfl, rfl, rfl, e1, e2⟩

theorem fillRectBody_eq (x y : Int) (w h : Nat) (c : Word16) (s : State) :
    fillRectBody x y w h c s = play (fillActs s.cfg x y w h c) s := by
  unfold fillRectBody fillActs
  cases hr : clip s.cfg x y w h with
  | none => rfl
  | some r =>
    obtain ⟨-, -, -, hw, hh, -⟩ := clip_some hr
    exact streamRect_eq r c s (Nat.mul_pos hw hh)

theorem drawPixelBody_eq (x y : Int) (c : Word16) (s : State) :
    drawPixelBody x y c s = play (pixelActs s.cfg x y c) s := by
  unfold drawPixelBody pixelActs
  split
  · rw [← streamRect_eq ⟨x, y, 1, 1⟩ c s Nat.one_pos]
    have hx : x + ((1 : Nat) : Int) - 1 = x := by omega
    have hy : y + ((1 : Nat) : Int) - 1 = y := by omega
    simp only [streamRect, hx, hy, Nat.mul_one]
  · rfl

/-! ### Glyphs -/

theorem paint_eq (px py : Int) (size : Nat) (c : Word16) (s : State) :
    paint px py size c s = play (paintActs s.cfg px py size c) s := by
  unfold paint paintActs
  split
  · exact drawPixelBody_eq _ _ _ _
  · exact fillRectBody_eq _ _ _ _ _ _

theorem paintCells_eq (x y : Int) (size : Nat) (g : Glyph) (fg bg : Word16) (cells : List (Nat × Nat))
    (s : State) : paintCells x y size g fg bg cells s =
      play ((cells.filterMap fun c => if glyphBit g c.1 c.2 then some (c, fg)
        else if fg = bg then none else some (c, bg)).flatMap fun c =>
          paintActs s.cfg (x + c.1.1 * size) (y + c.1.2 * size) size c.2) s := by
  induction cells generalizing s with
  | nil => rfl
  | cons c rest ih =>
    unfold paintCells cellColor
    have step : ∀ color, (paint (x + c.1 * size) (y + c.2 * size) size color s).andThen
        (paintCells x y size g fg bg rest) =
        play (((c, color) :: rest.filterMap fun c => if glyphBit g c.1 c.2 then some (c, fg)
          else if fg = bg then none else some (c, bg)).flatMap fun c =>
          paintActs s.cfg (x + c.1.1 * size) (y + c.1.2 * size) size c.2) s := by
      intro color
      rw [List.flatMap_cons, play_append, paint_eq]
      refine andThen_congr fun t ht => ?_
      rw [ih, play_cfg ht]
    by_cases hb : glyphBit g c.1 c.2 = true
    · simp only [hb, if_true, List.filterMap_cons]
      exact step fg
    · by_cases hfb : fg = bg
      · subst hfb
        simp [hb, ih]
      · rw [List.filterMap_cons, if_neg hb, if_neg hb, if_neg hfb, if_pos (Ne.symm hfb)]
        exact step bg

theorem drawCharBody_eq (x y : Int) (ch : Byte) (fg bg : Word16) (size : Nat) (s : State) :
    drawCharBody x y ch fg bg size s = play (charActs s.cfg x y ch fg bg size) s := by
  unfold drawCharBody charActs
  split
  · rfl
  · exact paintCells_eq _ _ _ _ _ _ _ _

/-- The loop over the text plays the characters it renders and counts them. -/
theorem drawText_eq (text : List Byte) (col row : Nat) (fg bg : Word16) (size cnt : Nat) {s : State}
    (h : s.cfg.wf = true) : drawText text col row fg bg size cnt s =
      (play ((List.range (textCount text.length col size)).flatMap fun k =>
        charActs s.cfg (6 * (col + k * size) : Nat) (8 * row : Nat) (text.getD k 0x00#8) fg bg size)
        s).andThen fun t => .running (t.setRet (some (cnt + textCount text.length col size))) := by
  induction text generalizing col cnt s with
  | nil => rfl
  | cons ch rest ih =>
    have hf := wf_fixed h
    unfold drawText
    rw [drawCharBody_eq, hf.cellW, hf.cellH, Nat.mul_comm col 6, Nat.mul_comm row 8]
    have hc : ∀ t, play (charActs s.cfg (6 * col : Nat) (8 * row : Nat) ch fg bg size) s = .running t →
        t.cfg = s.cfg := fun t ht => play_cfg ht
    rw [List.length_cons, textCount]
    by_cases hlim : 20 < col + size
    · rw [if_pos hlim]
      have e : (List.range 1).flatMap (fun k => charActs s.cfg (6 * (col + k * size) : Nat)
          (8 * row : Nat) ((ch :: rest).getD k 0x00#8) fg bg size) =
          charActs s.cfg (6 * col : Nat) (8 * row : Nat) ch fg bg size := by
        simp [List.range_succ]
      rw [e]
      refine andThen_congr fun t ht => ?_
      rw [hc t ht, hf.maxTextCol, if_pos hlim]
    · rw [if_neg hlim]
      have e : (List.range (textCount rest.length (col + size) size + 1)).flatMap
          (fun k => charActs s.cfg (6 * (col + k * size) : Nat) (8 * row : Nat)
            ((ch :: rest).getD k 0x00#8) fg bg size) =
          charActs s.cfg (6 * col : Nat) (8 * row : Nat) ch fg bg size ++
          (List.range (textCount rest.length (col + size) size)).flatMap
            (fun k => charActs s.cfg (6 * (col + size + k * size) : Nat) (8 * row : Nat)
              (rest.getD k 0x00#8) fg bg size) := by
        rw [List.range_succ_eq_map, List.flatMap_cons, List.flatMap_map]
        congr 1
        · simp
        · refine List.flatMap_congr fun k _ => ?_
          have : col + Nat.succ k * size = col + size + k * size := by
            rw [Nat.succ_mul]; omega
          rw [this]; rfl
      rw [e, play_append, andThen_assoc]
      refine andThen_congr fun t ht => ?_
      rw [hc t ht, hf.maxTextCol, if_neg hlim, ih _ _ (by rw [hc t ht]; exact h), hc t ht]
      congr 1
      funext u
      congr 3; omega

/-- The loop's count in closed form (R208). -/
theorem textCount_eq (len col size : Nat) : textCount len col size =
    if 20 < col then min len 1 else if size = 0 then len else min len ((20 - col) / size + 1) := by
  induction len generalizing col with
  | zero => simp [textCount]
  | succ len ih =>
    rw [textCount, ih]
    by_cases h1 : 20 < col
    · have : 20 < col + size := by omega
      simp [h1, this]
    · by_cases h0 : size = 0
      · subst h0
        simp [h1]
      · by_cases h2 : 20 < col + size
        · have : (20 - col) / size = 0 := Nat.div_eq_of_lt (by omega)
          simp [h1, h0, h2, this]
        · have e : (20 - col) / size = (20 - (col + size)) / size + 1 := by
            rw [show 20 - col = (20 - (col + size)) + size by omega, Nat.add_div_right _ (by omega)]
          simp only [h1, h2, h0, if_false, e]
          omega

theorem drawStringBody_eq (col row : Nat) (text : List Byte) (fg bg : Word16) (size : Nat) {s : State}
    (h : s.cfg.wf = true) : drawStringBody col row text fg bg size s =
      (play (stringActs s.cfg col row text fg bg size) s).andThen fun t =>
        .running (t.setRet (some (renderedCount (cText text).length col row size))) := by
  unfold drawStringBody stringActs renderedCount
  rw [(wf_fixed h).maxTextRow]
  split
  · rfl
  · rw [drawText_eq _ _ _ _ _ _ _ h, textCount_eq, Nat.zero_add]

/-! ### exec -/

theorem admit_of_not_failed {s : State} (body : State → Run) (h : s.cfg.wf = true)
    (hp : s.phase ≠ .failed) : gate s body = .next (body s).state := by
  unfold gate
  rw [if_pos h]
  cases hph : s.phase with
  | failed => exact absurd hph hp
  | uninit => rfl
  | ready => rfl

theorem admitDrawing_of_ready {s : State} (sel : Byte) (body : State → Run) (h : s.cfg.wf = true)
    (hp : s.phase = .ready) : admitDrawing sel s body = .next (body s).state := by
  unfold admitDrawing
  rw [if_pos h, hp]; rfl

/-- An instruction of the block that is let run plays its script and concludes. -/
theorem exec_admitted {i : Instr} {s : State} (h : Admitted i s) :
    exec i s = .next ((play (script s.cfg i) s).andThen fun t => .running (conclude i t)).state := by
  obtain ⟨hwf, hfail, hdraw, hop⟩ := h
  cases i with
  | init => exact (admit_of_not_failed _ hwf hfail).trans (by rw [initBody_eq hwf]; rfl)
  | fillScreen color =>
    show execFillScreen color s = _
    unfold execFillScreen
    refine (admitDrawing_of_ready _ _ hwf (hdraw rfl)).trans ?_
    have hl := wf_legal hwf
    have := streamRect_eq ⟨0, 0, s.cfg.width, s.cfg.height⟩ color s (Nat.mul_pos hl.width hl.height)
    unfold fillScreenBody; rw [this]; rfl
  | fillRect x y w h color =>
    show execFillRect x y w h color s = _
    unfold execFillRect
    refine (admitDrawing_of_ready _ _ hwf (hdraw rfl)).trans ?_
    rw [fillRectBody_eq]; rfl
  | drawPixel x y color =>
    show execDrawPixel x y color s = _
    unfold execDrawPixel
    refine (admitDrawing_of_ready _ _ hwf (hdraw rfl)).trans ?_
    rw [drawPixelBody_eq]; rfl
  | drawChar x y ch fg bg size =>
    show execDrawChar x y ch fg bg size s = _
    unfold execDrawChar
    refine (admitDrawing_of_ready _ _ hwf (hdraw rfl)).trans ?_
    rw [drawCharBody_eq]; rfl
  | drawString col row text fg bg size =>
    show execDrawString col row text fg bg size s = _
    unfold execDrawString
    refine (admitDrawing_of_ready _ _ hwf (hdraw rfl)).trans ?_
    rw [drawStringBody_eq _ _ _ _ _ _ hwf]; rfl
  | reserved sel => exact hop.elim
  | sendCommand op =>
    show execSendCommand op s = _
    unfold execSendCommand
    refine (admit_of_not_failed _ hwf hfail).trans ?_
    rw [sendCommand_eq]; exact congrArg _ (congrArg _ (andThen_id _).symm)
  | sendParameters bs =>
    show execSendParameters bs s = _
    unfold execSendParameters
    refine (admit_of_not_failed _ hwf hfail).trans ?_
    rw [sendParameters_eq]; exact congrArg _ (congrArg _ (andThen_id _).symm)
  | selectWindow x0 y0 x1 y1 =>
    show execSelectWindow x0 y0 x1 y1 s = _
    unfold execSelectWindow
    rw [if_neg (by simp only [hop]; simp)]
    refine (admit_of_not_failed _ hwf hfail).trans ?_
    rw [selectWindow_eq]; exact congrArg _ (congrArg _ (andThen_id _).symm)
  | runInitSequence =>
    show execRunInitSequence s = _
    unfold execRunInitSequence
    refine (admit_of_not_failed _ hwf hfail).trans ?_
    rw [runInit_eq hwf]; exact congrArg _ (congrArg _ (andThen_id _).symm)
  | caset data => exact hop.elim
  | raset data => exact hop.elim
  | ramwr data => exact hop.elim

end Sys2Proof.Machine
end

