-- ==== Sys2Proof/Laws/Receiver.lean ====
section
/-! SUPPORT. The receiver's laws (43_panel_receiver.md): what a window selection leaves (R246), and what a pixel
stream that fits its window writes (R237 to R239). -/

namespace Sys2Proof.Machine

namespace Panel

/-- A panel that is in the middle of a memory write: `k` pixels of the window are written, with the values
`v 0`, `v 1`, … in row-major order over the old content `g`. -/
structure Writing (p : Panel) (xs xe ys ye : Word16) (g : List (Nat × List (Nat × Word16)))
    (v : Nat → Word16) (k : Nat) : Prop where
  rx   : p.rx = .memWrite
  half : p.half = none
  hxs  : p.xs = some xs
  hxe  : p.xe = some xe
  hys  : p.ys = some ys
  hye  : p.ye = some ye
  ptr  : k < (xe.toNat - xs.toNat + 1) * (ye.toNat - ys.toNat + 1) →
    ∃ cx cy : Word16, p.ptr = some (cx, cy)
    ∧ cx.toNat = xs.toNat + k % (xe.toNat - xs.toNat + 1)
    ∧ cy.toNat = ys.toNat + k / (xe.toNat - xs.toNat + 1)
  left : p.left = some ((xe.toNat - xs.toNat + 1) * (ye.toNat - ys.toNat + 1) - k)
  gram : ∀ c r, Gram.read p.gram c r =
    if xs.toNat ≤ c ∧ c ≤ xe.toNat ∧ ys.toNat ≤ r
      ∧ (r - ys.toNat) * (xe.toNat - xs.toNat + 1) + (c - xs.toNat) < k
    then some (v ((r - ys.toNat) * (xe.toNat - xs.toNat + 1) + (c - xs.toNat)))
    else Gram.read g c r

/-- The second byte of a pair writes the pixel `{first, second}` (R238). -/
theorem dataByte_pair {p : Panel} (hi lo : Byte) (hrx : p.rx = .memWrite) (hhalf : p.half = none) :
    (p.dataByte hi).dataByte lo = p.writePixel (joinBytes hi lo) := by
  obtain ⟨rx, xs, xe, ys, ye, ptr, half, left, gram⟩ := p
  subst hrx hhalf
  rfl

/-- R239: a pixel inside the window is written at the pointer, which advances. -/
theorem Writing.step {p : Panel} {xs xe ys ye : Word16} {g : List (Nat × List (Nat × Word16))}
    {v : Nat → Word16} {k : Nat} (h : Writing p xs xe ys ye g v k) (hx : xs.toNat ≤ xe.toNat)
    (hy : ys.toNat ≤ ye.toNat)
    (hk : k < (xe.toNat - xs.toNat + 1) * (ye.toNat - ys.toNat + 1)) :
    Writing (p.writePixel (v k)) xs xe ys ye g v (k + 1) := by
  obtain ⟨cx, cy, hptr, hcx, hcy⟩ := h.ptr hk
  obtain ⟨w, hw⟩ : ∃ w, w = xe.toNat - xs.toNat + 1 := ⟨_, rfl⟩
  obtain ⟨ht, hht⟩ : ∃ ht, ht = ye.toNat - ys.toNat + 1 := ⟨_, rfl⟩
  have hleft := h.left
  have hgram := h.gram
  rw [← hw, ← hht] at hk hleft
  rw [← hw] at hcx hcy hgram
  have hwpos : 0 < w := by omega
  obtain ⟨m, hm⟩ : ∃ m, w * ht - k = m + 1 := ⟨w * ht - k - 1, by omega⟩
  rw [hm] at hleft
  have hmod : k % w < w := Nat.mod_lt _ hwpos
  have hdiv : k / w < ht := by
    rw [Nat.div_lt_iff_lt_mul hwpos, Nat.mul_comm]; exact hk
  have hdm : w * (k / w) + k % w = k := Nat.div_add_mod k w
  have hxe := xe.isLt
  have hye := ye.isLt
  have hp : p.writePixel (v k) =
      { p with gram := Gram.write p.gram cx.toNat cy.toNat (v k), left := some m,
               ptr := some (advance cx cy xs xe) } := by
    unfold writePixel
    rw [hptr, hleft, h.hxs, h.hxe]
  rw [hp]
  refine ⟨h.rx, h.half, h.hxs, h.hxe, h.hys, h.hye, ?_, ?_, ?_⟩
  · rw [← hw, ← hht]
    intro hk1
    have hdiv1 : (k + 1) / w < ht := by
      rw [Nat.div_lt_iff_lt_mul hwpos, Nat.mul_comm]; exact hk1
    unfold advance
    by_cases hend : xe.toNat < cx.toNat + 1
    · refine ⟨xs, cy + 1, by simp [hend], ?_, ?_⟩
      · have hkw : k % w = w - 1 := by omega
        have : (k + 1) % w = 0 := by
          rw [← hdm, hkw, Nat.add_assoc, show w - 1 + 1 = w by omega]
          simp
        omega
      · have hkw : k % w = w - 1 := by omega
        have : (k + 1) / w = k / w + 1 := by
          conv => lhs; rw [← hdm, hkw, Nat.add_assoc, show w - 1 + 1 = w by omega]
          rw [show w * (k / w) + w = w * (k / w + 1) by ring, Nat.mul_div_cancel_left _ hwpos]
        rw [this, BitVec.toNat_add]
        have : (1 : Word16).toNat = 1 := rfl
        rw [this, Nat.mod_eq_of_lt] <;> omega
    · refine ⟨cx + 1, cy, by simp [hend], ?_, ?_⟩
      · have : (k + 1) % w = k % w + 1 := by
          conv => lhs; rw [← hdm, Nat.add_assoc]
          rw [Nat.mul_add_mod, Nat.mod_eq_of_lt (by omega)]
        rw [this, BitVec.toNat_add]
        have : (1 : Word16).toNat = 1 := rfl
        rw [this, Nat.mod_eq_of_lt] <;> omega
      · have : (k + 1) / w = k / w := by
          conv => lhs; rw [← hdm, Nat.add_assoc]
          rw [Nat.mul_add_div hwpos, Nat.div_eq_of_lt (show k % w + 1 < w by omega), Nat.add_zero]
        rw [this]; exact hcy
  · show some m = _
    rw [← hw, ← hht]
    congr 1; omega
  · intro c r
    show Gram.read (Gram.write p.gram cx.toNat cy.toNat (v k)) c r = _
    rw [← hw]
    by_cases hcell : c = cx.toNat ∧ r = cy.toNat
    · obtain ⟨rfl, rfl⟩ := hcell
      rw [Gram.read_write_same]
      have e : (cy.toNat - ys.toNat) * w + (cx.toNat - xs.toNat) = k := by
        rw [hcx, hcy, Nat.add_sub_cancel_left, Nat.add_sub_cancel_left, Nat.mul_comm]; exact hdm
      rw [e, if_pos]
      exact ⟨by omega, by omega, hcy ▸ Nat.le_add_right _ _, Nat.lt_succ_self k⟩
    · rw [Gram.read_write_other _ _ (not_and_or.1 hcell), hgram]
      by_cases hin : xs.toNat ≤ c ∧ c ≤ xe.toNat ∧ ys.toNat ≤ r
      · have hne : (r - ys.toNat) * w + (c - xs.toNat) ≠ k := by
          intro hk'
          apply hcell
          have hlt : c - xs.toNat < w := by omega
          have hkm : k % w = c - xs.toNat := by
            rw [← hk', Nat.mul_comm, Nat.mul_add_mod, Nat.mod_eq_of_lt hlt]
          have hkd : k / w = r - ys.toNat := by
            rw [← hk', Nat.mul_comm, Nat.mul_add_div hwpos, Nat.div_eq_of_lt hlt, Nat.add_zero]
          omega
        by_cases hlt : (r - ys.toNat) * w + (c - xs.toNat) < k
        · rw [if_pos ⟨hin.1, hin.2.1, hin.2.2, hlt⟩, if_pos ⟨hin.1, hin.2.1, hin.2.2, by omega⟩]
        · rw [if_neg (fun hh => hlt hh.2.2.2), if_neg (fun hh => hlt (by omega))]
      · rw [if_neg (fun hh => hin ⟨hh.1, hh.2.1, hh.2.2.1⟩),
          if_neg (fun hh => hin ⟨hh.1, hh.2.1, hh.2.2.1⟩)]

/-- The bytes of a pixel stream whose pixel `k` has the wire value `v k`, high byte first (R238). -/
def streamBytes (v : Nat → Word16) (start n : Nat) : List Byte :=
  (List.range n).flatMap fun i => [hiByte (v (start + i)), loByte (v (start + i))]

theorem joinBytes_split (x : Word16) : joinBytes (hiByte x) (loByte x) = x := by
  unfold joinBytes hiByte loByte
  refine BitVec.eq_of_getLsbD_eq fun i hi => ?_
  rw [BitVec.getLsbD_append]
  by_cases h : i < 8
  · simp [h]
  · have : i - 8 < 8 := by omega
    simp [h, this, show 8 + (i - 8) = i by omega]

/-- R237 to R239: `n` pixels that fit the window are written in row-major order. -/
theorem Writing.stream {xs xe ys ye : Word16} {g : List (Nat × List (Nat × Word16))}
    {v : Nat → Word16} (hx : xs.toNat ≤ xe.toNat) (hy : ys.toNat ≤ ye.toNat)
    (n : Nat) {p : Panel} {k : Nat} (h : Writing p xs xe ys ye g v k)
    (hk : k + n ≤ (xe.toNat - xs.toNat + 1) * (ye.toNat - ys.toNat + 1)) :
    Writing ((streamBytes v k n).foldl dataByte p) xs xe ys ye g v (k + n) := by
  induction n generalizing p k with
  | zero => exact h
  | succ n ih =>
    have e : streamBytes v k (n + 1) =
        hiByte (v k) :: loByte (v k) :: streamBytes v (k + 1) n := by
      unfold streamBytes
      rw [List.range_succ_eq_map, List.flatMap_cons, List.flatMap_map]
      simp [Nat.add_assoc, Nat.add_comm 1]
    rw [e, List.foldl_cons, List.foldl_cons, dataByte_pair _ _ h.rx h.half, joinBytes_split]
    have := ih (h.step hx hy (by omega)) (by omega)
    rwa [show k + 1 + n = k + (n + 1) by omega] at this

/-- R235: CASET and its four parameters set the column registers, and nothing else of the window, the
pointer or the RAM. -/
theorem receive_caset {cfg : Config} (p : Panel) (b0 b1 b2 b3 : Byte) :
    (p.receive cfg .command [cfg.opCaset]).receive cfg .data [b0, b1, b2, b3] =
      { p.endPhase with
        rx := .idle, xs := some (joinBytes b0 b1), xe := some (joinBytes b2 b3) } := by
  simp [receive, commandByte, dataByte, paramByte, setWindow]

/-- R236: RASET and its four parameters set the row registers. -/
theorem receive_raset {cfg : Config} (h : cfg.opCaset ≠ cfg.opRaset) (p : Panel)
    (b0 b1 b2 b3 : Byte) :
    (p.receive cfg .command [cfg.opRaset]).receive cfg .data [b0, b1, b2, b3] =
      { p.endPhase with
        rx := .idle, ys := some (joinBytes b0 b1), ye := some (joinBytes b2 b3) } := by
  simp [receive, commandByte, dataByte, paramByte, setWindow, Ne.symm h]

/-- R237: RAMWR ends the phase and opens the memory write. -/
theorem receive_ramwr {cfg : Config} (h : cfg.opCaset ≠ cfg.opRamwr)
    (h' : cfg.opRaset ≠ cfg.opRamwr) (p : Panel) :
    p.receive cfg .command [cfg.opRamwr] = p.endPhase.startWrite := by
  simp [receive, commandByte, Ne.symm h, Ne.symm h']

/-- R234: outside a pending parameter list, ending a phase only drops the half pixel. -/
theorem endPhase_of_idle {p : Panel} (h : p.rx = .idle) : p.endPhase = { p with half := none } := by
  simp [endPhase, h]

/-- R234: ending a phase leaves the pointer and the RAM alone. -/
theorem endPhase_gram (p : Panel) :
    p.endPhase.gram = p.gram ∧ p.endPhase.ptr = p.ptr ∧ p.endPhase.left = p.left := by
  unfold endPhase
  split
  · rename_i reg buf _
    split
    · cases reg <;> simp [setWindow]
    · simp
  all_goals simp

/-- R234: an opcode drops a pending half pixel. -/
@[simp] theorem endPhase_half (p : Panel) : p.endPhase.half = none := by
  unfold endPhase
  split
  · split <;> rfl
  all_goals rfl

/-- R234: ending a phase other than a parameter list drops the half pixel and nothing else. -/
theorem endPhase_of_no_param {p : Panel} (h : ∀ reg buf, p.rx ≠ .param reg buf) :
    p.endPhase = { p with half := none } := by
  unfold endPhase
  split
  · rename_i reg buf hrx; exact absurd hrx (h reg buf)
  all_goals rfl

/-- R234: a column parameter list touches no row register. -/
theorem endPhase_rows {p : Panel} (h : ∀ buf, p.rx ≠ .param .row buf) :
    p.endPhase.ys = p.ys ∧ p.endPhase.ye = p.ye := by
  unfold endPhase
  split
  · rename_i reg buf hrx
    cases reg
    · split <;> exact ⟨rfl, rfl⟩
    · exact absurd hrx (h buf)
  all_goals exact ⟨rfl, rfl⟩

/-- R234: a row parameter list touches no column register. -/
theorem endPhase_columns {p : Panel} (h : ∀ buf, p.rx ≠ .param .column buf) :
    p.endPhase.xs = p.xs ∧ p.endPhase.xe = p.xe := by
  unfold endPhase
  split
  · rename_i reg buf hrx
    cases reg
    · exact absurd hrx (h buf)
    · split <;> exact ⟨rfl, rfl⟩
  all_goals exact ⟨rfl, rfl⟩

/-- R134, R235 to R237: what the receiver holds after the five transactions of a window selection, whatever
it held before. -/
theorem window_observe {cfg : Config} (hl : LegalConfig cfg) (p : Panel) (x0 y0 x1 y1 : Int)
    (hx : joinBytes 0x00#8 (byteOf (x0 + cfg.offsetX)) ≤ joinBytes 0x00#8 (byteOf (x1 + cfg.offsetX)))
    (hy : joinBytes 0x00#8 (byteOf (y0 + cfg.offsetY)) ≤ joinBytes 0x00#8 (byteOf (y1 + cfg.offsetY))) :
    (windowEvents cfg x0 y0 x1 y1).foldl (observe cfg) p =
      { rx := .memWrite
        xs := some (joinBytes 0x00#8 (byteOf (x0 + cfg.offsetX)))
        xe := some (joinBytes 0x00#8 (byteOf (x1 + cfg.offsetX)))
        ys := some (joinBytes 0x00#8 (byteOf (y0 + cfg.offsetY)))
        ye := some (joinBytes 0x00#8 (byteOf (y1 + cfg.offsetY)))
        ptr := some (joinBytes 0x00#8 (byteOf (x0 + cfg.offsetX)),
          joinBytes 0x00#8 (byteOf (y0 + cfg.offsetY)))
        half := none
        left := some (((joinBytes 0x00#8 (byteOf (x1 + cfg.offsetX))).toNat
          - (joinBytes 0x00#8 (byteOf (x0 + cfg.offsetX))).toNat + 1)
          * ((joinBytes 0x00#8 (byteOf (y1 + cfg.offsetY))).toNat
          - (joinBytes 0x00#8 (byteOf (y0 + cfg.offsetY))).toNat + 1))
        gram := p.gram } := by
  have hg := (endPhase_gram p).1
  simp only [windowEvents, okCommand, List.foldl_cons, List.foldl_nil, observe]
  rw [receive_caset, receive_raset hl.casetRaset, receive_ramwr hl.casetRamwr hl.rasetRamwr,
    endPhase_of_idle rfl, endPhase_of_idle rfl]
  simp [startWrite, hx, hy, hg]

/-- R93: under a legal configuration a window byte is exact. -/
theorem windowWord_toNat {v : Int} {off : Nat} (h0 : 0 ≤ v) (h1 : v + off ≤ 255) :
    (joinBytes 0x00#8 (byteOf (v + off))).toNat = v.toNat + off := by
  obtain ⟨n, rfl⟩ := Int.eq_ofNat_of_zero_le h0
  unfold joinBytes byteOf
  rw [BitVec.toNat_append, BitVec.toNat_ofInt]
  simp
  omega

/-- R93, R246: the window word of a coordinate, as an address. -/
theorem windowWord_eq {v : Int} {off : Nat} (h0 : 0 ≤ v) (h1 : v + off ≤ 255) :
    joinBytes 0x00#8 (byteOf (v + off)) = BitVec.ofNat 16 (v.toNat + off) := by
  refine BitVec.eq_of_toNat_eq ?_
  rw [windowWord_toNat h0 h1, BitVec.toNat_ofNat, Nat.mod_eq_of_lt]
  omega

/-- R246: what the receiver holds after a window selection inside the panel: a memory write with no pixel
written yet. -/
theorem window_writing {cfg : Config} (hl : LegalConfig cfg) (p : Panel) {x0 y0 x1 y1 : Int}
    (hw : windowInPanel cfg x0 y0 x1 y1 = true) (v : Nat → Word16) :
    Writing ((windowEvents cfg x0 y0 x1 y1).foldl (observe cfg) p)
      (joinBytes 0x00#8 (byteOf (x0 + cfg.offsetX))) (joinBytes 0x00#8 (byteOf (x1 + cfg.offsetX)))
      (joinBytes 0x00#8 (byteOf (y0 + cfg.offsetY))) (joinBytes 0x00#8 (byteOf (y1 + cfg.offsetY)))
      p.gram v 0 := by
  simp only [windowInPanel, Bool.and_eq_true, decide_eq_true_eq] at hw
  have hox := hl.offsetX
  have hoy := hl.offsetY
  have e1 := windowWord_toNat (v := x0) (off := cfg.offsetX) (by omega) (by omega)
  have e2 := windowWord_toNat (v := x1) (off := cfg.offsetX) (by omega) (by omega)
  have e3 := windowWord_toNat (v := y0) (off := cfg.offsetY) (by omega) (by omega)
  have e4 := windowWord_toNat (v := y1) (off := cfg.offsetY) (by omega) (by omega)
  rw [window_observe hl p x0 y0 x1 y1 (by rw [BitVec.le_def]; omega) (by rw [BitVec.le_def]; omega)]
  refine ⟨rfl, rfl, rfl, rfl, rfl, rfl, fun _ => ⟨_, _, rfl, by simp, by simp⟩, by simp, fun c r => ?_⟩
  rw [if_neg (fun hh => by omega)]

/-- A stream of one colour, low byte first (R94), as a stream of wire values (R238). -/
theorem pixelBytes_eq_stream (n : Nat) (c : Word16) :
    pixelBytes n c = streamBytes (fun _ => joinBytes (loByte c) (hiByte c)) 0 n := by
  have h1 : hiByte (joinBytes (loByte c) (hiByte c)) = loByte c := by
    unfold joinBytes hiByte; exact BitVec.extractLsb'_append_eq_left
  have h2 : loByte (joinBytes (loByte c) (hiByte c)) = hiByte c := by
    unfold joinBytes loByte; exact BitVec.extractLsb'_append_eq_right
  unfold pixelBytes streamBytes
  simp only [h1, h2]
  induction n with
  | zero => rfl
  | succ n ih => rw [List.replicate_succ', List.flatten_append, ih, List.range_succ, List.flatMap_append]; simp

/-- R179, R246: what a rectangle leaves on the controller: every cell of its window holds the colour's wire
value, every other cell is as before, and the window is full. -/
theorem rect_writing {cfg : Config} (hl : LegalConfig cfg) (p : Panel) {x y : Int} {w h : Nat}
    (c : Word16) (hx : 0 ≤ x) (hy : 0 ≤ y) (hw : 0 < w) (hh : 0 < h) (hxw : x + w ≤ cfg.width)
    (hyh : y + h ≤ cfg.height) :
    Writing ((rectEvents cfg x y w h c).foldl (observe cfg) p)
      (joinBytes 0x00#8 (byteOf (x + cfg.offsetX)))
      (joinBytes 0x00#8 (byteOf (x + w - 1 + cfg.offsetX)))
      (joinBytes 0x00#8 (byteOf (y + cfg.offsetY)))
      (joinBytes 0x00#8 (byteOf (y + h - 1 + cfg.offsetY)))
      p.gram (fun _ => joinBytes (loByte c) (hiByte c)) (w * h) := by
  have hox := hl.offsetX
  have hoy := hl.offsetY
  have hin : windowInPanel cfg x y (x + w - 1) (y + h - 1) = true := by
    simp only [windowInPanel, Bool.and_eq_true, decide_eq_true_eq]; omega
  have e1 := windowWord_toNat (v := x) (off := cfg.offsetX) (by omega) (by omega)
  have e2 := windowWord_toNat (v := x + w - 1) (off := cfg.offsetX) (by omega) (by omega)
  have e3 := windowWord_toNat (v := y) (off := cfg.offsetY) (by omega) (by omega)
  have e4 := windowWord_toNat (v := y + h - 1) (off := cfg.offsetY) (by omega) (by omega)
  have hww := window_writing hl p hin (fun _ => joinBytes (loByte c) (hiByte c))
  unfold rectEvents
  rw [List.foldl_append, List.foldl_cons, List.foldl_nil]
  show Writing (receive cfg .data (pixelBytes (w * h) c) _) _ _ _ _ _ _ _
  unfold receive
  simp only
  rw [pixelBytes_eq_stream]
  have := Writing.stream (by omega) (by omega) (w * h) hww (by
    rw [e1, e2, e3, e4, Nat.zero_add]
    refine le_of_eq ?_
    congr 1 <;> omega)
  rwa [Nat.zero_add] at this

/-! ### The window of the moment (R240) -/

/-- Inside a known window that is not inverted. -/
theorem inWindow_of {p : Panel} {xs xe ys ye : Word16} (h1 : p.xs = some xs) (h2 : p.xe = some xe)
    (h3 : p.ys = some ys) (h4 : p.ye = some ye) (hx : xs ≤ xe) (hy : ys ≤ ye) (c r : Nat) :
    p.inWindow c r = (decide (xs.toNat ≤ c) && decide (c ≤ xe.toNat) && decide (ys.toNat ≤ r)
      && decide (r ≤ ye.toNat)) := by
  unfold inWindow; rw [h1, h2, h3, h4]; simp only [hx, hy]; rfl

/-- Every cell counts as inside an unknown window. -/
theorem inWindow_unknown {p : Panel} (h : p.xs = none ∨ p.xe = none ∨ p.ys = none ∨ p.ye = none)
    (c r : Nat) : p.inWindow c r = true := by
  unfold inWindow
  split
  · simp_all
  · rfl

/-- Every cell counts as inside an inverted window (log 13). -/
theorem inWindow_inverted {p : Panel} {xs xe ys ye : Word16} (h1 : p.xs = some xs)
    (h2 : p.xe = some xe) (h3 : p.ys = some ys) (h4 : p.ye = some ye) (h : xe < xs ∨ ye < ys)
    (c r : Nat) : p.inWindow c r = true := by
  unfold inWindow; rw [h1, h2, h3, h4]
  simp only
  rw [if_neg]
  rintro ⟨a, b⟩
  rcases h with h | h
  · exact absurd a (by simpa using h)
  · exact absurd b (by simpa using h)

/-- R237, R246: RAMWR with a known window. -/
theorem startWrite_eq {p : Panel} {xs xe ys ye : Word16} (h1 : p.xs = some xs) (h2 : p.xe = some xe)
    (h3 : p.ys = some ys) (h4 : p.ye = some ye) (hx : xs ≤ xe) (hy : ys ≤ ye) :
    p.startWrite = { p with
      rx := .memWrite
      half := none
      ptr := some (xs, ys)
      left := some ((xe.toNat - xs.toNat + 1) * (ye.toNat - ys.toNat + 1)) } := by
  unfold startWrite; rw [h1, h2, h3, h4]; simp [hx, hy]

/-- R237: RAMWR with a known window begins a memory write of no pixel yet. -/
theorem startWrite_writing {p : Panel} {xs xe ys ye : Word16} (h1 : p.xs = some xs)
    (h2 : p.xe = some xe) (h3 : p.ys = some ys) (h4 : p.ye = some ye) (hx : xs ≤ xe) (hy : ys ≤ ye)
    (v : Nat → Word16) : p.startWrite.Writing xs xe ys ye p.gram v 0 := by
  rw [startWrite_eq h1 h2 h3 h4 hx hy]
  exact ⟨rfl, rfl, h1, h2, h3, h4, fun _ => ⟨xs, ys, rfl, by simp, by simp⟩, rfl, fun c r => by simp⟩

/-- A list of pixels as a pixel stream. -/
theorem stream_of_list (pixels : List Word16) : (pixels.flatMap fun v => [hiByte v, loByte v]) =
    streamBytes (fun k => pixels.getD k 0) 0 pixels.length := by
  unfold streamBytes
  conv_lhs => rw [show pixels = (List.range pixels.length).map (fun k => pixels.getD k 0) from
    List.ext_getElem (by simp) (fun i h1 h2 => by simp [List.getD, h1])]
  rw [List.flatMap_map]
  simp

/-- R234: data bytes in phase IDLE have no effect. -/
theorem data_idle {p : Panel} (h : p.rx = .idle) (bs : List Byte) : bs.foldl dataByte p = p := by
  induction bs with
  | nil => rfl
  | cons b bs ih => rw [List.foldl_cons, show p.dataByte b = p by unfold dataByte; rw [h], ih]

/-- R235: fewer than four parameter bytes are kept. -/
theorem data_short {p : Panel} {reg : WinReg} (h : p.rx = .param reg []) {data : List Byte}
    (hd : data.length < 4) : data.foldl dataByte p = { p with rx := .param reg data } := by
  obtain ⟨rx, xs, xe, ys, ye, ptr, half, left, gram⟩ := p
  subst h
  match data, hd with
  | [], _ => rfl
  | [a], _ => rfl
  | [a, b], _ => rfl
  | [a, b, c], _ => rfl

/-- R235: what ending the phase left unknown of the columns, no opcode makes known. -/
theorem commandByte_columns (cfg : Config) (p : Panel) (op : Byte) :
    (p.endPhase.xs = none → (commandByte cfg p op).xs = none) ∧
      (p.endPhase.xe = none → (commandByte cfg p op).xe = none) := by
  unfold commandByte startWrite otherCommand
  constructor <;> intro h <;> (repeat' split) <;> first | exact h | rfl

/-- R236: the same of the rows. -/
theorem commandByte_rows (cfg : Config) (p : Panel) (op : Byte) :
    (p.endPhase.ys = none → (commandByte cfg p op).ys = none) ∧
      (p.endPhase.ye = none → (commandByte cfg p op).ye = none) := by
  unfold commandByte startWrite otherCommand
  constructor <;> intro h <;> (repeat' split) <;> first | exact h | rfl

end Panel

end Sys2Proof.Machine
end

