-- ==== Sys2Proof/Laws/Decode.lean ====
section
/-! SUPPORT. The byte layout of frames: an operand within its width survives encoding and parsing, and parsed
operands encode to the bytes they were parsed from (30_encoding.md R98 to R101). -/

namespace Sys2Proof

/-! ### Values and their fields -/

theorem wordOf_toNat (v : Word16) : wordOf v.toNat = v := by
  unfold wordOf; rw [BitVec.ofInt_natCast]; simp

theorem wordOf_toInt (v : Word16) : wordOf v.toInt = v := by simp [wordOf]

theorem byteOf_toNat (v : Byte) : byteOf v.toNat = v := by
  unfold byteOf; rw [BitVec.ofInt_natCast]; simp

theorem toNat_byteOf {v : Int} (h : 0 ≤ v ∧ v ≤ 255) : ((byteOf v).toNat : Int) = v := by
  unfold byteOf; rw [BitVec.toNat_ofInt]; omega

theorem toNat_wordOf {v : Int} (h : 0 ≤ v ∧ v ≤ 65535) : ((wordOf v).toNat : Int) = v := by
  unfold wordOf; rw [BitVec.toNat_ofInt]; omega

theorem toInt_wordOf {v : Int} (h : -32768 ≤ v ∧ v ≤ 32767) : (wordOf v).toInt = v := by
  unfold wordOf
  rw [BitVec.toInt_ofInt, Int.bmod_eq_of_le (by simp; omega) (by simp; omega)]

theorem hiByte_joinBytes (hi lo : Byte) : hiByte (joinBytes hi lo) = hi := by
  unfold hiByte joinBytes
  refine BitVec.eq_of_getLsbD_eq fun i hi' => ?_
  rw [BitVec.getLsbD_extractLsb', BitVec.getLsbD_append, if_neg (by omega)]
  simp [hi']

theorem loByte_joinBytes (hi lo : Byte) : loByte (joinBytes hi lo) = lo := by
  unfold loByte joinBytes
  refine BitVec.eq_of_getLsbD_eq fun i hi' => ?_
  rw [BitVec.getLsbD_extractLsb', BitVec.getLsbD_append, if_pos (by omega)]
  simp [hi']

theorem wordBytes_joinBytes (hi lo : Byte) : wordBytes (joinBytes hi lo) = [hi, lo] := by
  rw [wordBytes, hiByte_joinBytes, loByte_joinBytes]

/-- A text without a zero byte is read to its end (R100). -/
theorem cText_of_all {t : List Byte} (h : t.all (fun b => decide (b ≠ 0x00#8)) = true) :
    cText t = t := by
  unfold cText
  rw [List.takeWhile_eq_self_iff]; simpa using h

theorem cText_all (t : List Byte) : (cText t).all (fun b => decide (b ≠ 0x00#8)) = true := by
  unfold cText; rw [List.all_takeWhile]

/-! ### Encoding, then parsing -/

/-- The operand stands within the field of its shape, which its bytes then fill exactly. -/
def Operand.exact : Shape → Operand → Prop
  | .u8, .int v => 0 ≤ v ∧ v ≤ 255
  | .u16, .int v => 0 ≤ v ∧ v ≤ 65535
  | .s16, .int v => -32768 ≤ v ∧ v ≤ 32767
  | .coord, .int v => -32768 ≤ v ∧ v ≤ 32767
  | .text, .bytes t => t.all (fun b => decide (b ≠ 0x00#8)) = true
  | _, _ => False

theorem byteOperand_exact (v : Byte) : (byteOperand v).exact .u8 := by
  have := v.isLt; simp only [byteOperand, Operand.exact]; omega

theorem unsignedOperand_exact (v : Word16) : (unsignedOperand v).exact .u16 := by
  have := v.isLt; simp only [unsignedOperand, Operand.exact]; omega

theorem signedOperand_exact (v : Word16) : (signedOperand v).exact .s16 := by
  have := v.toInt_lt; have := v.le_toInt
  simp only [signedOperand, Operand.exact]; simp at *; omega

theorem parse_text {t : List Byte} (h : t.all (fun b => decide (b ≠ 0x00#8)) = true) (ss : List Shape)
    (bs : List Byte) : parseFields (.text :: ss) (t ++ 0x00#8 :: bs) =
      (parseFields ss bs).map fun p => (.bytes t :: p.1, p.2) := by
  have h1 : (t ++ 0x00#8 :: bs).dropWhile (fun b => decide (b ≠ 0x00#8)) = 0x00#8 :: bs := by
    rw [List.dropWhile_append_of_pos (by simpa using h)]; rfl
  have h2 : cText (t ++ 0x00#8 :: bs) = t := by
    unfold cText
    rw [List.takeWhile_append_of_pos (by simpa using h)]; simp
  rw [parseFields, h1, h2]

/-- One operand survives. -/
theorem parse_encodeField {s : Shape} {o : Operand} (h : o.exact s) (ss : List Shape)
    (bs : List Byte) : parseFields (s :: ss) (encodeField s o ++ bs) =
      (parseFields ss bs).map fun p => (o :: p.1, p.2) := by
  match s, o, h with
  | .u8, .int v, h => simp [encodeField, parseFields, toNat_byteOf h]
  | .u16, .int v, h =>
    simp [encodeField, wordBytes, parseFields, Machine.Panel.joinBytes_split, toNat_wordOf h]
  | .s16, .int v, h =>
    simp [encodeField, wordBytes, parseFields, Machine.Panel.joinBytes_split, toInt_wordOf h]
  | .coord, .int v, h =>
    simp [encodeField, wordBytes, parseFields, Machine.Panel.joinBytes_split, toInt_wordOf h]
  | .text, .bytes t, h => rw [encodeField, List.append_assoc]; exact parse_text h ss bs

theorem parse_nil : parseFields [] (encodeFields [] []) = some ([], []) := rfl

theorem parse_rest (bs : List Byte) :
    parseFields [.rest] (encodeFields [.rest] [.bytes bs]) = some ([.bytes bs], []) := by
  simp [encodeFields, encodeField, parseFields]

/-- An operand in front of operands that survive. -/
theorem parse_cons {s : Shape} {o : Operand} {ss : List Shape} {os : List Operand} (h : o.exact s)
    (ht : parseFields ss (encodeFields ss os) = some (os, [])) :
    parseFields (s :: ss) (encodeFields (s :: ss) (o :: os)) = some (o :: os, []) := by
  rw [encodeFields, parse_encodeField h, ht]; rfl

/-! ### Parsing, then encoding -/

/-- R98 to R100: `rest` stands only last. -/
def restLast : List Shape → Bool
  | [] => true
  | [.rest] => true
  | .rest :: _ :: _ => false
  | _ :: ss => restLast ss

theorem cText_append_dropWhile (bs : List Byte) {b : Byte} {after : List Byte}
    (h : bs.dropWhile (fun b => decide (b ≠ 0x00#8)) = b :: after) : cText bs ++ 0x00#8 :: after = bs := by
  have hb : b = 0x00#8 := by
    have hn : bs.dropWhile (fun b : Byte => decide (b ≠ 0x00#8)) ≠ [] := by rw [h]; simp
    have hh := List.head_dropWhile_not (fun b : Byte => decide (b ≠ 0x00#8)) hn
    have he : (bs.dropWhile fun b : Byte => decide (b ≠ 0x00#8)).head hn = b := by
      simp only [h, List.head_cons]
    rw [he] at hh
    simpa using hh
  unfold cText
  conv_rhs => rw [← List.takeWhile_append_dropWhile (p := fun b : Byte => decide (b ≠ 0x00#8)) (l := bs)]
  rw [h, hb]

/-- Parsed operands encode to the bytes they came from, and stand within their fields. -/
theorem encode_parse {ss : List Shape} {bs left : List Byte} {os : List Operand}
    (hr : restLast ss = true) (h : parseFields ss bs = some (os, left)) :
    encodeFields ss os ++ left = bs := by
  induction ss generalizing bs os with
  | nil => simp only [parseFields, Option.some.injEq, Prod.mk.injEq] at h; rw [← h.1, ← h.2]; rfl
  | cons s ss ih =>
    have step : ∀ {o : Operand} {bs' : List Byte}, s ≠ .rest →
        (parseFields ss bs').map (fun p => (o :: p.1, p.2)) = some (os, left) →
        encodeFields (s :: ss) os ++ left = encodeField s o ++ bs' := by
      intro o bs' hs hm
      obtain ⟨⟨os', left'⟩, hp, he⟩ := Option.map_eq_some_iff.1 hm
      cases he
      rw [encodeFields, List.append_assoc, ih (by cases s <;> first | exact hr | exact absurd rfl hs) hp]
    cases s with
    | u8 =>
      cases bs with
      | nil => simp [parseFields] at h
      | cons b bs => rw [step (by simp) h, encodeField, byteOf_toNat]; rfl
    | u16 =>
      match bs, h with
      | hi :: lo :: bs, h =>
        rw [step (by simp) h, encodeField, wordOf_toNat, wordBytes_joinBytes]; rfl
    | s16 =>
      match bs, h with
      | hi :: lo :: bs, h =>
        rw [step (by simp) h, encodeField, wordOf_toInt, wordBytes_joinBytes]; rfl
    | coord =>
      match bs, h with
      | hi :: lo :: bs, h =>
        rw [step (by simp) h, encodeField, wordOf_toInt, wordBytes_joinBytes]; rfl
    | text =>
      rw [parseFields] at h
      split at h
      · simp at h
      · rename_i after hd
        rw [step (by simp) h, encodeField, List.append_assoc]
        exact cText_append_dropWhile bs hd
    | rest =>
      cases ss with
      | nil => simp [parseFields] at h; rw [← h.1, h.2]; simp [encodeFields, encodeField]
      | cons _ _ => simp [restLast] at hr

/-- What stands within its field fits its width (R101). -/
theorem fits_of_exact {s : Shape} {o : Operand} (h : o.exact s) : fits s o = true := by
  match s, o, h with
  | .u8, .int v, h => simpa [fits, Operand.exact] using h
  | .u16, .int v, h => simpa [fits, Operand.exact] using h
  | .s16, .int v, h => simpa [fits, Operand.exact] using h
  | .coord, .int v, h => rfl
  | .text, .bytes t, h => rfl

/-- A parsed text has no zero byte (R100). -/
theorem parse_text_free {ss : List Shape} {bs left : List Byte} {os : List Operand}
    (h : parseFields ss bs = some (os, left)) (t : List Byte)
    (hm : (Shape.text, Operand.bytes t) ∈ ss.zip os) :
    t.all (fun b => decide (b ≠ 0x00#8)) = true := by
  induction ss generalizing bs os with
  | nil => simp at hm
  | cons s ss ih =>
    have step : ∀ {o : Operand} {bs' : List Byte},
        (s = .text → ∀ u, o = .bytes u → u.all (fun b => decide (b ≠ 0x00#8)) = true) →
        (parseFields ss bs').map (fun p => (o :: p.1, p.2)) = some (os, left) →
        t.all (fun b => decide (b ≠ 0x00#8)) = true := by
      intro o bs' ho hm'
      obtain ⟨⟨os', left'⟩, hp, he⟩ := Option.map_eq_some_iff.1 hm'
      cases he
      rw [List.zip_cons_cons, List.mem_cons] at hm
      rcases hm with hm | hm
      · simp only [Prod.mk.injEq] at hm
        exact ho hm.1.symm t hm.2.symm
      · exact ih hp hm
    cases s with
    | u8 =>
      match bs, h with
      | b :: bs, h => exact step (by simp) h
    | u16 =>
      match bs, h with
      | _ :: _ :: bs, h => exact step (by simp) h
    | s16 =>
      match bs, h with
      | _ :: _ :: bs, h => exact step (by simp) h
    | coord =>
      match bs, h with
      | _ :: _ :: bs, h => exact step (by simp) h
    | text =>
      rw [parseFields] at h
      split at h
      · simp at h
      · exact step (fun _ u hu => by cases hu; exact cText_all bs) h
    | rest => exact step (by simp) h

/-- A byte by its number. -/
theorem byte_eq {b : Byte} {n : Nat} (h : b.toNat = n) : b = BitVec.ofNat 8 n := by rw [← h]; simp

/-- The shapes of every frame end in `rest` or have none. -/
theorem restLast_shapes (port : Port) (h : Byte) : restLast (shapesOf port h) = true := by
  cases port
  · unfold shapesOf requestShapes; dsimp only; split <;> rfl
  · unfold shapesOf microShapes; dsimp only; split <;> rfl
  · rfl

/-- No frame begins with a text. -/
theorem shapes_head (port : Port) (h : Byte) : (shapesOf port h).head? ≠ some .text := by
  cases port
  · unfold shapesOf requestShapes; dsimp only; split <;> simp
  · unfold shapesOf microShapes; dsimp only; split <;> simp
  · simp [shapesOf]

/-- An operand that was decoded and is encoded again gives the same bytes. -/
theorem encodeField_byteOf (v : Int) :
    encodeField .u8 (byteOperand (byteOf v)) = encodeField .u8 (.int v) := by
  simp only [encodeField, byteOperand, byteOf_toNat]

theorem encodeField_unsigned (v : Int) :
    encodeField .u16 (unsignedOperand (wordOf v)) = encodeField .u16 (.int v) := by
  simp only [encodeField, unsignedOperand, wordOf_toNat]

theorem encodeField_signed (v : Int) :
    encodeField .s16 (signedOperand (wordOf v)) = encodeField .s16 (.int v) := by
  simp only [encodeField, signedOperand, wordOf_toInt]

/-! ### The width check -/

open Machine

/-- An operand list fits its shapes exactly when each operand is in the range of its shape. -/
theorem fitsAll_iff {ss : List Shape} {rs : List Range}
    (h : List.Forall₂ (fun s r => ∀ o, fits s o = true ↔ r.holds o) ss rs) (os : List Operand) :
    fitsAll ss os = true ↔ List.Forall₂ Range.holds rs os := by
  induction h generalizing os with
  | nil => cases os <;> simp [fitsAll]
  | cons h _ ih =>
    cases os with
    | nil => simp [fitsAll]
    | cons o os => simp [fitsAll, h, ih]

theorem fits_u8_iff (o : Operand) : fits .u8 o = true ↔ Range.u8.holds o := by
  cases o <;> simp [fits, Range.u8, Range.holds]

theorem fits_u16_iff (o : Operand) : fits .u16 o = true ↔ Range.u16.holds o := by
  cases o <;> simp [fits, Range.u16, Range.holds]

theorem fits_s16_iff (o : Operand) : fits .s16 o = true ↔ Range.s16.holds o := by
  cases o <;> simp [fits, Range.s16, Range.holds]

theorem fits_text_iff (o : Operand) : fits .text o = true ↔ Range.text.holds o := by
  cases o <;> simp [fits, Range.holds]

/-- R100, R101: the decoder's width check is the declared ranges. -/
theorem operandsFit_iff (sel : Byte) (os : List Operand) :
    fitsAll (requestShapes sel) os = true ↔ OperandsFit sel os := by
  refine fitsAll_iff ?_ os
  unfold requestShapes declaredRanges
  (repeat' split) <;> simp_all [fits_u8_iff, fits_u16_iff, fits_s16_iff, fits_text_iff]

/-- R101: a request whose operands do not fit is rejected. -/
theorem decodeRequest_misfit {sel : Byte} (hs : sel.toNat < 6) {os : List Operand}
    (h : ¬ OperandsFit sel os) : decodeRequest sel os = .error (.badOperands sel) := by
  unfold decodeRequest
  rw [if_neg (by omega), if_neg fun hf => h ((operandsFit_iff _ _).1 hf)]

/-- R98, R100: a request whose operands fit is read. -/
theorem decodeRequest_fit {sel : Byte} (hs : sel.toNat < 6) {os : List Operand} {i : Instr}
    (h : OperandsFit sel os) (hb : buildRequest sel os = some i) : decodeRequest sel os = .ok i := by
  unfold decodeRequest
  rw [if_neg (by omega), if_pos ((operandsFit_iff _ _).2 h)]
  simp only [hb]

end Sys2Proof
end

