-- ==== Sys2Proof/Laws/Exec.lean ====
section
/-! SUPPORT. Everything exec can do, said once (`exec_next`, `exec_stops`): a wire command sets the receiver, a
drawing request in UNINIT raises NotReady, and any other instruction that is let run plays its script to the end
or to its first failing transaction. -/

namespace Sys2Proof.Machine

/-- Everything a script that is not finished can leave: the acts before the failing transaction had their
effect, and that transaction fails. -/
theorem play_cases' (l : List Act) (s : State) :
    play l s = .running (s.applyAll l) ∨
      ∃ before mode bs r rest d, l = before ++ .event (.tx mode bs r) :: rest ∧
        play l s = .stopped ((s.applyAll before).failTx mode bs d) := by
  rcases play_cases l s with h | ⟨before, mode, bs, r, rest, d, hl, -, h⟩
  · exact .inl h
  · refine .inr ⟨before, mode, bs, r, rest, d, hl, ?_⟩
    rw [h, State.failTx, applyAll_cfg]

/-- What a wire command leaves. -/
def wireResult (i : Instr) (s : State) : State :=
  match i with
  | .caset data => receiveFrame s.cfg.opCaset data s
  | .raset data => receiveFrame s.cfg.opRaset data s
  | .ramwr data => receiveFrame s.cfg.opRamwr data s
  | _ => s

/-- How exec checks before it runs, by the kind of instruction. -/
theorem exec_shape (i : Instr) :
    (isDrawing i = true ∧ ∃ body, ∀ s, exec i s = admitDrawing (selectorOf i) s body) ∨
    (isDrawing i = false ∧ (∀ s, s.cfg.wf = true → s.phase ≠ .failed → Admitted i s) ∧
      ∃ body, ∀ s, exec i s = gate s body) ∨
    (∃ x0 y0 x1 y1, i = .selectWindow x0 y0 x1 y1) ∨
    (∃ sel, i = .reserved sel) ∨
    (isWire i = true ∧ ∀ s, exec i s =
      if s.cfg.wf then .next (wireResult i s) else .refused .illFormedConfig) := by
  cases i with
  | init => exact .inr (.inl ⟨rfl, fun s h hp => ⟨h, hp, by simp [isDrawing], trivial⟩, _, fun _ => rfl⟩)
  | fillScreen color => exact .inl ⟨rfl, _, fun s => by unfold exec execFillScreen; rfl⟩
  | fillRect x y w h color => exact .inl ⟨rfl, _, fun s => by unfold exec execFillRect; rfl⟩
  | drawPixel x y color => exact .inl ⟨rfl, _, fun s => by unfold exec execDrawPixel; rfl⟩
  | drawChar x y ch fg bg size => exact .inl ⟨rfl, _, fun s => by unfold exec execDrawChar; rfl⟩
  | drawString col row text fg bg size =>
    exact .inl ⟨rfl, _, fun s => by unfold exec execDrawString; rfl⟩
  | reserved sel => exact .inr (.inr (.inr (.inl ⟨_, rfl⟩)))
  | sendCommand op =>
    exact .inr (.inl ⟨rfl, fun s h hp => ⟨h, hp, by simp [isDrawing], trivial⟩, _, fun _ => rfl⟩)
  | sendParameters bs =>
    exact .inr (.inl ⟨rfl, fun s h hp => ⟨h, hp, by simp [isDrawing], trivial⟩, _, fun _ => rfl⟩)
  | selectWindow x0 y0 x1 y1 => exact .inr (.inr (.inl ⟨_, _, _, _, rfl⟩))
  | runInitSequence =>
    exact .inr (.inl ⟨rfl, fun s h hp => ⟨h, hp, by simp [isDrawing], trivial⟩, _, fun _ => rfl⟩)
  | caset data => exact .inr (.inr (.inr (.inr ⟨rfl, fun _ => rfl⟩)))
  | raset data => exact .inr (.inr (.inr (.inr ⟨rfl, fun _ => rfl⟩)))
  | ramwr data => exact .inr (.inr (.inr (.inr ⟨rfl, fun _ => rfl⟩)))

/-- A drawing request in READY is let run. -/
theorem admitted_drawing {i : Instr} {s : State} (hi : isDrawing i = true) (hwf : s.cfg.wf = true)
    (hp : s.phase = .ready) : Admitted i s := by
  refine ⟨hwf, by rw [hp]; simp, fun _ => hp, ?_⟩
  cases i <;> simp_all [isDrawing]

/-- No drawing request is a wire command. -/
theorem not_wire_of_drawing {i : Instr} (h : isDrawing i = true) : isWire i = false := by
  cases i <;> first | rfl | cases h

/-- Nothing that is let run is a wire command. -/
theorem not_wire_of_admitted {i : Instr} {s : State} (h : Admitted i s) : isWire i = false := by
  cases i <;> first | rfl | exact h.2.2.2.elim

/-- INIT and the micro-operations without operand checks are let run in UNINIT and READY. -/
theorem admitted_init {s : State} (h : s.cfg.wf = true) (hp : s.phase ≠ .failed) :
    Admitted .init s := ⟨h, hp, by simp [isDrawing], trivial⟩

theorem admitted_sendCommand {op : Byte} {s : State} (h : s.cfg.wf = true)
    (hp : s.phase ≠ .failed) : Admitted (.sendCommand op) s := ⟨h, hp, by simp [isDrawing], trivial⟩

theorem admitted_sendParameters {bs : List Byte} {s : State} (h : s.cfg.wf = true)
    (hp : s.phase ≠ .failed) : Admitted (.sendParameters bs) s :=
  ⟨h, hp, by simp [isDrawing], trivial⟩

theorem admitted_runInitSequence {s : State} (h : s.cfg.wf = true) (hp : s.phase ≠ .failed) :
    Admitted .runInitSequence s := ⟨h, hp, by simp [isDrawing], trivial⟩

/-- Everything exec can do when it answers a next state. -/
inductive ExecResult (i : Instr) (s t : State) : Prop where
  /-- A wire command: the receiver takes it. -/
  | wire (hi : isWire i = true) (ht : t = wireResult i s)
  /-- A drawing request in UNINIT raises NotReady (R265). -/
  | notReady (hi : isDrawing i = true) (hp : s.phase = .uninit)
      (ht : t = s.raise .notReady (.selector (selectorOf i)))
  /-- The script runs to its end. -/
  | done (ha : Admitted i s) (ht : t = conclude i (s.applyAll (script s.cfg i)))
  /-- A transaction of the script fails (R264). -/
  | failed (ha : Admitted i s) (before : List Act) (mode : Mode) (bs : List Byte) (r : TxResult)
      (rest : List Act) (d : Nat) (hl : script s.cfg i = before ++ .event (.tx mode bs r) :: rest)
      (ht : t = (s.applyAll before).failTx mode bs d)

theorem exec_next_of_admitted {i : Instr} {s t : State} (ha : Admitted i s)
    (h : exec i s = .next t) : ExecResult i s t := by
  rw [exec_admitted ha] at h
  cases h
  rcases play_cases' (script s.cfg i) s with hp | ⟨before, mode, bs, r, rest, d, hl, hp⟩
  · exact .done ha (by rw [hp]; rfl)
  · exact .failed ha before mode bs r rest d hl (by rw [hp]; rfl)

theorem exec_next {i : Instr} {s t : State} (h : exec i s = .next t) :
    s.cfg.wf = true ∧ ExecResult i s t := by
  rcases exec_shape i with ⟨hd, body, hb⟩ | ⟨hd, had, body, hb⟩ | ⟨x0, y0, x1, y1, rfl⟩ |
    ⟨sel, rfl⟩ | ⟨hw, hb⟩
  · have h' := h
    rw [hb, admitDrawing] at h'
    split at h'
    · rename_i hwf
      refine ⟨hwf, ?_⟩
      split at h'
      · cases h'
      · rename_i hp; cases h'; exact .notReady hd hp rfl
      · rename_i hp; exact exec_next_of_admitted (admitted_drawing hd hwf hp) h
    · cases h'
  · have h' := h
    rw [hb, gate] at h'
    split at h'
    · rename_i hwf
      exact ⟨hwf, exec_next_of_admitted (had s hwf fun hp => by rw [hp] at h'; cases h') h⟩
    · cases h'
  · have h' : execSelectWindow x0 y0 x1 y1 s = .next t := h
    unfold execSelectWindow at h'
    split at h'
    · cases h'
    · rename_i hc
      unfold gate at h'
      split at h'
      · rename_i hwf
        have hp : s.phase ≠ .failed := fun hp => by rw [hp] at h'; cases h'
        refine ⟨hwf, exec_next_of_admitted ⟨hwf, hp, by simp [isDrawing], ?_⟩ h⟩
        by_contra hw
        exact hc ⟨hwf, hp, hw⟩
      · cases h'
  · cases h
  · rw [hb] at h
    split at h
    · rename_i hwf; cases h; exact ⟨hwf, .wire hw rfl⟩
    · cases h

/-- Whether exec stops, and how, depends on the configuration and the phase alone. -/
theorem exec_stops_congr {i : Instr} {s s' : State} (hc : s'.cfg = s.cfg) (hp : s'.phase = s.phase) :
    (∀ f, exec i s = .fault f → exec i s' = .fault f) ∧
    (∀ r, exec i s = .refused r → exec i s' = .refused r) := by
  have hadmit : ∀ body, (∀ f, gate s body = .fault f → gate s' body = .fault f) ∧
      (∀ r, gate s body = .refused r → gate s' body = .refused r) := by
    intro body
    unfold gate
    rw [hc, hp]
    split
    · cases s.phase <;> simp [finish]
    · simp
  rcases exec_shape i with ⟨-, body, hb⟩ | ⟨-, -, body, hb⟩ | ⟨x0, y0, x1, y1, rfl⟩ | ⟨sel, rfl⟩ |
    ⟨-, hb⟩
  · rw [hb, hb]
    unfold admitDrawing
    rw [hc, hp]
    split
    · cases s.phase <;> simp [finish]
    · simp
  · rw [hb, hb]; exact hadmit body
  · show (∀ f, execSelectWindow x0 y0 x1 y1 s = .fault f → execSelectWindow x0 y0 x1 y1 s' = .fault f) ∧
      (∀ r, execSelectWindow x0 y0 x1 y1 s = .refused r → execSelectWindow x0 y0 x1 y1 s' = .refused r)
    unfold execSelectWindow
    rw [hc, hp]
    split
    · exact ⟨fun _ h => h, fun _ h => h⟩
    · exact hadmit _
  · exact ⟨fun _ h => h, fun _ h => h⟩
  · rw [hb, hb, hc]
    split <;> simp

/-- An instruction that is let run, with every transaction it makes successful. -/
theorem exec_all_ok {i : Instr} {s : State} (ha : Admitted i s)
    (hok : AllOk s (txs (expectedEvents s.cfg i))) :
    exec i s = .next (conclude i (s.applyAll (script s.cfg i))) := by
  rw [exec_admitted ha, play_ok (by rwa [eventsOf_script])]; rfl

/-- A wire command under a well-formed configuration. -/
theorem exec_wire {i : Instr} {s : State} (hi : isWire i = true) (hwf : s.cfg.wf = true) :
    exec i s = .next (wireResult i s) := by
  cases i <;> simp [isWire] at hi <;> simp [exec, execCaset, execRaset, execRamwr, wireResult, hwf]

end Sys2Proof.Machine
end

