-- ==== Sys2Proof/Laws/Frame.lean ====
section
/-! SUPPORT. What a script's acts leave unchanged, field by field, and what the scripts of the instructions are
made of: which events (`script_clean`), no pin change but in INIT (`script_pinFree`), and which stagings
(`script_stages`). -/

namespace Sys2Proof.Machine

/-! ### Acts, field by field -/

/-- R28: a script's events are appended, whether or not it runs to its end. -/
theorem applyAll_trace (s : State) (l : List Act) (hok : OkList (eventsOf l)) :
    (s.applyAll l).trace = s.trace ++ eventsOf l := by
  induction l generalizing s with
  | nil => simp
  | cons a l ih =>
    rw [applyAll_cons]
    match a with
    | .event (.tx mode bs .ok) =>
      rw [ih _ (by rw [eventsOf_event] at hok; exact hok.tail)]; simp [State.apply]
    | .event (.tx mode bs .err) =>
      exact absurd (hok (.tx mode bs .err) (by simp)) (by simp [Event.isErr])
    | .event (.pin p l') =>
      rw [ih _ (by rw [eventsOf_event] at hok; exact hok.tail)]; simp [State.apply]
    | .event (.delay n) =>
      rw [ih _ (by rw [eventsOf_event] at hok; exact hok.tail)]; simp [State.apply]
    | .stage n c => rw [ih _ hok]; simp [State.apply]

/-- R260: one answer is used for each transaction. -/
theorem applyAll_answers (s : State) (l : List Act) :
    (s.applyAll l).answers = s.answers.drop (txs (eventsOf l)) ∧
      (s.applyAll l).txCount = s.txCount + txs (eventsOf l) := by
  induction l generalizing s with
  | nil => simp
  | cons a l ih =>
    rw [applyAll_cons]
    obtain ⟨h1, h2⟩ := ih (s.apply a)
    rw [h1, h2]
    match a with
    | .event (.tx mode bs r) =>
      simp only [eventsOf_event, txs_cons_tx, State.apply, State.setPanel_answers, State.emit_answers,
        State.useAnswer_answers, State.setPanel_txCount, State.emit_txCount, State.useAnswer_txCount]
      exact ⟨by rw [← List.drop_one, List.drop_drop, Nat.add_comm], by omega⟩
    | .event (.pin p l') => simp [txs_cons_pin, State.apply]
    | .event (.delay n) => simp [txs_cons_delay, State.apply]
    | .stage n c => simp [State.apply]

/-- R26: only a pin event changes the pins. -/
theorem applyAll_pins (s : State) (l : List Act) (h : PinFree (eventsOf l)) :
    (s.applyAll l).pins = s.pins := by
  induction l generalizing s with
  | nil => rfl
  | cons a l ih =>
    rw [applyAll_cons]
    match a with
    | .event (.tx mode bs r) =>
      rw [ih _ (by rw [eventsOf_event] at h; exact h.tail)]; rfl
    | .event (.pin p l') => exact absurd (by simp) (h p l')
    | .event (.delay n) =>
      rw [ih _ (by rw [eventsOf_event] at h; exact h.tail)]; rfl
    | .stage n c => rw [ih _ h]; rfl

/-- R67, R68: a scratch offset beyond every staging keeps its value. -/
theorem applyAll_scratch (s : State) (l : List Act) {off : Nat}
    (h : ∀ n c, Act.stage n c ∈ l → 2 * n ≤ off) :
    Store.read (s.applyAll l).scratch off = Store.read s.scratch off := by
  induction l generalizing s with
  | nil => rfl
  | cons a l ih =>
    rw [applyAll_cons, ih _ fun n c hm => h n c (by simp [hm])]
    match a with
    | .event (.tx mode bs r) => rfl
    | .event (.pin p l') => rfl
    | .event (.delay n) => rfl
    | .stage n c =>
      refine Store.read_writeRun_outside _ (.inr ?_)
      have := h n c (by simp)
      have e : (List.replicate n (pack565 c)).flatten.length = 2 * n := pixelBytes_length n c
      rw [e]; omega

/-- A script without events changes scratch alone. -/
theorem applyAll_panel_of_no_event (s : State) (l : List Act) (h : eventsOf l = []) :
    (s.applyAll l).panel = s.panel := by
  induction l generalizing s with
  | nil => rfl
  | cons a l ih =>
    match a with
    | .event ev => simp at h
    | .stage n c => rw [applyAll_cons, ih _ h]; rfl

/-! ### A failing transaction, field by field -/

section
variable (s : State) (mode : Mode) (bs : List Byte) (d : Nat)
@[simp] theorem failTx_cfg : (s.failTx mode bs d).cfg = s.cfg := rfl
@[simp] theorem failTx_phase : (s.failTx mode bs d).phase = .failed := rfl
@[simp] theorem failTx_scratch : (s.failTx mode bs d).scratch = s.scratch := rfl
@[simp] theorem failTx_pins : (s.failTx mode bs d).pins = s.pins := rfl
@[simp] theorem failTx_trace : (s.failTx mode bs d).trace = s.trace ++ [.tx mode bs .err] := rfl
@[simp] theorem failTx_ret : (s.failTx mode bs d).ret = none := rfl
@[simp] theorem failTx_panel :
    (s.failTx mode bs d).panel = s.panel.receiveFailed s.cfg mode bs d := rfl
@[simp] theorem failTx_inbox : (s.failTx mode bs d).inbox = s.inbox := rfl
@[simp] theorem failTx_answers : (s.failTx mode bs d).answers = s.answers.tail := rfl
@[simp] theorem failTx_txCount : (s.failTx mode bs d).txCount = s.txCount + 1 := rfl
@[simp] theorem failTx_epoch : (s.failTx mode bs d).epoch = s.epoch := rfl
theorem failTx_fault_isSome : (s.failTx mode bs d).fault.isSome = true :=
  State.raise_fault_isSome _ _ _
theorem failTx_fault (h : s.fault = none) : (s.failTx mode bs d).fault = some .transportError :=
  State.raise_fault_of_none _ _ _ h
theorem failTx_faultInfo (h : s.fault = none) :
    (s.failTx mode bs d).faultInfo = some (infoOf mode bs) :=
  State.raise_faultInfo_of_none _ _ _ h
end

/-! ### What concluding leaves -/

theorem conclude_keeps (i : Instr) (t : State) :
    (conclude i t).cfg = t.cfg ∧ (conclude i t).fault = t.fault ∧
      (conclude i t).faultInfo = t.faultInfo ∧ (conclude i t).scratch = t.scratch ∧
      (conclude i t).pins = t.pins ∧ (conclude i t).trace = t.trace ∧
      (conclude i t).panel = t.panel ∧ (conclude i t).inbox = t.inbox ∧
      (conclude i t).answers = t.answers ∧ (conclude i t).txCount = t.txCount ∧
      (conclude i t).epoch = t.epoch := by
  cases i <;> exact ⟨rfl, rfl, rfl, rfl, rfl, rfl, rfl, rfl, rfl, rfl, rfl⟩

theorem conclude_phase {i : Instr} (hi : i ≠ .init) (t : State) : (conclude i t).phase = t.phase := by
  cases i <;> first | rfl | exact absurd rfl hi

theorem conclude_scratch (i : Instr) (t : State) : (conclude i t).scratch = t.scratch :=
  (conclude_keeps i t).2.2.2.1

theorem conclude_panel (i : Instr) (t : State) : (conclude i t).panel = t.panel :=
  (conclude_keeps i t).2.2.2.2.2.2.1

theorem conclude_trace (i : Instr) (t : State) : (conclude i t).trace = t.trace :=
  (conclude_keeps i t).2.2.2.2.2.1

/-- Concluding touches nothing that `Performed` speaks of, but for INIT's phase. -/
theorem Performed.conclude {s t : State} {evs : List Event} {i : Instr} (h : Performed s t evs)
    (hi : i ≠ .init) : Performed s (Machine.conclude i t) evs := by
  obtain ⟨k1, k2, k3, -, k5, k6, k7, k8, k9, k10, k11⟩ := conclude_keeps i t
  have kp := conclude_phase hi t
  exact ⟨k6.trans h.trace, k7.trans h.panel, k9.trans h.answers, k10.trans h.txCount, k1.trans h.cfg,
    kp.trans h.phase, k2.trans h.fault, k3.trans h.faultInfo, k5.trans h.pins, k8.trans h.inbox,
    k11.trans h.epoch⟩

theorem Staged.congr {s t u : State} {n : Nat} {c : Word16} (h : Staged s t n c)
    (hu : u.scratch = t.scratch) : Staged s u n c := by
  unfold Staged
  rw [hu]
  exact h

/-- R170, R171, R175, R177: a rectangle's script leaves its pixels in scratch. -/
theorem rectActs_staged (s : State) (cfg : Config) (x y : Int) (w h : Nat) (c : Word16) :
    Staged s (s.applyAll (rectActs cfg x y w h c)) (w * h) c := by
  unfold rectActs
  rw [applyAll_cons]
  exact (stage_staged s _ c).congr (applyAll_events_scratch _ _)

/-! ### The wire commands -/

theorem wireResult_eq {i : Instr} (hi : isWire i = true) (s : State) :
    ∃ op data, wireResult i s = receiveFrame op data s := by
  cases i <;> first | exact ⟨_, _, rfl⟩ | cases hi

/-! ### What the scripts are made of -/

/-- R91, R92: a pin change, a delay, a command of one byte or a data run that is not empty; no failure. -/
def Event.clean : Event → Prop
  | .tx .command bs r => r = .ok ∧ ∃ op, bs = [op]
  | .tx .data bs r => r = .ok ∧ bs ≠ []
  | .pin _ _ => True
  | .delay _ => True

/-- Every event of the list is clean. -/
def CleanList (evs : List Event) : Prop := ∀ ev ∈ evs, ev.clean

theorem CleanList.ok {evs : List Event} (h : CleanList evs) : OkList evs := by
  intro ev hev
  have := h ev hev
  match ev with
  | .tx .command bs .ok => rfl
  | .tx .data bs .ok => rfl
  | .tx .command bs .err => exact absurd this.1 (by simp)
  | .tx .data bs .err => exact absurd this.1 (by simp)
  | .pin _ _ => rfl
  | .delay _ => rfl

/-- R28, R91, R92: what a clean event list says of each transaction. -/
theorem CleanList.framing {evs : List Event} (h : CleanList evs) :
    ∀ mode bs r, Event.tx mode bs r ∈ evs → bs ≠ [] ∧ (mode = .command → bs.length = 1) := by
  intro mode bs r hm
  have := h _ hm
  cases mode
  · obtain ⟨-, op, rfl⟩ := this; simp
  · exact ⟨this.2, by simp⟩

theorem cleanList_nil : CleanList [] := by simp [CleanList]

theorem CleanList.append {a b : List Event} (ha : CleanList a) (hb : CleanList b) :
    CleanList (a ++ b) := fun ev h => (List.mem_append.1 h).elim (ha ev) (hb ev)

theorem cleanList_flatMap {β : Type} {l : List β} {f : β → List Event}
    (h : ∀ b ∈ l, CleanList (f b)) : CleanList (l.flatMap f) := by
  intro ev hev
  obtain ⟨b, hb, hm⟩ := List.mem_flatMap.1 hev
  exact h b hb ev hm

theorem windowEvents_clean (cfg : Config) (x0 y0 x1 y1 : Int) :
    CleanList (windowEvents cfg x0 y0 x1 y1) := by
  intro ev hev
  simp only [windowEvents, okCommand, List.mem_cons, List.not_mem_nil, or_false] at hev
  rcases hev with rfl | rfl | rfl | rfl | rfl <;> simp [Event.clean]

theorem rectEvents_clean (cfg : Config) (x y : Int) {w h : Nat} (c : Word16) (hn : 0 < w * h) :
    CleanList (rectEvents cfg x y w h c) := by
  refine (windowEvents_clean cfg _ _ _ _).append fun ev hev => ?_
  simp only [List.mem_singleton] at hev
  subst hev
  exact ⟨rfl, pixelBytes_ne_nil hn c⟩

theorem fillEvents_clean (cfg : Config) (x y : Int) (w h : Nat) (c : Word16) :
    CleanList (fillEvents cfg x y w h c) := by
  unfold fillEvents
  cases hr : clip cfg x y w h with
  | none => exact cleanList_nil
  | some r =>
    obtain ⟨-, -, -, hw, hh, -⟩ := clip_some hr
    exact rectEvents_clean _ _ _ _ (Nat.mul_pos hw hh)

theorem pixelEvents_clean (cfg : Config) (x y : Int) (c : Word16) :
    CleanList (pixelEvents cfg x y c) := by
  unfold pixelEvents
  split
  · exact rectEvents_clean _ _ _ _ Nat.one_pos
  · exact cleanList_nil

theorem charEvents_clean (cfg : Config) (x y : Int) (ch : Byte) (fg bg : Word16) (n : Nat) :
    CleanList (charEvents cfg x y ch fg bg n) := by
  unfold charEvents
  split
  · exact cleanList_nil
  · refine cleanList_flatMap fun c _ => ?_
    unfold paintEvents
    split
    · exact pixelEvents_clean _ _ _ _
    · exact fillEvents_clean _ _ _ _ _ _

theorem okData_clean (bs : List Byte) : CleanList (okData bs) := by
  cases bs with
  | nil => exact cleanList_nil
  | cons b rest =>
    intro ev hev
    simp only [okData, List.mem_singleton] at hev
    subst hev
    exact ⟨rfl, by simp⟩

theorem replayEvents_clean (cfg : Config) : CleanList (replayEvents cfg) := by
  refine cleanList_flatMap fun r _ => ?_
  unfold recordEvents
  rw [List.cons_append]
  intro ev hev
  rcases List.mem_cons.1 hev with rfl | hev
  · exact ⟨rfl, _, rfl⟩
  · refine ((okData_clean _).append ?_) ev hev
    split
    · intro ev hev
      simp only [List.mem_singleton] at hev
      subst hev; trivial
    · exact cleanList_nil

/-- R91, R92, R132: the events of an instruction's script. -/
theorem script_clean {i : Instr} {s : State} (h : Admitted i s) :
    CleanList (expectedEvents s.cfg i) := by
  have hl := wf_legal h.1
  cases i with
  | init =>
    refine CleanList.append (CleanList.append ?_ (replayEvents_clean _)) ?_
    · intro ev hev
      simp only [List.mem_cons, List.not_mem_nil, or_false] at hev
      rcases hev with rfl | rfl | rfl | rfl <;> trivial
    · intro ev hev
      simp only [List.mem_singleton] at hev
      subst hev; trivial
  | fillScreen color => exact rectEvents_clean _ _ _ _ (Nat.mul_pos hl.width hl.height)
  | fillRect x y w h color => exact fillEvents_clean _ _ _ _ _ _
  | drawPixel x y color => exact pixelEvents_clean _ _ _ _
  | drawChar x y ch fg bg size => exact charEvents_clean _ _ _ _ _ _ _
  | drawString col row text fg bg size =>
    exact cleanList_flatMap fun k _ => charEvents_clean _ _ _ _ _ _ _
  | reserved sel => exact h.2.2.2.elim
  | sendCommand op =>
    intro ev hev
    simp only [expectedEvents, okCommand, List.mem_singleton] at hev
    subst hev; exact ⟨rfl, _, rfl⟩
  | sendParameters bs => exact okData_clean bs
  | selectWindow x0 y0 x1 y1 => exact windowEvents_clean _ _ _ _ _
  | runInitSequence => exact replayEvents_clean _
  | caset data => exact h.2.2.2.elim
  | raset data => exact h.2.2.2.elim
  | ramwr data => exact h.2.2.2.elim

theorem pinFree_nil : PinFree [] := by simp [PinFree]

theorem pinFree_flatMap {β : Type} {l : List β} {f : β → List Event}
    (h : ∀ b ∈ l, PinFree (f b)) : PinFree (l.flatMap f) := by
  intro p lv hm
  obtain ⟨b, hb, hm⟩ := List.mem_flatMap.1 hm
  exact h b hb p lv hm

theorem rectEvents_pinFree (cfg : Config) (x y : Int) (w h : Nat) (c : Word16) :
    PinFree (rectEvents cfg x y w h c) := by
  intro p l hm
  simp [rectEvents, windowEvents, okCommand] at hm

theorem fillEvents_pinFree (cfg : Config) (x y : Int) (w h : Nat) (c : Word16) :
    PinFree (fillEvents cfg x y w h c) := by
  unfold fillEvents
  cases clip cfg x y w h with
  | none => exact pinFree_nil
  | some r => exact rectEvents_pinFree _ _ _ _ _ _

theorem pixelEvents_pinFree (cfg : Config) (x y : Int) (c : Word16) :
    PinFree (pixelEvents cfg x y c) := by
  unfold pixelEvents
  split
  · exact rectEvents_pinFree _ _ _ _ _ _
  · exact pinFree_nil

theorem charEvents_pinFree (cfg : Config) (x y : Int) (ch : Byte) (fg bg : Word16) (n : Nat) :
    PinFree (charEvents cfg x y ch fg bg n) := by
  unfold charEvents
  split
  · exact pinFree_nil
  · refine pinFree_flatMap fun c _ => ?_
    unfold paintEvents
    split
    · exact pixelEvents_pinFree _ _ _ _
    · exact fillEvents_pinFree _ _ _ _ _ _

theorem replayEvents_pinFree (cfg : Config) : PinFree (replayEvents cfg) := by
  refine pinFree_flatMap fun r _ => ?_
  intro p l hm
  simp only [recordEvents, okCommand, List.cons_append, List.mem_cons, List.mem_append] at hm
  rcases hm with hm | hm | hm
  · cases hm
  · generalize r.params.take (r.count &&& 0x1F#8).toNat = bs at hm
    cases bs <;> simp [okData] at hm
  · split at hm <;> simp at hm

/-- R26: no instruction but INIT drives a pin. -/
theorem script_pinFree {i : Instr} (hi : i ≠ .init) (cfg : Config) :
    PinFree (expectedEvents cfg i) := by
  cases i with
  | init => exact absurd rfl hi
  | fillScreen color => exact rectEvents_pinFree _ _ _ _ _ _
  | fillRect x y w h color => exact fillEvents_pinFree _ _ _ _ _ _
  | drawPixel x y color => exact pixelEvents_pinFree _ _ _ _
  | drawChar x y ch fg bg size => exact charEvents_pinFree _ _ _ _ _ _ _
  | drawString col row text fg bg size =>
    exact pinFree_flatMap fun k _ => charEvents_pinFree _ _ _ _ _ _ _
  | reserved sel => exact pinFree_nil
  | sendCommand op => intro p l hm; simp [expectedEvents, okCommand] at hm
  | sendParameters bs => intro p l hm; cases bs <;> simp [expectedEvents, okData] at hm
  | selectWindow x0 y0 x1 y1 =>
    intro p l hm; simp [expectedEvents, windowEvents, okCommand] at hm
  | runInitSequence => exact replayEvents_pinFree _
  | caset data => exact pinFree_nil
  | raset data => exact pinFree_nil
  | ramwr data => exact pinFree_nil

/-- R140: the pins after INIT's script. -/
theorem applyAll_init_pins (s : State) :
    (s.applyAll (script s.cfg .init)).pins =
      { reset := some .high, backlight := some s.cfg.blOnLevel } := by
  show (s.applyAll (acts (initEvents s.cfg))).pins = _
  unfold initEvents
  rw [acts_append, acts_append, applyAll_append, applyAll_append]
  obtain ⟨u, hu⟩ : ∃ u, u = s.applyAll (acts [.pin .reset .low, .delay s.cfg.resetDelayMs,
    .pin .reset .high, .delay s.cfg.resetDelayMs]) := ⟨_, rfl⟩
  rw [← hu]
  have hp : u.pins.reset = some .high := by subst hu; simp [acts, State.apply, Pins.drive]
  have h2 := applyAll_pins u (acts (replayEvents s.cfg))
    (by rw [eventsOf_acts]; exact replayEvents_pinFree _)
  generalize u.applyAll (acts (replayEvents s.cfg)) = v at h2
  simp [acts, State.apply, Pins.drive, h2, hp]

/-- R140, R233: the receiver after INIT's script has seen a reset pulse and then the replay, and nothing of what
it held before. -/
theorem applyAll_init_panel (s : State) : (s.applyAll (script s.cfg .init)).panel =
    (replayEvents s.cfg).foldl (Panel.observe s.cfg) Panel.powerOn := by
  show (s.applyAll (acts (initEvents s.cfg))).panel = _
  unfold initEvents
  rw [acts_append, acts_append, applyAll_append, applyAll_append]
  obtain ⟨u, hu⟩ : ∃ u, u = s.applyAll (acts [.pin .reset .low, .delay s.cfg.resetDelayMs,
    .pin .reset .high, .delay s.cfg.resetDelayMs]) := ⟨_, rfl⟩
  rw [← hu]
  have hp : u.panel = Panel.powerOn := by
    subst hu; simp [acts, State.apply, Pins.drive, Panel.seePin]
  have hc : u.cfg = s.cfg := by subst hu; rw [applyAll_cfg]
  have h2 := (applyAll_performed u (acts (replayEvents s.cfg))
    (by rw [eventsOf_acts]; exact replayEvents_pinFree _)
    (by rw [eventsOf_acts]; exact (replayEvents_clean _).ok)).panel
  rw [eventsOf_acts, hc, hp] at h2
  generalize u.applyAll (acts (replayEvents s.cfg)) = v at h2
  simp [acts, State.apply, Panel.seePin, h2]

/-- An instruction but INIT that is let run, with every transaction it makes successful, performs its events. -/
theorem exec_performs {i : Instr} {s : State} (hi : i ≠ .init) (ha : Admitted i s)
    (hok : AllOk s (txs (expectedEvents s.cfg i))) :
    exec i s = .next (conclude i (s.applyAll (script s.cfg i))) ∧
      Performed s (conclude i (s.applyAll (script s.cfg i))) (expectedEvents s.cfg i) := by
  refine ⟨exec_all_ok ha hok, Performed.conclude ?_ hi⟩
  have := applyAll_performed s (script s.cfg i) (by rw [eventsOf_script]; exact script_pinFree hi _)
    (by rw [eventsOf_script]; exact (script_clean ha).ok)
  rwa [eventsOf_script] at this

/-- R24: no instruction changes the configuration. -/
theorem exec_cfg {i : Instr} {s t : State} (h : exec i s = .next t) : t.cfg = s.cfg := by
  obtain ⟨-, hr⟩ := exec_next h
  cases hr with
  | wire hi ht =>
    obtain ⟨op, data, hw⟩ := wireResult_eq hi s
    rw [ht, hw]; rfl
  | notReady hi hp ht => rw [ht]; rfl
  | done ha ht => rw [ht, (conclude_keeps i _).1, applyAll_cfg]
  | failed ha before mode bs r rest d hl ht => rw [ht, failTx_cfg, applyAll_cfg]

/-! ### Stagings -/

/-- The stagings of a script. -/
def stagesOf (l : List Act) : List (Nat × Word16) :=
  l.filterMap fun a => match a with
    | .event _ => none
    | .stage n color => some (n, color)

@[simp] theorem stagesOf_nil : stagesOf [] = [] := rfl
@[simp] theorem stagesOf_event (ev : Event) (rest : List Act) :
    stagesOf (.event ev :: rest) = stagesOf rest := rfl
@[simp] theorem stagesOf_stage (n : Nat) (c : Word16) (rest : List Act) :
    stagesOf (.stage n c :: rest) = (n, c) :: stagesOf rest := rfl
@[simp] theorem stagesOf_append (a b : List Act) : stagesOf (a ++ b) = stagesOf a ++ stagesOf b :=
  List.filterMap_append

@[simp] theorem stagesOf_acts (evs : List Event) : stagesOf (acts evs) = [] := by
  induction evs with
  | nil => rfl
  | cons ev evs ih => exact ih

theorem stagesOf_flatMap {β : Type} (l : List β) (f : β → List Act) :
    stagesOf (l.flatMap f) = l.flatMap fun b => stagesOf (f b) := by
  induction l with
  | nil => rfl
  | cons b l ih => simp [ih]

theorem mem_stagesOf {l : List Act} {n : Nat} {c : Word16} :
    (n, c) ∈ stagesOf l ↔ Act.stage n c ∈ l := by
  induction l with
  | nil => simp
  | cons a l ih => cases a <;> simp [ih]

@[simp] theorem stagesOf_rectActs (cfg : Config) (x y : Int) (w h : Nat) (c : Word16) :
    stagesOf (rectActs cfg x y w h c) = [(w * h, c)] := by simp [rectActs]

theorem stagesOf_fillActs (cfg : Config) (x y : Int) (w h : Nat) (c : Word16) :
    stagesOf (fillActs cfg x y w h c) = (fillStaged cfg x y w h).map fun n => (n, c) := by
  unfold fillActs fillStaged
  cases clip cfg x y w h with
  | none => rfl
  | some r => simp

theorem stagesOf_pixelActs (cfg : Config) (x y : Int) (c : Word16) :
    stagesOf (pixelActs cfg x y c) = if onPanel cfg x y then [(1, c)] else [] := by
  unfold pixelActs
  split <;> simp

theorem stagesOf_charActs (cfg : Config) (x y : Int) (ch : Byte) (fg bg : Word16) (size : Nat) :
    stagesOf (charActs cfg x y ch fg bg size) = charStagings cfg x y ch fg bg size := by
  unfold charActs charStagings
  split
  · rfl
  · rw [stagesOf_flatMap]
    congr 1
    funext call
    unfold paintActs blockStaged
    split
    · rw [stagesOf_pixelActs]; split <;> rfl
    · exact stagesOf_fillActs _ _ _ _ _ _

/-- R170: an instruction's script stages as `stagings` says. -/
theorem stagesOf_script (cfg : Config) (i : Instr) : stagesOf (script cfg i) = stagings cfg i := by
  cases i with
  | fillScreen color => exact stagesOf_rectActs _ _ _ _ _ _
  | fillRect x y w h color => exact stagesOf_fillActs _ _ _ _ _ _
  | drawPixel x y color => exact stagesOf_pixelActs _ _ _ _
  | drawChar x y ch fg bg size => exact stagesOf_charActs _ _ _ _ _ _ _
  | drawString col row text fg bg size =>
    unfold script stagings stringActs
    rw [stagesOf_flatMap]
    simp only [stagesOf_charActs]
  | init => exact stagesOf_acts _
  | reserved sel => rfl
  | sendCommand op => rfl
  | sendParameters bs => exact stagesOf_acts _
  | selectWindow x0 y0 x1 y1 => rfl
  | runInitSequence => exact stagesOf_acts _
  | caset data => rfl
  | raset data => rfl
  | ramwr data => rfl

theorem script_stages {cfg : Config} {i : Instr} {n : Nat} {c : Word16}
    (hm : Act.stage n c ∈ script cfg i) : n ∈ stagedPixels cfg i := by
  rw [← mem_stagesOf, stagesOf_script] at hm
  exact List.mem_map.2 ⟨(n, c), hm, rfl⟩

theorem stageAll_scratch_congr {s u : State} (h : s.scratch = u.scratch) (l : List (Nat × Word16)) :
    (s.stageAll l).scratch = (u.stageAll l).scratch := by
  induction l generalizing s u with
  | nil => exact h
  | cons b l ih => exact ih (by simp [h])

/-- What a script leaves in scratch: its stagings, one after the other. -/
theorem applyAll_stages (s : State) (l : List Act) :
    (s.applyAll l).scratch = (s.stageAll (stagesOf l)).scratch := by
  induction l generalizing s with
  | nil => rfl
  | cons a l ih =>
    rw [applyAll_cons, ih]
    match a with
    | .event (.tx m bs r) =>
      exact stageAll_scratch_congr (s := s.apply (.event (.tx m bs r))) (u := s) rfl (stagesOf l)
    | .event (.pin p v) =>
      exact stageAll_scratch_congr (s := s.apply (.event (.pin p v))) (u := s) rfl (stagesOf l)
    | .event (.delay d) =>
      exact stageAll_scratch_congr (s := s.apply (.event (.delay d))) (u := s) rfl (stagesOf l)
    | .stage n c => rfl

/-- R174: no staging exceeds the scratch buffer. -/
theorem staged_le {cfg : Config} (hwf : cfg.wf = true) {i : Instr} {n : Nat}
    (hn : n ∈ stagedPixels cfg i) : 2 * n ≤ cfg.scratchBytes := by
  have hl := wf_legal hwf
  have hsb := hl.scratchBytes
  have harea : ∀ w h : Nat, w ≤ cfg.width → h ≤ cfg.height → 2 * (w * h) ≤ cfg.scratchBytes := by
    intro w h hw hh
    have := Nat.mul_le_mul hw hh
    omega
  have hone : 2 * 1 ≤ cfg.scratchBytes := harea 1 1 hl.width hl.height
  have hfill : ∀ x y w h n, n ∈ fillStaged cfg x y w h → 2 * n ≤ cfg.scratchBytes := by
    intro x y w h n hn
    unfold fillStaged at hn
    cases hr : clip cfg x y w h with
    | none => simp [hr] at hn
    | some r =>
      obtain ⟨-, -, -, -, -, hx, hy, h1, h2, -⟩ := clip_some hr
      simp only [hr, List.mem_singleton] at hn
      subst hn
      exact harea _ _ (by omega) (by omega)
  have hpix : ∀ (x y : Int) n, n ∈ (if onPanel cfg x y then [1] else []) →
      2 * n ≤ cfg.scratchBytes := by
    intro x y n hn
    split at hn
    · simp only [List.mem_singleton] at hn; subst hn; exact hone
    · simp at hn
  have hchar : ∀ x y ch fg bg size b, b ∈ charStagings cfg x y ch fg bg size →
      2 * b.1 ≤ cfg.scratchBytes := by
    intro x y ch fg bg size b hb
    unfold charStagings at hb
    split at hb
    · simp at hb
    · obtain ⟨c, -, hb⟩ := List.mem_flatMap.1 hb
      obtain ⟨n, hn, rfl⟩ := List.mem_map.1 hb
      unfold blockStaged at hn
      split at hn
      · exact hpix _ _ _ hn
      · exact hfill _ _ _ _ _ hn
  obtain ⟨b, hb, rfl⟩ := List.mem_map.1 hn
  cases i with
  | fillScreen color =>
    simp only [stagings, List.mem_singleton] at hb
    subst hb; exact harea _ _ le_rfl le_rfl
  | fillRect x y w h color =>
    obtain ⟨m, hm, rfl⟩ := List.mem_map.1 hb
    exact hfill _ _ _ _ _ hm
  | drawPixel x y color =>
    simp only [stagings] at hb
    split at hb
    · simp only [List.mem_singleton] at hb; subst hb; exact hone
    · simp at hb
  | drawChar x y ch fg bg size => exact hchar _ _ _ _ _ _ _ hb
  | drawString col row text fg bg size =>
    obtain ⟨k, -, hb⟩ := List.mem_flatMap.1 hb
    exact hchar _ _ _ _ _ _ _ hb
  | init => simp [stagings] at hb
  | reserved sel => simp [stagings] at hb
  | sendCommand op => simp [stagings] at hb
  | sendParameters bs => simp [stagings] at hb
  | selectWindow x0 y0 x1 y1 => simp [stagings] at hb
  | runInitSequence => simp [stagings] at hb
  | caset data => simp [stagings] at hb
  | raset data => simp [stagings] at hb
  | ramwr data => simp [stagings] at hb

/-- The part of a script in front of a failing transaction is made as the whole is. -/
theorem script_before {i : Instr} {s : State} (h : Admitted i s) {before : List Act} {ev : Event}
    {rest : List Act} (hl : script s.cfg i = before ++ .event ev :: rest) :
    expectedEvents s.cfg i = eventsOf before ++ ev :: eventsOf rest ∧
      CleanList (eventsOf before) ∧ ev.clean ∧
      (∀ n c, Act.stage n c ∈ before → n ∈ stagedPixels s.cfg i) := by
  have e : expectedEvents s.cfg i = eventsOf before ++ ev :: eventsOf rest := by
    rw [← eventsOf_script, hl, eventsOf_append, eventsOf_event]
  have hc := script_clean h
  rw [e] at hc
  exact ⟨e, fun ev' hm => hc ev' (by simp [hm]), hc ev (by simp),
    fun n c hm => script_stages (c := c) (by rw [hl]; exact List.mem_append_left _ hm)⟩

end Sys2Proof.Machine
end

