-- ==== Sys2Proof/Laws/PanelForm.lean ====
section
/-! SUPPORT. Every receiver operation keeps the canonical form of the controller RAM (43_panel_receiver.md R231) and
the bound on pending parameter bytes (R235). -/

namespace Sys2Proof.Machine

namespace Panel

/-! ### The RAM -/

theorem writePixel_gram_wf {p : Panel} (h : Gram.wf p.gram) (v : Word16) :
    Gram.wf (p.writePixel v).gram := by
  unfold writePixel
  split
  · exact Gram.write_wf h _ _ _
  · exact Gram.forget_wf h _

theorem dataByte_gram_wf {p : Panel} (h : Gram.wf p.gram) (b : Byte) :
    Gram.wf (p.dataByte b).gram := by
  unfold dataByte
  split
  · exact h
  · rename_i reg buf _
    unfold paramByte
    split
    · cases reg <;> exact h
    · exact h
  · exact h
  · unfold pixelByte
    split
    · exact h
    · exact writePixel_gram_wf (p := { p with half := none }) h _

theorem commandByte_gram_wf {p : Panel} (h : Gram.wf p.gram) (cfg : Config) (op : Byte) :
    Gram.wf (commandByte cfg p op).gram := by
  have he : Gram.wf p.endPhase.gram := by rw [(endPhase_gram p).1]; exact h
  unfold commandByte
  split
  · exact he
  split
  · exact he
  split
  · unfold startWrite
    split
    · split <;> exact he
    · exact he
  · unfold otherCommand
    split
    · exact he
    · exact ⟨List.Pairwise.nil, by simp⟩

/-- What every byte keeps, a sequence of bytes keeps. -/
theorem foldl_keeps {P : Panel → Prop} {f : Panel → Byte → Panel} (hf : ∀ p b, P p → P (f p b))
    (bs : List Byte) {p : Panel} (h : P p) : P (bs.foldl f p) := by
  induction bs generalizing p with
  | nil => exact h
  | cons b bs ih => exact ih (hf p b h)

theorem receive_gram_wf {p : Panel} (h : Gram.wf p.gram) (cfg : Config) (mode : Mode)
    (bs : List Byte) : Gram.wf (p.receive cfg mode bs).gram := by
  unfold receive
  cases mode
  · exact foldl_keeps (P := fun p => Gram.wf p.gram) (fun p b hp => commandByte_gram_wf hp cfg b) bs h
  · exact foldl_keeps (P := fun p => Gram.wf p.gram) (fun p b hp => dataByte_gram_wf hp b) bs h

/-! ### The RAM and the pending parameters -/

/-- The RAM is canonical and fewer than four parameter bytes are pending. -/
structure Form (p : Panel) : Prop where
  gram  : Gram.wf p.gram
  param : ∀ reg buf, p.rx = .param reg buf → buf.length < 4

theorem Form.powerOn : Form Panel.powerOn :=
  ⟨⟨List.Pairwise.nil, by simp [Panel.powerOn]⟩, by simp [Panel.powerOn]⟩

theorem writePixel_rx (p : Panel) (v : Word16) : (p.writePixel v).rx = p.rx := by
  unfold writePixel
  split <;> rfl

theorem Form.dataByte {p : Panel} (h : Form p) (b : Byte) : Form (p.dataByte b) := by
  refine ⟨dataByte_gram_wf h.gram b, fun reg' buf' he => ?_⟩
  unfold Panel.dataByte at he
  split at he
  · exact h.param _ _ he
  · rename_i reg buf hrx
    have hbuf := h.param reg buf hrx
    unfold Panel.paramByte at he
    split at he
    · cases he
    · rename_i hne
      simp only [Rx.param.injEq] at he
      obtain ⟨-, rfl⟩ := he
      rcases Nat.lt_or_ge (buf ++ [b]).length 4 with hlt | hge
      · exact hlt
      · exfalso
        have hlen : (buf ++ [b]).length = 4 := by
          rw [List.length_append, List.length_singleton] at *; omega
        generalize buf ++ [b] = l at hne hlen
        match l with
        | [] => simp at hlen
        | [_] => simp at hlen
        | [_, _] => simp at hlen
        | [_, _, _] => simp at hlen
        | [_, _, _, _] => exact hne _ _ _ _ rfl
        | _ :: _ :: _ :: _ :: _ :: _ => simp at hlen
  · exact h.param _ _ he
  · unfold Panel.pixelByte at he
    split at he
    · exact h.param _ _ he
    · rw [writePixel_rx] at he; exact h.param _ _ he

theorem Form.commandByte {p : Panel} (h : Form p) (cfg : Config) (op : Byte) :
    Form (Panel.commandByte cfg p op) := by
  refine ⟨commandByte_gram_wf h.gram cfg op, fun reg buf he => ?_⟩
  unfold Panel.commandByte at he
  split at he
  · cases he; simp
  split at he
  · cases he; simp
  split at he
  · unfold Panel.startWrite at he
    split at he
    · split at he <;> cases he
    · cases he
  · unfold Panel.otherCommand at he
    split at he <;> cases he

theorem Form.receive {p : Panel} (h : Form p) (cfg : Config) (mode : Mode) (bs : List Byte) :
    Form (p.receive cfg mode bs) := by
  unfold Panel.receive
  cases mode
  · exact foldl_keeps (P := Form) (fun p b hp => hp.commandByte cfg b) bs h
  · exact foldl_keeps (P := Form) (fun p b hp => hp.dataByte b) bs h

/-- R245: after a failed transaction every cell of the window that was current is unknown. -/
theorem receiveFailed_cell {p : Panel} (h : Gram.wf p.gram) (cfg : Config) (mode : Mode)
    (bs : List Byte) (d : Nat) (c r : Word16) (hin : p.inWindow c.toNat r.toNat = true) :
    (p.receiveFailed cfg mode bs d).cell c r = none := by
  unfold cell receiveFailed
  show Gram.read (Gram.forget _ _) _ _ = none
  rw [Gram.read_forget (receive_gram_wf h _ _ _).1, if_pos hin]

/-- R240: a pixel the window has no place for makes every cell of the window unknown. -/
theorem overrun_cell {p : Panel} (h : Gram.wf p.gram) (c r : Word16) :
    p.overrun.cell c r = if p.inWindow c.toNat r.toNat then none else p.cell c r :=
  Gram.read_forget h.1 _ _ _

theorem Form.receiveFailed {p : Panel} (h : Form p) (cfg : Config) (mode : Mode) (bs : List Byte)
    (d : Nat) : Form (p.receiveFailed cfg mode bs d) := by
  have hq := h.receive cfg mode (bs.take d)
  exact ⟨Gram.forget_wf hq.gram _, hq.param⟩

theorem Form.seePin {p : Panel} (h : Form p) (before : Option Level) (pin : Pin) (level : Level) :
    Form (p.seePin before pin level) := by
  unfold Panel.seePin
  split
  · exact Form.powerOn
  · exact h

end Panel

/-- A script keeps the receiver's form. -/
theorem applyAll_form (s : State) (l : List Act) (h : s.panel.Form) : (s.applyAll l).panel.Form := by
  refine applyAll_keeps (P := fun s => s.panel.Form) h fun a _ t ht => ?_
  match a with
  | .event (.tx mode bs r) => exact ht.receive t.cfg mode bs
  | .event (.pin p l') => exact ht.seePin _ _ _
  | .event (.delay n) => exact ht
  | .stage n c => exact ht

/-- A script that stages within the scratch buffer keeps it canonical and within its range. -/
theorem applyAll_memory (s : State) (l : List Act) (h : Memory.wf s.scratch)
    (hr : ∀ c ∈ s.scratch, c.1 < s.cfg.scratchBytes)
    (hl : ∀ n c, Act.stage n c ∈ l → 2 * n ≤ s.cfg.scratchBytes) :
    Memory.wf (s.applyAll l).scratch ∧ ∀ c ∈ (s.applyAll l).scratch, c.1 < s.cfg.scratchBytes := by
  refine applyAll_keeps (P := fun t => Memory.wf t.scratch ∧ ∀ c ∈ t.scratch, c.1 < s.cfg.scratchBytes)
    ⟨h, hr⟩ fun a ha t ht => ?_
  match a with
  | .event (.tx mode bs r) => exact ht
  | .event (.pin p l') => exact ht
  | .event (.delay n) => exact ht
  | .stage n c =>
    refine ⟨Store.writeRun_wf ht.1 _ _, fun e he => ?_⟩
    rcases Store.mem_writeRun he with he | ⟨-, he⟩
    · exact ht.2 e he
    · have := hl n c ha
      have e' : (List.replicate n (pack565 c)).flatten.length = 2 * n := pixelBytes_length n c
      rw [e'] at he; omega

/-! ### First consequences of the invariant -/

theorem State.Inv.form {s : State} (h : s.Inv) : s.panel.Form := ⟨h.gramCanonical, h.paramShort⟩

theorem State.Inv.fault_none {s : State} (h : s.Inv) (hp : s.phase ≠ .failed) : s.fault = none := by
  cases hf : s.fault with
  | none => rfl
  | some f => exact absurd (h.faultIffFailed.1 (by rw [hf]; rfl)) hp

theorem State.Inv.no_err {s : State} (h : s.Inv) (hp : s.phase ≠ .failed) :
    ∀ ev ∈ s.trace, ev.isErr = false := by
  intro ev hev
  by_contra hne
  have := h.errorMeansFault ⟨ev, hev, by simpa using hne⟩
  rw [h.fault_none hp] at this
  cases this

theorem State.Inv.setInbox {s : State} (h : s.Inv) (q : List Input) : (s.setInbox q).Inv :=
  ⟨h.1, h.2, h.3, h.4, h.5, h.6, h.7, h.8, h.9, h.10, h.11, h.12⟩

/-- The receiver's form is all the invariant says of the receiver. -/
theorem State.Inv.setPanel {s : State} (h : s.Inv) {p : Panel} (hp : p.Form) : (s.setPanel p).Inv :=
  ⟨h.1, h.2, h.3, h.4, h.5, h.6, h.7, h.8, h.9, hp.gram, hp.param, h.12⟩

/-- The reset memory is canonical. -/
theorem reset_memory_wf : Memory.wf State.reset.scratch := List.Pairwise.nil

end Sys2Proof.Machine
end

