-- ==== Sys2Proof/Laws/Glass.lean ====
section
/-! SUPPORT. What drawing leaves in the controller RAM and on the glass (43_panel_receiver.md R241, R246): one
rectangle, a list of rectangles, and which rectangles each drawing request sends. -/

namespace Sys2Proof.Machine

/-- Does the RAM cell `(c, r)` lie under the clipped rectangle `(x, y, w, h)` (R136, R241)? -/
def coversCell (cfg : Config) (x y : Int) (w h c r : Nat) : Bool :=
  decide (cfg.offsetX ≤ c) && decide (cfg.offsetY ≤ r)
    && covers cfg x y w h (c - cfg.offsetX) (r - cfg.offsetY)

/-- The memory write is complete: nothing is left of the window and no half pixel is pending. -/
structure Panel.Complete (p : Panel) : Prop where
  rx   : p.rx = .memWrite
  half : p.half = none
  left : p.left = some 0

/-- R246: the RAM after one clipped fill, and the receiver's state if it sent anything. -/
theorem fill_cells {cfg : Config} (hl : LegalConfig cfg) (p : Panel) (x y : Int) (w h : Nat)
    (color : Word16) :
    (∀ c r, Gram.read ((fillEvents cfg x y w h color).foldl (Panel.observe cfg) p).gram c r =
      if coversCell cfg x y w h c r then some (shown color) else Gram.read p.gram c r) ∧
    ((fillEvents cfg x y w h color).foldl (Panel.observe cfg) p = p ∨
      ((fillEvents cfg x y w h color).foldl (Panel.observe cfg) p).Complete) := by
  unfold fillEvents
  cases hr : clip cfg x y w h with
  | none =>
    refine ⟨fun c r => ?_, .inl rfl⟩
    have : coversCell cfg x y w h c r = false := by
      by_contra hc
      simp only [coversCell, covers, Bool.not_eq_false, Bool.and_eq_true, decide_eq_true_eq] at hc
      obtain ⟨-, ⟨⟨⟨⟨hon, -⟩, h1⟩, h2⟩, h3⟩, h4⟩ := hc
      obtain ⟨r, hr', -⟩ := clip_onPanel (w := w) (h := h) hon (by omega) (by omega)
      rw [hr] at hr'; cases hr'
    simp [this]
  | some q =>
    obtain ⟨hon, hqx, hqy, hqw, hqh, hx0, hy0, hxw, hyh, ew, eh⟩ := clip_some hr
    have hox := hl.offsetX
    have hoy := hl.offsetY
    simp only [hqx, hqy]
    have e1 := Panel.windowWord_toNat (v := x) (off := cfg.offsetX) hx0 (by omega)
    have e2 := Panel.windowWord_toNat (v := x + q.w - 1) (off := cfg.offsetX) (by omega) (by omega)
    have e3 := Panel.windowWord_toNat (v := y) (off := cfg.offsetY) hy0 (by omega)
    have e4 := Panel.windowWord_toNat (v := y + q.h - 1) (off := cfg.offsetY) (by omega) (by omega)
    have hw := Panel.rect_writing hl p color hx0 hy0 hqw hqh hxw hyh
    have exe : (x + q.w - 1).toNat + cfg.offsetX - (x.toNat + cfg.offsetX) + 1 = q.w := by omega
    have eye : (y + q.h - 1).toNat + cfg.offsetY - (y.toNat + cfg.offsetY) + 1 = q.h := by omega
    refine ⟨fun c r => ?_, .inr ⟨hw.rx, hw.half, ?_⟩⟩
    · rw [hw.gram, e1, e2, e3, exe]
      have hiff : (x.toNat + cfg.offsetX ≤ c ∧ c ≤ (x + q.w - 1).toNat + cfg.offsetX ∧
          y.toNat + cfg.offsetY ≤ r ∧
          (r - (y.toNat + cfg.offsetY)) * q.w + (c - (x.toNat + cfg.offsetX)) < q.w * q.h) ↔
          coversCell cfg x y w h c r = true := by
        simp only [coversCell, covers, Bool.and_eq_true, decide_eq_true_eq, hon, true_and]
        have hrow : ∀ i j : Nat, j < q.w → (i * q.w + j < q.w * q.h ↔ i < q.h) := by
          intro i j hj
          constructor
          · intro hlt
            by_contra hge
            have := Nat.mul_le_mul_right q.w (Nat.le_of_not_lt hge)
            rw [Nat.mul_comm q.h] at this
            omega
          · intro hlt
            have := Nat.mul_le_mul_right q.w (Nat.succ_le_of_lt hlt)
            rw [Nat.succ_mul, Nat.mul_comm q.h] at this
            omega
        simp only [onPanel, Bool.and_eq_true, decide_eq_true_eq] at hon ⊢
        constructor
        · rintro ⟨h1, h2, h3, h4⟩
          rw [hrow _ _ (by omega)] at h4
          omega
        · rintro ⟨⟨h1, h2⟩, h3⟩
          refine ⟨by omega, by omega, by omega, (hrow _ _ (by omega)).2 (by omega)⟩
      by_cases hcov : coversCell cfg x y w h c r = true
      · rw [if_pos (hiff.2 hcov), if_pos hcov]; rfl
      · rw [if_neg (fun hh => hcov (hiff.1 hh)), if_neg hcov]
    · rw [hw.left, e1, e2, e3, e4, exe, eye, Nat.sub_self]

/-- R178: DRAW_PIXEL sends what FILL_RECT sends of a rectangle of one pixel. -/
theorem pixelEvents_eq_fillEvents (cfg : Config) (x y : Int) (c : Word16) :
    pixelEvents cfg x y c = fillEvents cfg x y 1 1 c := by
  unfold pixelEvents fillEvents
  by_cases hon : onPanel cfg x y = true
  · obtain ⟨r, hr, hrx, hry, hrw, hrh⟩ := clip_onPanel (w := 1) (h := 1) hon (by omega) (by omega)
    rw [if_pos hon, hr]
    simp only [onPanel, Bool.and_eq_true, decide_eq_true_eq] at hon
    have h1 : r.w = 1 := by omega
    have h2 : r.h = 1 := by omega
    simp only [hrx, hry, h1, h2]
  · have : clip cfg x y 1 1 = none := by
      cases hr : clip cfg x y 1 1 with
      | none => rfl
      | some r => exact absurd (clip_some hr).1 hon
    rw [this, if_neg hon]

/-- R202: either way of painting a block sends a clipped square. -/
theorem paintEvents_eq_fillEvents (cfg : Config) (x y : Int) (n : Nat) (c : Word16) :
    paintEvents cfg x y n c = fillEvents cfg x y n n c := by
  unfold paintEvents
  split
  · rename_i h; subst h; exact pixelEvents_eq_fillEvents _ _ _ _
  · rfl

/-! ### A list of fills -/

/-- One fill, as asked for. -/
structure Fill where
  x     : Int
  y     : Int
  w     : Nat
  h     : Nat
  color : Word16

/-- What a list of fills sends. -/
def fillsEvents (cfg : Config) (l : List Fill) : List Event :=
  l.flatMap fun f => fillEvents cfg f.x f.y f.w f.h f.color

/-- Does the fill reach the RAM cell? -/
def Fill.coversCell (cfg : Config) (f : Fill) (c r : Nat) : Bool :=
  Machine.coversCell cfg f.x f.y f.w f.h c r

theorem fills_complete {cfg : Config} (hl : LegalConfig cfg) (l : List Fill) (p : Panel) :
    (fillsEvents cfg l).foldl (Panel.observe cfg) p = p ∨
      ((fillsEvents cfg l).foldl (Panel.observe cfg) p).Complete := by
  induction l generalizing p with
  | nil => exact .inl rfl
  | cons f l ih =>
    unfold fillsEvents
    rw [List.flatMap_cons, List.foldl_append]
    rcases (fill_cells hl p f.x f.y f.w f.h f.color).2 with h | h
    · rw [h]; exact ih p
    · rcases ih ((fillEvents cfg f.x f.y f.w f.h f.color).foldl (Panel.observe cfg) p) with h' | h'
      · unfold fillsEvents at h'; rw [h']; exact .inr h
      · exact .inr h'

/-- A cell that no fill reaches keeps its content. -/
theorem fills_unreached {cfg : Config} (hl : LegalConfig cfg) (l : List Fill) (p : Panel) {c r : Nat}
    (h : ∀ f ∈ l, f.coversCell cfg c r = false) :
    Gram.read ((fillsEvents cfg l).foldl (Panel.observe cfg) p).gram c r = Gram.read p.gram c r := by
  induction l generalizing p with
  | nil => rfl
  | cons f l ih =>
    unfold fillsEvents
    rw [List.flatMap_cons, List.foldl_append]
    have := ih ((fillEvents cfg f.x f.y f.w f.h f.color).foldl (Panel.observe cfg) p)
      fun g hg => h g (by simp [hg])
    unfold fillsEvents at this
    rw [this, (fill_cells hl p f.x f.y f.w f.h f.color).1]
    have hf : Machine.coversCell cfg f.x f.y f.w f.h c r = false := h f (by simp)
    rw [hf]; rfl

/-- A cell that some fill reaches shows the one colour of the fills that reach it. -/
theorem fills_reached {cfg : Config} (hl : LegalConfig cfg) (l : List Fill) (p : Panel) {c r : Nat}
    {color : Word16} (h : ∃ f ∈ l, f.coversCell cfg c r = true)
    (hcol : ∀ f ∈ l, f.coversCell cfg c r = true → f.color = color) :
    Gram.read ((fillsEvents cfg l).foldl (Panel.observe cfg) p).gram c r = some (shown color) := by
  induction l generalizing p with
  | nil => simp at h
  | cons f l ih =>
    unfold fillsEvents
    rw [List.flatMap_cons, List.foldl_append]
    by_cases ht : ∃ g ∈ l, g.coversCell cfg c r = true
    · exact ih _ ht fun g hg => hcol g (by simp [hg])
    · have hf : f.coversCell cfg c r = true := by
        obtain ⟨g, hg, hgc⟩ := h
        rcases List.mem_cons.1 hg with rfl | hg
        · exact hgc
        · exact absurd ⟨g, hg, hgc⟩ ht
      have := fills_unreached hl l
        ((fillEvents cfg f.x f.y f.w f.h f.color).foldl (Panel.observe cfg) p) (c := c) (r := r)
        fun g hg => by
          by_contra hne
          exact ht ⟨g, hg, by simpa using hne⟩
      unfold fillsEvents at this
      rw [this, (fill_cells hl p f.x f.y f.w f.h f.color).1, ← hcol f (by simp) hf]
      exact if_pos hf

/-- A known cell stays known. -/
theorem fills_known {cfg : Config} (hl : LegalConfig cfg) (l : List Fill) (p : Panel) {c r : Nat}
    (h : (Gram.read p.gram c r).isSome = true) :
    (Gram.read ((fillsEvents cfg l).foldl (Panel.observe cfg) p).gram c r).isSome = true := by
  induction l generalizing p with
  | nil => exact h
  | cons f l ih =>
    unfold fillsEvents
    rw [List.flatMap_cons, List.foldl_append]
    refine ih _ ?_
    rw [(fill_cells hl p f.x f.y f.w f.h f.color).1]
    split
    · rfl
    · exact h

/-! ### The drawing requests -/

/-- R203: the fills of a glyph. -/
def charFills (cfg : Config) (x y : Int) (ch : Byte) (fg bg : Word16) (size : Nat) : List Fill :=
  if rejectGlyph cfg x y size then []
  else (paintCalls cfg ch fg bg).map fun c =>
    { x := x + c.1.1 * size, y := y + c.1.2 * size, w := size, h := size, color := c.2 }

theorem charEvents_eq_fills (cfg : Config) (x y : Int) (ch : Byte) (fg bg : Word16) (size : Nat) :
    charEvents cfg x y ch fg bg size = fillsEvents cfg (charFills cfg x y ch fg bg size) := by
  unfold charEvents charFills fillsEvents
  split
  · rfl
  · rw [List.flatMap_map]
    exact List.flatMap_congr fun c _ => paintEvents_eq_fillEvents _ _ _ _ _

theorem fillsEvents_flatMap {β : Type} (cfg : Config) (l : List β) (f : β → List Fill) :
    fillsEvents cfg (l.flatMap f) = l.flatMap fun b => fillsEvents cfg (f b) := by
  unfold fillsEvents
  rw [List.flatMap_assoc]

/-- R171: FILL_SCREEN sends the fill of the whole glass. -/
theorem screen_eq_fillEvents {cfg : Config} (hl : LegalConfig cfg) (color : Word16) :
    rectEvents cfg 0 0 cfg.width cfg.height color =
      fillEvents cfg 0 0 cfg.width cfg.height color := by
  have hw := hl.width
  have hh := hl.height
  have hon : onPanel cfg 0 0 = true := by
    simp only [onPanel, Bool.and_eq_true, decide_eq_true_eq]; omega
  obtain ⟨r, hr, hrx, hry, hrw, hrh⟩ := clip_onPanel (w := cfg.width) (h := cfg.height) hon hw hh
  have h1 : r.w = cfg.width := by omega
  have h2 : r.h = cfg.height := by omega
  unfold fillEvents
  simp only [hr, hrx, hry, h1, h2]

/-- Every drawing request sends a list of clipped fills. -/
theorem drawing_fills {i : Instr} {cfg : Config} (hl : LegalConfig cfg) (hi : isDrawing i = true) :
    ∃ l, expectedEvents cfg i = fillsEvents cfg l := by
  cases i with
  | fillScreen color =>
    exact ⟨[⟨0, 0, cfg.width, cfg.height, color⟩], by
      simp [fillsEvents, expectedEvents, screen_eq_fillEvents hl]⟩
  | fillRect x y w h color =>
    exact ⟨[⟨x.toInt, y.toInt, w.toNat, h.toNat, color⟩], by simp [fillsEvents, expectedEvents]⟩
  | drawPixel x y color =>
    exact ⟨[⟨x.toInt, y.toInt, 1, 1, color⟩], by
      simp [fillsEvents, expectedEvents, pixelEvents_eq_fillEvents]⟩
  | drawChar x y ch fg bg size => exact ⟨_, charEvents_eq_fills _ _ _ _ _ _ _⟩
  | drawString col row text fg bg size =>
    refine ⟨(List.range (renderedCount (cText text).length col.toNat row.toNat size.toNat)).flatMap
      fun k => charFills cfg (6 * (col.toNat + k * size.toNat) : Nat) (8 * row.toNat : Nat)
        ((cText text).getD k 0x00#8) fg bg size.toNat, ?_⟩
    rw [fillsEvents_flatMap]
    unfold expectedEvents stringEvents
    simp only [charEvents_eq_fills]
  | init => cases hi
  | reserved sel => cases hi
  | sendCommand op => cases hi
  | sendParameters bs => cases hi
  | selectWindow x0 y0 x1 y1 => cases hi
  | runInitSequence => cases hi
  | caset data => cases hi
  | raset data => cases hi
  | ramwr data => cases hi

/-- A cell outside the glass plus the offsets is under no fill (R136, R299). -/
theorem coversCell_inside {cfg : Config} {x y : Int} {w h c r : Nat}
    (hc : coversCell cfg x y w h c r = true) :
    cfg.offsetX ≤ c ∧ c < cfg.offsetX + cfg.width ∧ cfg.offsetY ≤ r ∧
      r < cfg.offsetY + cfg.height := by
  simp only [coversCell, covers, onPanel, Bool.and_eq_true, decide_eq_true_eq] at hc
  omega

/-! ### The glass -/

/-- R241 under PANEL_MODE_OK: the glass is the RAM behind the offsets. -/
theorem glass_eq {s : State} (hl : LegalConfig s.cfg) (hm : s.cfg.panelModeOk = true) (gx gy : Nat) :
    glass s gx gy = if onPanel s.cfg gx gy then
      Gram.read s.panel.gram (gx + s.cfg.offsetX) (gy + s.cfg.offsetY) else none := by
  unfold glass Panel.cell
  rw [hm, Bool.true_and]
  by_cases hon : onPanel s.cfg gx gy = true
  · have hox := hl.offsetX
    have hoy := hl.offsetY
    have hon' := hon
    simp only [onPanel, Bool.and_eq_true, decide_eq_true_eq] at hon'
    rw [if_pos hon, if_pos hon, BitVec.toNat_ofNat, BitVec.toNat_ofNat, Nat.mod_eq_of_lt (by omega),
      Nat.mod_eq_of_lt (by omega)]
  · rw [if_neg hon, if_neg hon]

theorem coversCell_glass (cfg : Config) (x y : Int) (w h gx gy : Nat) :
    coversCell cfg x y w h (gx + cfg.offsetX) (gy + cfg.offsetY) = covers cfg x y w h gx gy := by
  simp [coversCell]

theorem covers_onPanel {cfg : Config} {x y : Int} {w h gx gy : Nat}
    (hc : covers cfg x y w h gx gy = true) : onPanel cfg gx gy = true := by
  simp only [covers, Bool.and_eq_true] at hc
  exact hc.1.1.1.1.2

/-- R241, R246: what the glass shows after one fill was sent. -/
theorem glass_fill {s t : State} (hl : LegalConfig s.cfg) (hm : s.cfg.panelModeOk = true) {x y : Int}
    {w h : Nat} {color : Word16} (hp : Performed s t (fillEvents s.cfg x y w h color)) (gx gy : Nat) :
    glass t gx gy = if covers s.cfg x y w h gx gy then some (shown color) else glass s gx gy := by
  rw [glass_eq (by rw [hp.cfg]; exact hl) (by rw [hp.cfg]; exact hm), glass_eq hl hm, hp.cfg, hp.panel,
    (fill_cells hl s.panel x y w h color).1, coversCell_glass]
  by_cases hc : covers s.cfg x y w h gx gy = true
  · rw [if_pos hc, if_pos hc, if_pos (covers_onPanel hc)]
  · rw [if_neg hc, if_neg hc]

/-! ### The cells of a glyph (R203) -/

/-- R137, R175: a fill is at most six transactions. -/
theorem fill_txs (cfg : Config) (x y : Int) (w h : Nat) (c : Word16) :
    txs (fillEvents cfg x y w h c) ≤ 6 := by
  unfold fillEvents
  split
  · simp
  · exact le_of_eq rfl

/-- R24, R200: the cells of a glyph are 5 by 8. -/
theorem glyphCells_eq {cfg : Config} (hwf : cfg.wf = true) : glyphCells cfg =
    (List.range 5).flatMap (fun gi => (List.range 8).map (fun gj => (gi, gj))) := by
  have hf := wf_fixed hwf
  unfold glyphCells; rw [hf.glyphW, hf.glyphH]

/-- R203: the paint order, column by column. -/
theorem glyphCells_order {cfg : Config} (hwf : cfg.wf = true) {k : Nat} (hk : k < 40) :
    (glyphCells cfg)[k]? = some (k / 8, k % 8) := by
  rw [glyphCells_eq hwf]
  revert k
  decide

/-- R7, condition 7: a glyph below N_GLYPHS is in the font, with five bytes. -/
theorem fontWf_get {n : Nat} {l : List Glyph} (h : Config.fontWf n l = true) {k : Nat} (hk : k < n) :
    ∃ g, l[k]? = some g ∧ g.length = 5 := by
  induction n generalizing l k with
  | zero => omega
  | succ n ih =>
    cases l with
    | nil => cases h
    | cons g gs =>
      simp only [Config.fontWf, Bool.and_eq_true, decide_eq_true_eq] at h
      cases k with
      | zero => exact ⟨g, rfl, h.1⟩
      | succ k => exact ih h.2 (by omega)

/-- R200: a code from N_GLYPHS on has no set bit. -/
theorem glyphBit_blank {cfg : Config} {ch : Byte} (h : cfg.nGlyphs ≤ ch.toNat) (i j : Nat) :
    glyphBit (glyphOf cfg ch) i j = false := by
  unfold glyphOf glyphBit blankGlyph
  rw [if_neg (by omega), List.getD_eq_getElem?_getD, List.getElem?_replicate]
  split <;> simp

/-- R200: any other code has the bits of its five font bytes. -/
theorem glyphBit_font {cfg : Config} (hwf : cfg.wf = true) {ch : Byte} (h : ch.toNat < cfg.nGlyphs) :
    ∃ g, cfg.font[ch.toNat]? = some g ∧ g.length = 5 ∧
      ∀ i, i < 5 → ∃ b, g[i]? = some b ∧ ∀ j, j < 8 → glyphBit (glyphOf cfg ch) i j = b.getLsbD j := by
  unfold Config.wf Config.meetsR7 at hwf
  simp only [Bool.and_eq_true] at hwf
  obtain ⟨g, hg, h5⟩ := fontWf_get hwf.1.1.2 h
  refine ⟨g, hg, h5, fun i hi => ⟨g[i], by simp [h5, hi], fun j _ => ?_⟩⟩
  unfold glyphOf glyphBit
  rw [if_pos h]
  simp [List.getD_eq_getElem?_getD, hg, h5, hi]

theorem mem_glyphCells {cfg : Config} (hwf : cfg.wf = true) (i j : Nat) :
    (i, j) ∈ glyphCells cfg ↔ i < 5 ∧ j < 8 := by
  rw [glyphCells_eq hwf]; simp

theorem glyphCells_length {cfg : Config} (hwf : cfg.wf = true) : (glyphCells cfg).length = 40 := by
  rw [glyphCells_eq hwf]; rfl

/-- R204: how many cells are painted. -/
theorem paintCalls_length {cfg : Config} (ch : Byte) (fg bg : Word16) :
    (paintCalls cfg ch fg bg).length =
      if fg = bg then ((glyphCells cfg).filter fun c => glyphBit (glyphOf cfg ch) c.1 c.2).length
      else (glyphCells cfg).length := by
  unfold paintCalls
  by_cases h : fg = bg
  · rw [if_pos h]
    simp only [if_pos h]
    induction glyphCells cfg with
    | nil => rfl
    | cons c l ih =>
      by_cases hb : glyphBit (glyphOf cfg ch) c.1 c.2 = true <;> simp [hb, ih]
  · rw [if_neg h]
    simp only [if_neg h]
    induction glyphCells cfg with
    | nil => rfl
    | cons c l ih =>
      by_cases hb : glyphBit (glyphOf cfg ch) c.1 c.2 = true <;> simp [hb, ih]

/-- R203: which cells are painted, and how. -/
theorem paintCalls_mem {cfg : Config} {ch : Byte} {fg bg : Word16} {c : (Nat × Nat) × Word16} :
    c ∈ paintCalls cfg ch fg bg ↔ c.1 ∈ glyphCells cfg ∧
      (if glyphBit (glyphOf cfg ch) c.1.1 c.1.2 then c.2 = fg else (fg ≠ bg ∧ c.2 = bg)) := by
  unfold paintCalls
  rw [List.mem_filterMap]
  constructor
  · rintro ⟨a, ha, he⟩
    split at he
    · rename_i hb; cases he; exact ⟨ha, by rw [if_pos hb]⟩
    · rename_i hb
      split at he
      · cases he
      · rename_i hne; cases he; exact ⟨ha, by rw [if_neg hb]; exact ⟨hne, rfl⟩⟩
  · rintro ⟨ha, he⟩
    refine ⟨c.1, ha, ?_⟩
    split at he
    · rename_i hb; rw [if_pos hb, ← he]
    · rename_i hb; rw [if_neg hb, if_neg he.1, ← he.2]

/-- R205: a glyph of size 0 is no act at all. -/
theorem size_zero_acts (cfg : Config) (x y : Int) (ch : Byte) (fg bg : Word16) :
    charActs cfg x y ch fg bg 0 = [] := by
  unfold charActs
  split
  · rfl
  · rw [List.flatMap_eq_nil_iff]
    intro c _
    unfold paintActs fillActs
    simp only [Nat.zero_ne_one, if_false]
    cases hr : clip cfg (x + c.1.1 * (0 : Nat)) (y + c.1.2 * (0 : Nat)) 0 0 with
    | none => rfl
    | some r =>
      obtain ⟨-, -, -, hw, -, -, -, -, -, ew, -⟩ := clip_some hr
      simp at ew; omega

theorem grid_unique {n i i' d : Nat} (h1 : i * n ≤ d) (h2 : d < i * n + n) (h1' : i' * n ≤ d)
    (h2' : d < i' * n + n) : i = i' := by
  rcases Nat.lt_trichotomy i i' with h | h | h
  · have := Nat.mul_le_mul_right n (Nat.succ_le_of_lt h); rw [Nat.succ_mul] at this; omega
  · exact h
  · have := Nat.mul_le_mul_right n (Nat.succ_le_of_lt h); rw [Nat.succ_mul] at this; omega

/-- R203: the blocks of two cells of a glyph do not overlap. -/
theorem cell_unique {cfg : Config} {x y : Int} {n i j i' j' gx gy : Nat}
    (h : covers cfg (x + i * n) (y + j * n) n n gx gy = true)
    (h' : covers cfg (x + i' * n) (y + j' * n) n n gx gy = true) : i = i' ∧ j = j' := by
  simp only [covers, Bool.and_eq_true, decide_eq_true_eq] at h h'
  simp only [← Int.natCast_mul] at h h'
  constructor
  · exact grid_unique (d := (gx - x).toNat) (n := n) (by omega) (by omega) (by omega) (by omega)
  · exact grid_unique (d := (gy - y).toNat) (n := n) (by omega) (by omega) (by omega) (by omega)

end Sys2Proof.Machine
end

