-- ==== Sys2Proof/Laws/Fault.lean ====
section
/-! SUPPORT. What a failing transaction leaves of the part of a rule in front of it (60_exceptions.md R264): the
stagings made before it, the pins, and the receiver's cells (43_panel_receiver.md R245). -/

namespace Sys2Proof.Machine

/-! ### Stagings in front of a failing transaction -/

/-- A script made of blocks, each a staging and then six transactions. -/
inductive Blocks : List Act → Prop
  | nil : Blocks []
  | block (n : Nat) (c : Word16) {evs : List Event} {rest : List Act} (h6 : txs evs = 6)
      (hr : Blocks rest) : Blocks (.stage n c :: (acts evs ++ rest))

theorem Blocks.append {a b : List Act} (ha : Blocks a) (hb : Blocks b) : Blocks (a ++ b) := by
  induction ha with
  | nil => exact hb
  | block n c h6 hr ih =>
    rw [List.cons_append, List.append_assoc]
    exact .block n c h6 ih

theorem blocks_flatMap {β : Type} (l : List β) {f : β → List Act} (h : ∀ b, Blocks (f b)) :
    Blocks (l.flatMap f) := by
  induction l with
  | nil => exact .nil
  | cons b l ih => exact (h b).append ih

theorem rectActs_blocks (cfg : Config) (x y : Int) (w h : Nat) (c : Word16) :
    Blocks (rectActs cfg x y w h c) := by
  have := Blocks.block (w * h) c (evs := rectEvents cfg x y w h c) rfl .nil
  rwa [List.append_nil] at this

theorem fillActs_blocks (cfg : Config) (x y : Int) (w h : Nat) (c : Word16) :
    Blocks (fillActs cfg x y w h c) := by
  unfold fillActs
  split
  · exact .nil
  · exact rectActs_blocks _ _ _ _ _ _

theorem pixelActs_blocks (cfg : Config) (x y : Int) (c : Word16) : Blocks (pixelActs cfg x y c) := by
  unfold pixelActs
  split
  · exact rectActs_blocks _ _ _ _ _ _
  · exact .nil

theorem charActs_blocks (cfg : Config) (x y : Int) (ch : Byte) (fg bg : Word16) (size : Nat) :
    Blocks (charActs cfg x y ch fg bg size) := by
  unfold charActs
  split
  · exact .nil
  · refine blocks_flatMap _ fun c => ?_
    unfold paintActs
    split
    · exact pixelActs_blocks _ _ _ _
    · exact fillActs_blocks _ _ _ _ _ _

/-- R171, R175, R177, R202: a drawing request's script is made of blocks. -/
theorem drawing_blocks {i : Instr} (hi : isDrawing i = true) (cfg : Config) :
    Blocks (script cfg i) := by
  cases i with
  | fillScreen color => exact rectActs_blocks _ _ _ _ _ _
  | fillRect x y w h color => exact fillActs_blocks _ _ _ _ _ _
  | drawPixel x y color => exact pixelActs_blocks _ _ _ _
  | drawChar x y ch fg bg size => exact charActs_blocks _ _ _ _ _ _ _
  | drawString col row text fg bg size => exact blocks_flatMap _ fun k => charActs_blocks _ _ _ _ _ _ _
  | _ => cases hi

theorem stagings_of_not_drawing {i : Instr} (hi : isDrawing i = false) (cfg : Config) :
    stagings cfg i = [] := by
  cases i <;> first | rfl | cases hi

/-- In front of the transaction number `n` of a script of blocks, `n / 6 + 1` stagings were made. -/
theorem Blocks.staged_before {l : List Act} (hb : Blocks l) {before rest : List Act} {mode : Mode}
    {bs : List Byte} {r : TxResult} (hl : l = before ++ .event (.tx mode bs r) :: rest) :
    stagesOf before = (stagesOf l).take (txs (eventsOf before) / 6 + 1) := by
  induction hb generalizing before with
  | nil => simp at hl
  | @block n c evs l' h6 hr ih =>
    cases before with
    | nil => cases hl
    | cons a before =>
      rw [List.cons_append] at hl
      obtain ⟨rfl, ht⟩ := List.cons.inj hl
      have next : ∀ a', before = acts evs ++ a' → l' = a' ++ .event (.tx mode bs r) :: rest →
          stagesOf (.stage n c :: before) = (stagesOf (.stage n c :: (acts evs ++ l'))).take
            (txs (eventsOf (.stage n c :: before)) / 6 + 1) := by
        rintro a' rfl hl'
        have e : (txs evs + txs (eventsOf a')) / 6 = txs (eventsOf a') / 6 + 1 := by omega
        simp only [stagesOf_stage, stagesOf_append, stagesOf_acts, List.nil_append, eventsOf_stage,
          eventsOf_append, eventsOf_acts, txs_append, e, List.take_succ_cons, ih hl']
      rcases List.append_eq_append_iff.1 ht with ⟨a', h1, h2⟩ | ⟨b', h1, h2⟩
      · exact next a' h1 h2
      · cases b' with
        | nil => exact next [] (by rw [h1]; simp) (by simpa using h2.symm)
        | cons x b' =>
          obtain ⟨rfl, -⟩ := List.cons.inj h2
          have hs : stagesOf before = [] := by
            have := stagesOf_acts evs
            rw [h1, stagesOf_append] at this
            exact (List.append_eq_nil_iff.1 this).1
          have ht : txs (eventsOf before) < 6 := by
            have := h6
            rw [← eventsOf_acts evs, h1, eventsOf_append, eventsOf_event, txs_append,
              txs_cons_tx] at this
            omega
          simp only [stagesOf_stage, eventsOf_stage, hs, Nat.div_eq_of_lt ht, Nat.zero_add,
            List.take_succ_cons, List.take_zero]

/-- R264: scratch holds the stagings made in front of the failing transaction, and nothing else is written. -/
theorem before_scratch {i : Instr} {s : State} {before rest : List Act} {mode : Mode}
    {bs : List Byte} {r : TxResult} (hl : script s.cfg i = before ++ .event (.tx mode bs r) :: rest) :
    (s.applyAll before).scratch =
      (s.stageAll ((stagings s.cfg i).take (txs (eventsOf before) / 6 + 1))).scratch := by
  rw [applyAll_stages, ← stagesOf_script]
  cases hi : isDrawing i with
  | true => rw [(drawing_blocks hi s.cfg).staged_before hl]
  | false =>
    have h0 : stagesOf (script s.cfg i) = [] := by rw [stagesOf_script, stagings_of_not_drawing hi]
    have hb : stagesOf before = [] := by
      rw [hl, stagesOf_append] at h0
      exact (List.append_eq_nil_iff.1 h0).1
    rw [h0, hb]; rfl

/-! ### Pins and receiver in front of a failing transaction -/

/-- The acts of INIT in front of its first transaction: the reset pulse. -/
def pulseActs (cfg : Config) : List Act :=
  acts [.pin .reset .low, .delay cfg.resetDelayMs, .pin .reset .high, .delay cfg.resetDelayMs]

/-- R140: the part of INIT in front of a transaction is the reset pulse and then no pin change. -/
theorem init_before {cfg : Config} {before rest : List Act} {mode : Mode} {bs : List Byte}
    {r : TxResult} (hl : script cfg .init = before ++ .event (.tx mode bs r) :: rest) :
    ∃ after, before = pulseActs cfg ++ after ∧ PinFree (eventsOf after) := by
  have hs : script cfg .init = pulseActs cfg ++ acts (replayEvents cfg ++ [.pin .backlight cfg.blOnLevel]) := by
    show acts (initEvents cfg) = _
    unfold initEvents pulseActs
    rw [← acts_append, List.append_assoc]
  rw [hs] at hl
  match before, hl with
  | [], hl => cases hl
  | [_], hl => cases hl
  | [_, _], hl => cases hl
  | [_, _, _], hl => cases hl
  | a :: b :: c :: d :: after, hl =>
    simp only [pulseActs, acts, List.map_cons, List.map_nil, List.cons_append, List.nil_append,
      List.cons.injEq] at hl
    obtain ⟨rfl, rfl, rfl, rfl, hl⟩ := hl
    refine ⟨after, rfl, ?_⟩
    have he := congrArg eventsOf hl
    rw [eventsOf_map, eventsOf_append, eventsOf_event] at he
    rcases List.append_eq_append_iff.1 he with ⟨a', -, h2⟩ | ⟨b', h1, -⟩
    · match a', h2 with
      | [], h2 => cases h2
      | [_], h2 => cases h2
      | _ :: _ :: _, h2 => cases h2
    · have := replayEvents_pinFree cfg
      rw [h1] at this
      exact fun p l hm => this p l (List.mem_append_left _ hm)

/-- R26, R140: the pins in front of a failing transaction. -/
theorem before_pins {i : Instr} {s : State} {before rest : List Act} {mode : Mode} {bs : List Byte}
    {r : TxResult} (hl : script s.cfg i = before ++ .event (.tx mode bs r) :: rest) :
    (i ≠ .init → (s.applyAll before).pins = s.pins) ∧
      (i = .init → (s.applyAll before).pins =
        { reset := some .high, backlight := s.pins.backlight }) := by
  refine ⟨fun hi => applyAll_pins s before ?_, ?_⟩
  · have := script_pinFree hi s.cfg
    rw [← eventsOf_script, hl, eventsOf_append] at this
    exact fun p l hm => this p l (List.mem_append_left _ hm)
  · rintro rfl
    obtain ⟨after, rfl, hp⟩ := init_before hl
    rw [applyAll_append, applyAll_pins _ after hp]
    simp [pulseActs, acts, State.apply, Pins.drive]

/-- R233, R234: the receiver in front of a failing transaction has seen the events up to it. -/
theorem before_panel {i : Instr} {s : State} (ha : Admitted i s) {before rest : List Act}
    {mode : Mode} {bs : List Byte} {r : TxResult}
    (hl : script s.cfg i = before ++ .event (.tx mode bs r) :: rest) :
    (s.applyAll before).panel = (eventsOf before).foldl (Panel.observe s.cfg) s.panel := by
  have hok : OkList (eventsOf before) := (script_before ha hl).2.1.ok
  by_cases hi : i = .init
  · subst hi
    obtain ⟨after, rfl, hp⟩ := init_before hl
    rw [eventsOf_append] at hok
    have h := (applyAll_performed (s.applyAll (pulseActs s.cfg)) after hp
      fun ev hm => hok ev (List.mem_append_right _ hm)).panel
    rw [applyAll_append, h, applyAll_cfg, eventsOf_append, List.foldl_append]
    congr 1
  · refine (applyAll_performed s before ?_ hok).panel
    have := script_pinFree hi s.cfg
    rw [← eventsOf_script, hl, eventsOf_append] at this
    exact fun p l hm => this p l (List.mem_append_left _ hm)

theorem observe_gram_wf (cfg : Config) (evs : List Event) {p : Panel} (h : Gram.wf p.gram) :
    Gram.wf (evs.foldl (Panel.observe cfg) p).gram := by
  induction evs generalizing p with
  | nil => exact h
  | cons ev evs ih =>
    refine ih ?_
    match ev with
    | .tx _ _ .ok => exact Panel.receive_gram_wf h _ _ _
    | .tx _ _ .err => exact h
    | .pin .reset .high => exact Panel.Form.powerOn.gram
    | .pin .reset .low => exact h
    | .pin .backlight _ => exact h
    | .delay _ => exact h

/-- R264: everything the first failing transaction of an instruction leaves, by the part of its script in front
of that transaction. -/
theorem exec_fails {i : Instr} {s : State} {n d : Nat} (ha : Admitted i s) (hfail : FailsAfter s n d)
    (hn : n < txs (expectedEvents s.cfg i)) :
    ∃ before mode bs r rest, script s.cfg i = before ++ .event (.tx mode bs r) :: rest ∧
      txs (eventsOf before) = n ∧
      cutAt n (expectedEvents s.cfg i) = eventsOf before ++ [.tx mode bs .err] ∧
      exec i s = .next ((s.applyAll before).failTx mode bs d) := by
  obtain ⟨before, mode, bs, r, rest, hl, htx, hcut, hplay⟩ :=
    play_fails hfail (by rwa [eventsOf_script]) (by rw [eventsOf_script]; exact (script_clean ha).ok)
  rw [eventsOf_script] at hcut
  exact ⟨before, mode, bs, r, rest, hl, htx, hcut, by rw [exec_admitted ha, hplay]; rfl⟩

/-- R245: the cells of the window that was current at the failing transaction. -/
theorem failTx_window {s : State} (h : Gram.wf s.panel.gram) (mode : Mode) (bs : List Byte) (d : Nat) :
    (∀ xs xe ys ye c r : Word16, s.panel.xs = some xs → s.panel.xe = some xe →
      s.panel.ys = some ys → s.panel.ye = some ye → xs ≤ c → c ≤ xe → ys ≤ r → r ≤ ye →
      (s.failTx mode bs d).panel.cell c r = none) ∧
    ((s.panel.xs = none ∨ s.panel.xe = none ∨ s.panel.ys = none ∨ s.panel.ye = none) →
      ∀ c r : Word16, (s.failTx mode bs d).panel.cell c r = none) := by
  refine ⟨fun xs xe ys ye c r h1 h2 h3 h4 a1 a2 a3 a4 => ?_, fun hn c r => ?_⟩
  · refine Panel.receiveFailed_cell h _ _ _ _ c r ?_
    rw [Panel.inWindow_of h1 h2 h3 h4 (BitVec.le_trans a1 a2) (BitVec.le_trans a3 a4)]
    simp only [BitVec.le_def] at a1 a2 a3 a4
    simp [a1, a2, a3, a4]
  · exact Panel.receiveFailed_cell h _ _ _ _ c r (Panel.inWindow_unknown hn _ _)

end Sys2Proof.Machine
end

