-- ==== Sys2Proof/Laws/PerInstr.lean ====
section
/-! SUPPORT. The statement made for every instruction, one lemma per constructor: the operands of a well-formed
instruction survive the byte layout of its frame (30_encoding.md R98 to R101). -/

namespace Sys2Proof.Laws.Encoding

/-- Under every configuration the bytes of the operands parse back to the operands, and nothing is left over. -/
def Statement (i : Instr) : Prop :=
  i.wf = true → ∀ cfg : Config,
    parseFields (shapesOf (portOf i) (headOf cfg i))
      (encodeFields (shapesOf (portOf i) (headOf cfg i)) (operandsOf i)) = some (operandsOf i, [])

theorem init : Statement .init := fun _ _ => parse_nil

theorem fillScreen (color : Word16) : Statement (.fillScreen color) := fun _ _ =>
  parse_cons (unsignedOperand_exact color) parse_nil

theorem fillRect (x y w h color : Word16) : Statement (.fillRect x y w h color) := fun _ _ =>
  parse_cons (signedOperand_exact x) <| parse_cons (signedOperand_exact y) <|
    parse_cons (unsignedOperand_exact w) <| parse_cons (unsignedOperand_exact h) <|
      parse_cons (unsignedOperand_exact color) parse_nil

theorem drawPixel (x y color : Word16) : Statement (.drawPixel x y color) := fun _ _ =>
  parse_cons (signedOperand_exact x) <| parse_cons (signedOperand_exact y) <|
    parse_cons (unsignedOperand_exact color) parse_nil

theorem drawChar (x y : Word16) (ch : Byte) (fg bg : Word16) (size : Byte) :
    Statement (.drawChar x y ch fg bg size) := fun _ _ =>
  parse_cons (signedOperand_exact x) <| parse_cons (signedOperand_exact y) <|
    parse_cons (byteOperand_exact ch) <| parse_cons (unsignedOperand_exact fg) <|
      parse_cons (unsignedOperand_exact bg) <| parse_cons (byteOperand_exact size) parse_nil

theorem drawString (col row : Byte) (text : List Byte) (fg bg : Word16) (size : Byte) :
    Statement (.drawString col row text fg bg size) := fun hwf _ =>
  parse_cons (byteOperand_exact col) <| parse_cons (byteOperand_exact row) <|
    parse_cons (s := .text) hwf <| parse_cons (unsignedOperand_exact fg) <|
      parse_cons (unsignedOperand_exact bg) <| parse_cons (byteOperand_exact size) parse_nil

/-- A selector from 0x06 on has no operand. -/
theorem requestShapes_reserved {sel : Byte} (h : 6 ≤ sel.toNat) : requestShapes sel = [] := by
  unfold requestShapes; split <;> first | rfl | omega

theorem reserved (sel : Byte) : Statement (.reserved sel) := fun hwf _ => by
  have h : requestShapes sel = [] := requestShapes_reserved (by simpa [Instr.wf] using hwf)
  simp only [portOf, headOf, shapesOf, operandsOf, h]
  exact parse_nil

theorem sendCommand (op : Byte) : Statement (.sendCommand op) := fun _ _ =>
  parse_cons (byteOperand_exact op) parse_nil

theorem sendParameters (bs : List Byte) : Statement (.sendParameters bs) := fun _ _ => parse_rest bs

theorem selectWindow (x0 y0 x1 y1 : Int) : Statement (.selectWindow x0 y0 x1 y1) := fun hwf _ => by
  simp only [Instr.wf, cornersOrdered, Bool.and_eq_true, decide_eq_true_eq] at hwf
  exact parse_cons (s := .coord) (by simp only [Operand.exact]; omega) <|
    parse_cons (s := .coord) (by simp only [Operand.exact]; omega) <|
      parse_cons (s := .coord) (by simp only [Operand.exact]; omega) <|
        parse_cons (s := .coord) (by simp only [Operand.exact]; omega) parse_nil

theorem runInitSequence : Statement .runInitSequence := fun _ _ => parse_nil

theorem caset (data : List Byte) : Statement (.caset data) := fun _ _ => parse_rest data

theorem raset (data : List Byte) : Statement (.raset data) := fun _ _ => parse_rest data

theorem ramwr (data : List Byte) : Statement (.ramwr data) := fun _ _ => parse_rest data

end Sys2Proof.Laws.Encoding
end

