-- ==== Sys2Proof/Laws/Simulation.lean ====
section
/-! SUPPORT. Two states that agree in all an instruction reads have outcomes that agree so again. A `Simulation` is
a relation of states that every act, every raise and every end of a rule keeps; `exec_sim` and `step_sim` lift it
to exec and to the step. -/

namespace Sys2Proof.Machine

/-- Related rules in progress: both run on, or both are stopped. -/
def RunRel (R : State → State → Prop) : Run → Run → Prop
  | .running s, .running t => R s t
  | .stopped s, .stopped t => R s t
  | .running _, .stopped _ => False
  | .stopped _, .running _ => False

/-- Related outcomes: next states related, or the same stop. -/
def OutcomeRel (R : State → State → Prop) :
    Host.Outcome State Fault Refusal → Host.Outcome State Fault Refusal → Prop
  | .next t, .next u => R t u
  | .fault a, .fault b => a = b
  | .refused a, .refused b => a = b
  | .next _, .fault _ => False
  | .next _, .refused _ => False
  | .fault _, .next _ => False
  | .fault _, .refused _ => False
  | .refused _, .next _ => False
  | .refused _, .fault _ => False

/-- A relation that everything an instruction does keeps. -/
structure Simulation (R : State → State → Prop) : Prop where
  cfg      : ∀ {s s'}, R s s' → s'.cfg = s.cfg
  phase    : ∀ {s s'}, R s s' → s'.phase = s.phase
  act      : ∀ {s s'} (a : Act), R s s' → RunRel R (a.run s) (a.run s')
  notReady : ∀ {s s'} (sel : Byte), R s s' →
    R (s.raise .notReady (.selector sel)) (s'.raise .notReady (.selector sel))
  ready    : ∀ {s s'}, R s s' → R s.setReady s'.setReady
  ret      : ∀ {s s'} (v : Option Nat), R s s' → R (s.setRet v) (s'.setRet v)
  wire     : ∀ {s s'} (op : Byte) (data : List Byte), R s s' →
    R (receiveFrame op data s) (receiveFrame op data s')

/-- Related states with the same next answer have related transactions, if both its results are related. -/
theorem transmit_rel {R : State → State → Prop} {s s' : State} (mode : Mode) (bs : List Byte)
    (info : FaultInfo) (ha : s'.answer 0 = s.answer 0)
    (hok : R ((s.useAnswer.emit (.tx mode bs .ok)).setPanel (s.panel.receive s.cfg mode bs))
      ((s'.useAnswer.emit (.tx mode bs .ok)).setPanel (s'.panel.receive s'.cfg mode bs)))
    (herr : ∀ d, R (((s.useAnswer.emit (.tx mode bs .err)).setPanel
        (s.panel.receiveFailed s.cfg mode bs d)).raise .transportError info)
      (((s'.useAnswer.emit (.tx mode bs .err)).setPanel
        (s'.panel.receiveFailed s'.cfg mode bs d)).raise .transportError info)) :
    RunRel R (transmit mode bs info s) (transmit mode bs info s') := by
  unfold transmit
  rw [ha]
  cases s.answer 0 with
  | ok => exact hok
  | err d => exact herr d

/-- Outcomes whose next states agree up to what is hidden are the same up to it. -/
theorem OutcomeRel.sameUpTo {R : State → State → Prop} {hide : State → State}
    (h : ∀ s t, R s t → hide s = hide t) {a b : Host.Outcome State Fault Refusal}
    (hab : OutcomeRel R a b) : SameUpTo hide a b := by
  cases a <;> cases b <;> first | exact h _ _ hab | exact hab

namespace Simulation

variable {R : State → State → Prop} (hR : Simulation R)

include hR

theorem play (l : List Act) {s s' : State} (h : R s s') :
    RunRel R (Machine.play l s) (Machine.play l s') := by
  induction l generalizing s s' with
  | nil => exact h
  | cons a l ih =>
    have ha := hR.act a h
    unfold Machine.play
    revert ha
    cases a.run s <;> cases a.run s' <;> intro ha <;>
      first | exact ih ha | exact ha | exact ha.elim

theorem conclude (i : Instr) {s s' : State} (h : R s s') :
    R (Machine.conclude i s) (Machine.conclude i s') := by
  cases i <;> first | exact hR.ret _ h | exact h | exact hR.ret _ (hR.ready h)

theorem wireResult (i : Instr) {s s' : State} (h : R s s') :
    R (Machine.wireResult i s) (Machine.wireResult i s') := by
  cases i <;> simp only [Machine.wireResult, hR.cfg h] <;> first | exact hR.wire _ _ h | exact h

theorem admitted {i : Instr} {s s' : State} (h : R s s') (ha : Admitted i s) : Admitted i s' := by
  unfold Admitted
  rw [hR.cfg h, hR.phase h]
  exact ha

/-- Related states have related outcomes. -/
theorem exec_sim (i : Instr) {s s' : State} (h : R s s') :
    OutcomeRel R (exec i s) (exec i s') := by
  cases he : exec i s with
  | fault f => rw [(exec_stops_congr (hR.cfg h) (hR.phase h)).1 f he]; rfl
  | refused r => rw [(exec_stops_congr (hR.cfg h) (hR.phase h)).2 r he]; rfl
  | next t =>
    obtain ⟨hwf, hr⟩ := exec_next he
    have hadm : Admitted i s → OutcomeRel R (.next t) (exec i s') := by
      intro ha
      rw [exec_admitted ha] at he
      rw [exec_admitted (hR.admitted h ha), hR.cfg h]
      cases he
      have hp := hR.play (script s.cfg i) h
      revert hp
      cases Machine.play (script s.cfg i) s <;> cases Machine.play (script s.cfg i) s' <;>
        intro hp <;> first | exact hR.conclude i hp | exact hp | exact hp.elim
    cases hr with
    | done ha _ => exact hadm ha
    | failed ha _ _ _ _ _ _ _ _ => exact hadm ha
    | notReady hi hp ht =>
      subst ht
      rcases exec_shape i with ⟨-, body, hb⟩ | ⟨hd, -⟩ | ⟨x0, y0, x1, y1, rfl⟩ | ⟨sel, rfl⟩ | ⟨hw, -⟩
      · rw [hb, admitDrawing, hR.cfg h, if_pos hwf, hR.phase h, hp]
        exact hR.notReady _ h
      · rw [hd] at hi; cases hi
      · cases hi
      · cases hi
      · rw [not_wire_of_drawing hi] at hw; cases hw
    | wire hi ht =>
      subst ht
      rcases exec_shape i with ⟨hd, -⟩ | ⟨-, had, -⟩ | ⟨x0, y0, x1, y1, rfl⟩ | ⟨sel, rfl⟩ | ⟨-, hb⟩
      · rw [not_wire_of_drawing hd] at hi; cases hi
      · have := had State.reset (by decide) (by decide)
        rw [not_wire_of_admitted this] at hi; cases hi
      · cases hi
      · cases hi
      · rw [hb, hR.cfg h, if_pos hwf]
        exact hR.wireResult i h

/-- The same for the step, where the pending inputs are the same and block reset keeps the relation. -/
theorem step_sim {s s' : State} (h : R s s') (hinbox : s'.inbox = s.inbox)
    (hset : ∀ q, R (s.setInbox q) (s'.setInbox q))
    (hreset : ∀ q c, R ((s.setInbox q).blockReset c) ((s'.setInbox q).blockReset c)) :
    OutcomeRel R (step s) (step s') := by
  unfold step
  rw [hR.cfg h, hinbox]
  by_cases hwf : s.cfg.wf = true
  · rw [if_pos hwf, if_pos hwf]
    cases s.inbox with
    | nil => exact h
    | cons x rest =>
      cases x with
      | blockReset c =>
        simp only [runBlockReset]
        split
        · exact hreset rest c
        · rfl
      | frame f =>
        simp only
        cases decode s.cfg f with
        | ok i =>
          simp only [hR.phase h]
          cases recovery s.phase i rest with
          | none => exact hR.exec_sim i (hset rest)
          | some r =>
            simp only [runBlockReset]
            split
            · exact hreset r.2 r.1
            · rfl
        | error r =>
          cases r with
          | emptyFrame => rfl
          | badOperands sel => rfl
          | unknownMicroOp id => rfl
          | otherOpcode op =>
            simp only [runReject, receiveOther]
            split <;> exact hR.wire _ _ (hset rest)
  · rw [if_neg hwf, if_neg hwf]; rfl

end Simulation

end Sys2Proof.Machine
end

