-- ==== Sys2Proof/Laws/Step.lean ====
section
/-! SUPPORT. Everything a step can do, said once (`step_next`), and when a stuck request waits for a block reset
(60_exceptions.md R264, 70_reset_and_hazards.md R290). -/

namespace Sys2Proof.Machine

/-- The first block reset, and nothing but frames in front of it. -/
theorem nextReset_eq_some {inputs : List Input} {cfg : Config} {later : List Input} :
    nextReset inputs = some (cfg, later) ↔
      ∃ before, inputs = before ++ .blockReset cfg :: later ∧ ∀ x ∈ before, ∃ f, x = .frame f := by
  induction inputs with
  | nil => simp [nextReset]
  | cons x inputs ih =>
    cases x with
    | blockReset c =>
      constructor
      · intro h; cases h; exact ⟨[], rfl, by simp⟩
      · rintro ⟨before, he, hf⟩
        cases before with
        | nil => cases he; rfl
        | cons y before =>
          cases he
          obtain ⟨f, hy⟩ := hf (.blockReset c) (by simp)
          cases hy
    | frame f =>
      rw [nextReset, ih]
      constructor
      · rintro ⟨before, rfl, hf⟩
        exact ⟨.frame f :: before, rfl, List.forall_mem_cons.2 ⟨⟨f, rfl⟩, hf⟩⟩
      · rintro ⟨before, he, hf⟩
        cases before with
        | nil => cases he
        | cons y before =>
          cases he
          exact ⟨before, rfl, (List.forall_mem_cons.1 hf).2⟩

theorem nextReset_eq_none {inputs : List Input} (h : ∀ c, Input.blockReset c ∉ inputs) :
    nextReset inputs = none := by
  cases hr : nextReset inputs with
  | none => rfl
  | some p =>
    obtain ⟨c, later⟩ := p
    obtain ⟨before, rfl, -⟩ := nextReset_eq_some.1 hr
    exact absurd (by simp) (h c)

theorem runsOnBlock_iff {i : Instr} :
    runsOnBlock i = true ↔ isWire i = false ∧ ∀ sel, i ≠ .reserved sel := by
  cases i <;> simp [runsOnBlock, isWire]

theorem recovery_eq_some {phase : Phase} {i : Instr} {behind : List Input} {p : Config × List Input} :
    recovery phase i behind = some p ↔
      phase = .failed ∧ runsOnBlock i = true ∧ nextReset behind = some p := by
  cases phase <;> simp [recovery]

/-- Outside FAILED, and where no reset stands behind it, an instruction is executed as usual. -/
theorem recovery_eq_none {phase : Phase} {i : Instr} {behind : List Input}
    (h : phase = .failed → isWire i = false → (∀ sel, i ≠ .reserved sel) →
      ∀ c, Input.blockReset c ∉ behind) : recovery phase i behind = none := by
  cases hr : recovery phase i behind with
  | none => rfl
  | some p =>
    obtain ⟨hp, hi, hn⟩ := recovery_eq_some.1 hr
    obtain ⟨h1, h2⟩ := runsOnBlock_iff.1 hi
    rw [nextReset_eq_none (h hp h1 h2)] at hn
    cases hn

/-- A step on a frame that decodes. -/
theorem step_frame {s : State} {f : Frame} {rest : List Input} {i : Instr} (hwf : s.cfg.wf = true)
    (hin : s.inbox = .frame f :: rest) (hd : decode s.cfg f = .ok i) :
    step s = match recovery s.phase i rest with
      | some (cfg, later) => runBlockReset cfg (s.setInbox later)
      | none => exec i (s.setInbox rest) := by
  unfold step
  rw [if_pos hwf, hin]
  dsimp only
  generalize decode s.cfg f = d at hd
  subst hd
  rfl

/-- A step on a frame that does not decode. -/
theorem step_reject {s : State} {f : Frame} {rest : List Input} {r : Reject} (hwf : s.cfg.wf = true)
    (hin : s.inbox = .frame f :: rest) (hd : decode s.cfg f = .error r) :
    step s = runReject r f.operands (s.setInbox rest) := by
  unfold step
  rw [if_pos hwf, hin]
  simp only [hd]

theorem step_reset {s : State} {c : Config} {rest : List Input} (hwf : s.cfg.wf = true)
    (hin : s.inbox = .blockReset c :: rest) : step s = runBlockReset c (s.setInbox rest) := by
  unfold step
  rw [if_pos hwf, hin]

/-- What a step that answers a next state has done. -/
inductive Stepped (s t : State) : Prop
  /-- R291: it waited. -/
  | waited (hin : s.inbox = []) (ht : t = s)
  /-- R290: it took a block reset, in front or, in FAILED, behind requests that have no step. -/
  | reset (before : List Input) (c : Config) (rest : List Input)
      (hin : s.inbox = before ++ .blockReset c :: rest)
      (hbefore : before = [] ∨ s.phase = .failed ∧ ∀ x ∈ before, ∃ f, x = .frame f)
      (ht : t = (s.setInbox rest).blockReset c)
  /-- It ran the instruction of the oldest frame. -/
  | ran (f : Frame) (rest : List Input) (i : Instr) (hin : s.inbox = .frame f :: rest)
      (hd : decode s.cfg f = .ok i) (ht : exec i (s.setInbox rest) = .next t)
  /-- R242: the receiver took another opcode from the wire. -/
  | other (f : Frame) (rest : List Input) (op : Byte) (data : List Byte)
      (hin : s.inbox = .frame f :: rest) (ht : t = receiveFrame op data (s.setInbox rest))

theorem runBlockReset_next {c : Config} {s t : State} (h : runBlockReset c s = .next t) :
    t = s.blockReset c := by
  unfold runBlockReset at h
  split at h <;> cases h
  rfl

theorem runReject_next {r : Reject} {operands : List Operand} {s t : State}
    (h : runReject r operands s = .next t) : ∃ op data, t = receiveFrame op data s := by
  cases r with
  | emptyFrame => cases h
  | badOperands _ => cases h
  | unknownMicroOp _ => cases h
  | otherOpcode op =>
    simp only [runReject, receiveOther] at h
    split at h <;> (cases h; exact ⟨_, _, rfl⟩)

/-- All a step can do when it answers a next state. -/
theorem step_next {s t : State} (h : step s = .next t) : s.cfg.wf = true ∧ Stepped s t := by
  have hwf : s.cfg.wf = true := by
    by_contra hne
    unfold step at h
    rw [if_neg hne] at h
    cases h
  refine ⟨hwf, ?_⟩
  cases hin : s.inbox with
  | nil =>
    unfold step at h
    rw [if_pos hwf, hin] at h
    cases h
    exact .waited hin rfl
  | cons x rest =>
    cases x with
    | blockReset c =>
      rw [step_reset hwf hin] at h
      exact .reset [] c rest hin (.inl rfl) (runBlockReset_next h)
    | frame f =>
      cases hd : decode s.cfg f with
      | error r =>
        rw [step_reject hwf hin hd] at h
        obtain ⟨op, data, ht⟩ := runReject_next h
        exact .other f rest op data hin ht
      | ok i =>
        rw [step_frame hwf hin hd] at h
        cases hr : recovery s.phase i rest with
        | none =>
          rw [hr] at h
          exact .ran f rest i hin hd h
        | some p =>
          obtain ⟨c, later⟩ := p
          rw [hr] at h
          obtain ⟨hp, -, hn⟩ := recovery_eq_some.1 hr
          obtain ⟨before, rfl, hf⟩ := nextReset_eq_some.1 hn
          exact .reset (.frame f :: before) c later hin
            (.inr ⟨hp, List.forall_mem_cons.2 ⟨⟨f, rfl⟩, hf⟩⟩) (runBlockReset_next h)

end Sys2Proof.Machine
end

