-- ==== Sys2Proof/Tests/Slice0.lean ====
section
/-! SUPPORT. Tests. Expected results are those of 95_test_vectors.md (the vector is named) or of the rule named;
the second half holds, for every statement with hypotheses, a state and operands that meet them together. -/

namespace Sys2Proof.Tests

open Sys2Proof.Machine

/-! ### States to test on -/

/-- READY, the next `n` transactions succeed. -/
def readyState (cfg : Config) (n : Nat) : State :=
  { State.reset with
    cfg := cfg
    phase := .ready
    pins := { reset := some .high, backlight := some cfg.blOnLevel }
    answers := List.replicate n .ok }

/-- UNINIT, the next `n` transactions succeed. -/
def uninitState (n : Nat) : State := { State.reset with answers := List.replicate n .ok }

/-- FAILED after a TransportError of SEND_COMMAND 0x2A. -/
def failedState : State :=
  { State.reset with
    phase := .failed
    fault := some .transportError
    faultInfo := some (.opcode 0x2A#8)
    trace := [.tx .command [0x2A#8] .err] }

/-- The reference configuration under the premise PANEL_MODE_OK. -/
def glassConfig : Config := { Config.reference with panelModeOk := true }

/-- A panel of 3 by 2 pixels. -/
def smallConfig : Config := { Config.reference with width := 3, height := 2, scratchBytes := 12 }

/-- A receiver whose window is the columns 2 to 3 of row 1, with one known cell in it and one outside. -/
def windowPanel : Panel :=
  { Panel.powerOn with
    xs := some 2#16
    xe := some 3#16
    ys := some 1#16
    ye := some 1#16
    gram := [(1, [(3, 0xAAAA#16), (4, 0xBBBB#16)])] }

/-- READY with that receiver. -/
def windowState : State := { readyState Config.reference 8 with panel := windowPanel }

/-- The next state of an outcome. -/
def nextOf (o : Host.Outcome State Fault Refusal) : State :=
  match o with
  | .next t => t
  | .fault _ => State.reset
  | .refused _ => State.reset

/-- A request as the step takes it. -/
def offer (s : State) (port : Port) (head : Byte) (operands : List Operand) : State :=
  s.setInbox [.frame { port := port, head := head, operands := operands }]

/-! ### WellFormed refuses ill-formed terms (R100, R101, R135, R91, R238) -/

theorem test_wf_text_with_zero : (Instr.drawString 0 0 [0x41#8, 0x00#8, 0x42#8] 0 0 1).wf = false := by
  decide
theorem test_wf_reserved_selector_in_use : (Instr.reserved 0x05#8).wf = false := by decide
theorem test_wf_window_x_unordered : (Instr.selectWindow 2 0 1 0).wf = false := by decide
theorem test_wf_window_y_unordered : (Instr.selectWindow 0 2 0 1).wf = false := by decide
theorem test_wf_window_negative : (Instr.selectWindow (-1) 0 1 0).wf = false := by decide
theorem test_wf_window_too_wide : (Instr.selectWindow 0 0 32768 0).wf = false := by decide
theorem test_wf_caset_short : (Instr.caset [0x00#8, 0x02#8, 0x00#8]).wf = false := by decide
theorem test_wf_raset_long : (Instr.raset [0#8, 1#8, 0#8, 2#8, 0#8]).wf = false := by decide
theorem test_wf_ramwr_half_pixel : (Instr.ramwr [0xF8#8]).wf = false := by decide

/-! ### The configuration's checks (R7, R24, R96) -/

theorem test_config_reference : Config.reference.wf = true := by decide
theorem test_config_scratch_size : { Config.reference with scratchBytes := 40959 }.wf = false := by
  decide
theorem test_config_no_sentinel : { Config.reference with initTable := [] }.wf = false := by decide
theorem test_config_same_opcodes : { Config.reference with opRaset := 0x2A#8 }.wf = false := by decide
theorem test_config_offset : { Config.reference with offsetY := 97 }.wf = false := by decide
theorem test_config_count_over_array :
    { Config.reference with initTable := [.padded 0x3A#8 [] 0x11#8, .padded 0#8 [] 0xFF#8] }.wf
      = false := by decide

/-! ### Words of every family, from R97 to R99 and the programs of 95_test_vectors.md -/

theorem test_decode_init : decodeBytes Config.reference .request [0x00#8] = .ok .init := by decide
theorem test_decode_fill_screen :
    decodeBytes Config.reference .request [0x01#8, 0xFF#8, 0xFF#8] = .ok (.fillScreen 0xFFFF#16) := by
  decide
/-- P2, request 2. -/
theorem test_decode_fill_rect : decodeBytes Config.reference .request
    [0x02#8, 0x00#8, 0x78#8, 0x00#8, 0x96#8, 0x00#8, 0x14#8, 0x00#8, 0x14#8, 0xAB#8, 0xCD#8] =
      .ok (.fillRect 120#16 150#16 20#16 20#16 0xABCD#16) := by decide
/-- P1, request 3. -/
theorem test_decode_draw_pixel : decodeBytes Config.reference .request
    [0x03#8, 0x00#8, 0x7F#8, 0x00#8, 0x9F#8, 0x00#8, 0xF8#8] =
      .ok (.drawPixel 127#16 159#16 0x00F8#16) := by decide
/-- P4, request 2. -/
theorem test_decode_draw_char : decodeBytes Config.reference .request
    [0x04#8, 0#8, 0#8, 0#8, 0#8, 0x41#8, 0xF8#8, 0x00#8, 0xF8#8, 0x00#8, 0x01#8] =
      .ok (.drawChar 0#16 0#16 0x41#8 0xF800#16 0xF800#16 1#8) := by decide
/-- P3, request 3. -/
theorem test_decode_draw_string : decodeBytes Config.reference .request
    [0x05#8, 0x13#8, 0x01#8, 0x41#8, 0x42#8, 0x43#8, 0#8, 0#8, 0#8, 0#8, 0#8, 0x01#8] =
      .ok (.drawString 19#8 1#8 [0x41#8, 0x42#8, 0x43#8] 0#16 0#16 1#8) := by decide
/-- R101: 0x10 is no request. -/
theorem test_decode_reserved : decodeBytes Config.reference .request [0x10#8] =
    .ok (.reserved 0x10#8) := by decide
theorem test_decode_send_command : decodeBytes Config.reference .micro [0x10#8, 0x11#8] =
    .ok (.sendCommand 0x11#8) := by decide
theorem test_decode_send_parameters : decodeBytes Config.reference .micro [0x11#8, 0x05#8, 0x06#8] =
    .ok (.sendParameters [0x05#8, 0x06#8]) := by decide
theorem test_decode_select_window : decodeBytes Config.reference .micro
    [0x12#8, 0#8, 0x05#8, 0#8, 0x06#8, 0#8, 0x07#8, 0#8, 0x08#8] = .ok (.selectWindow 5 6 7 8) := by
  decide
theorem test_decode_run_init : decodeBytes Config.reference .micro [0x13#8] = .ok .runInitSequence := by
  decide
theorem test_decode_caset : decodeBytes Config.reference .wire [0x2A#8, 0#8, 0x02#8, 0#8, 0x81#8] =
    .ok (.caset [0#8, 0x02#8, 0#8, 0x81#8]) := by decide
theorem test_decode_raset : decodeBytes Config.reference .wire [0x2B#8, 0#8, 0x01#8, 0#8, 0xA0#8] =
    .ok (.raset [0#8, 0x01#8, 0#8, 0xA0#8]) := by decide
theorem test_decode_ramwr : decodeBytes Config.reference .wire [0x2C#8, 0xF8#8, 0x00#8] =
    .ok (.ramwr [0xF8#8, 0x00#8]) := by decide
/-- V-E4b: `x` outside its width has no 16-bit field: the frame is refused before any encoding. -/
theorem test_decode_operand_width : decode Config.reference
    { port := .request, head := 0x03#8, operands := [.int 40000, .int 0, .int 0] } =
      .error (.badOperands 0x03#8) := by decide
/-- The opcode table's own words: DRAW_CHAR's selector, and OP_CASET as a wire command. -/
theorem test_table_draw_char : decodeTableWord 8 0x04 = some (.drawChar 0 0 0 0 0 0) := by decide
theorem test_table_caset : decodeTableWord 8 0x2A = some (.caset [0#8, 0#8, 0#8, 0#8]) := by decide

/-! ### The instructions, one step each -/

/-- V-I1. -/
theorem test_init_events : (nextOf (exec .init (uninitState 7))).trace =
    [ .pin .reset .low, .delay 500, .pin .reset .high, .delay 500,
      .tx .command [0x01#8] .ok, .delay 100, .tx .command [0x11#8] .ok, .delay 100,
      .tx .command [0x3A#8] .ok, .tx .data [0x05#8] .ok,
      .tx .command [0x36#8] .ok, .tx .data [0xC8#8] .ok,
      .tx .command [0x29#8] .ok, .delay 100, .pin .backlight .high ] := by decide

/-- V-E5. -/
theorem test_init_first_err :
    let t := nextOf (exec .init { State.reset with answers := [.err 0] })
    t.trace = [ .pin .reset .low, .delay 500, .pin .reset .high, .delay 500,
      .tx .command [0x01#8] .err ] ∧ t.phase = .failed ∧ t.fault = some .transportError ∧
      t.pins.backlight = none := by decide

/-- R171, on a panel of 3 by 2: columns 2 to 4, rows 1 to 2, six pixels low byte first. -/
theorem test_fill_screen_small : (nextOf (exec (.fillScreen 0x001F#16) (readyState smallConfig 6))).trace =
    [ .tx .command [0x2A#8] .ok, .tx .data [0#8, 2#8, 0#8, 4#8] .ok,
      .tx .command [0x2B#8] .ok, .tx .data [0#8, 1#8, 0#8, 2#8] .ok, .tx .command [0x2C#8] .ok,
      .tx .data [0x1F#8, 0#8, 0x1F#8, 0#8, 0x1F#8, 0#8, 0x1F#8, 0#8, 0x1F#8, 0#8, 0x1F#8, 0#8] .ok ] := by
  decide

/-- V-R9. -/
theorem test_fill_rect_clips_one_column :
    (nextOf (exec (.fillRect 127#16 0#16 2#16 1#16 0x1111#16) (readyState Config.reference 6))).trace =
    [ .tx .command [0x2A#8] .ok, .tx .data [0#8, 0x81#8, 0#8, 0x81#8] .ok,
      .tx .command [0x2B#8] .ok, .tx .data [0#8, 1#8, 0#8, 1#8] .ok, .tx .command [0x2C#8] .ok,
      .tx .data [0x11#8, 0x11#8] .ok ] := by decide

/-- V-R5a. -/
theorem test_fill_rect_negative_start :
    (nextOf (exec (.fillRect 0xFFFF#16 0#16 5#16 5#16 1#16) (readyState Config.reference 6))).trace
      = [] := by decide

/-- V-D1, V-X1: the trace's last transaction and the glass. -/
theorem test_draw_pixel_last_corner :
    let t := nextOf (exec (.drawPixel 127#16 159#16 0x00F8#16) (readyState glassConfig 6))
    t.trace.getLast? = some (.tx .data [0xF8#8, 0x00#8] .ok) ∧
      glass t 127 159 = some 0xF800#16 ∧ t.panel.left = some 0 := by decide

/-- V-E2. -/
theorem test_draw_pixel_err :
    let t := nextOf (exec (.drawPixel 5#16 5#16 0x1234#16)
      { readyState Config.reference 0 with answers := [.ok, .ok, .err 1] })
    t.trace = [ .tx .command [0x2A#8] .ok, .tx .data [0#8, 7#8, 0#8, 7#8] .ok,
      .tx .command [0x2B#8] .err ] ∧ t.phase = .failed ∧ t.scratch = [(0, 0x34#8), (1, 0x12#8)] := by
  decide

/-- V-C1. -/
theorem test_draw_char_transparent :
    (nextOf (exec (.drawChar 0#16 0#16 0x41#8 0xFFFF#16 0xFFFF#16 1#8)
      (readyState Config.reference 12))).trace =
    [ .tx .command [0x2A#8] .ok, .tx .data [0#8, 2#8, 0#8, 2#8] .ok,
      .tx .command [0x2B#8] .ok, .tx .data [0#8, 1#8, 0#8, 1#8] .ok, .tx .command [0x2C#8] .ok,
      .tx .data [0xFF#8, 0xFF#8] .ok,
      .tx .command [0x2A#8] .ok, .tx .data [0#8, 2#8, 0#8, 2#8] .ok,
      .tx .command [0x2B#8] .ok, .tx .data [0#8, 2#8, 0#8, 2#8] .ok, .tx .command [0x2C#8] .ok,
      .tx .data [0xFF#8, 0xFF#8] .ok ] := by decide

/-- V-C6b. -/
theorem test_draw_char_clipped_block :
    (nextOf (exec (.drawChar 127#16 0#16 0x42#8 0x1234#16 0x1234#16 2#8)
      (readyState Config.reference 6))).trace =
    [ .tx .command [0x2A#8] .ok, .tx .data [0#8, 0x81#8, 0#8, 0x81#8] .ok,
      .tx .command [0x2B#8] .ok, .tx .data [0#8, 1#8, 0#8, 2#8] .ok, .tx .command [0x2C#8] .ok,
      .tx .data [0x34#8, 0x12#8, 0x34#8, 0x12#8] .ok ] := by decide

/-- V-S2: the count, and 'B' last at x = 120. -/
theorem test_draw_string_stops_after_column_20 :
    let t := nextOf (exec (.drawString 19#8 0#8 [0x41#8, 0x42#8, 0x43#8] 0xFFFF#16 0xFFFF#16 1#8)
      (readyState Config.reference 18))
    t.ret = some 2 ∧ t.trace.length = 18 ∧
      t.trace[13]? = some (.tx .data [0#8, 0x7A#8, 0#8, 0x7A#8] .ok) := by decide

/-- V-S4. -/
theorem test_draw_string_past_column_20 :
    (nextOf (exec (.drawString 21#8 0#8 [0x41#8, 0x42#8, 0x43#8] 0xFFFF#16 0xFFFF#16 1#8)
      (readyState Config.reference 12))).ret = some 1 := by decide

/-- V-E4. -/
theorem test_reserved_refused :
    step (offer (readyState Config.reference 0) .request 0x07#8 []) =
      .refused (.reservedSelector 0x07#8) := by rfl

/-- V-X6. -/
theorem test_send_command_err :
    let t := nextOf (exec (.sendCommand 0x2A#8) { windowState with answers := [.err 0] })
    t.panel.xs = none ∧ t.panel.ptr = none ∧ t.panel.cell 3#16 1#16 = none ∧
      t.panel.cell 4#16 1#16 = some 0xBBBB#16 ∧ t.faultInfo = some (.opcode 0x2A#8) := by decide

/-- R131: an empty call has no event, a call with bytes one. -/
theorem test_send_parameters :
    (nextOf (exec (.sendParameters []) (readyState Config.reference 1))).trace = [] ∧
    (nextOf (exec (.sendParameters [0x05#8]) (readyState Config.reference 1))).trace =
      [.tx .data [0x05#8] .ok] := by decide

/-- V-W1. -/
theorem test_select_window_receiver :
    let p := (nextOf (exec (.selectWindow 0 0 127 159) (readyState Config.reference 5))).panel
    p.xs = some 2#16 ∧ p.xe = some 129#16 ∧ p.ys = some 1#16 ∧ p.ye = some 160#16 ∧
      p.ptr = some (2#16, 1#16) ∧ p.left = some 20480 := by decide

/-- V-W3. -/
theorem test_select_window_events :
    (nextOf (exec (.selectWindow 120 150 127 159) (readyState Config.reference 5))).trace =
    [ .tx .command [0x2A#8] .ok, .tx .data [0#8, 0x7A#8, 0#8, 0x81#8] .ok,
      .tx .command [0x2B#8] .ok, .tx .data [0#8, 0x97#8, 0#8, 0xA0#8] .ok,
      .tx .command [0x2C#8] .ok ] := by decide

/-- V-I6: the masked count of 0x82 is two parameters. -/
theorem test_run_init_masked_count :
    (nextOf (exec .runInitSequence (readyState { Config.reference with
      initTable := [.padded 0x3A#8 [0x05#8, 0x06#8, 0x07#8] 0x82#8, .padded 0#8 [] 0xFF#8] } 2))).trace =
    [ .tx .command [0x3A#8] .ok, .tx .data [0x05#8, 0x06#8] .ok, .delay 100 ] := by decide

/-- R235's example. -/
theorem test_caset_columns :
    let p := (nextOf (exec (.caset [0#8, 0x07#8, 0#8, 0x09#8]) State.reset)).panel
    p.xs = some 7#16 ∧ p.xe = some 9#16 ∧ p.rx = .idle := by decide

/-- V-X4: a short CASET, then RAMWR. -/
theorem test_caset_short :
    let p := (nextOf (exec (.ramwr [])
      (nextOf (exec (.caset [0#8, 0x02#8]) windowState)))).panel
    p.xs = none ∧ p.xe = none ∧ p.ptr = none ∧ p.left = none := by decide

/-- R236. -/
theorem test_raset_rows :
    let p := (nextOf (exec (.raset [0#8, 0x06#8, 0#8, 0x07#8]) State.reset)).panel
    p.ys = some 6#16 ∧ p.ye = some 7#16 ∧ p.xs = none := by decide

/-- R238, R239: two pixels, high byte first, in row-major order. -/
theorem test_ramwr_two_pixels :
    let p := (nextOf (exec (.ramwr [0xF8#8, 0x00#8, 0x12#8, 0x34#8]) windowState)).panel
    p.cell 2#16 1#16 = some 0xF800#16 ∧ p.cell 3#16 1#16 = some 0x1234#16 ∧
      p.cell 4#16 1#16 = some 0xBBBB#16 ∧ p.left = some 0 := by decide

/-- R240, V-X5 on a small window: one pixel too many. -/
theorem test_ramwr_overrun :
    let p := (nextOf (exec (.ramwr [0#8, 1#8, 0#8, 2#8, 0#8, 3#8]) windowState)).panel
    p.cell 2#16 1#16 = none ∧ p.cell 3#16 1#16 = none ∧ p.cell 4#16 1#16 = some 0xBBBB#16 := by decide

/-- R242 under PANEL_MODE_OK: another opcode and its data leave the window alone. -/
theorem test_wire_other_opcode :
    let t := nextOf (step (offer { windowState with cfg := glassConfig } .wire 0x36#8
      [.bytes [0xC8#8]]))
    t.panel = { windowPanel with rx := .other 0x36#8 } := by decide

/-- V-E1, V-E3: the gate comes before clipping, and nothing runs in FAILED. -/
theorem test_gate :
    (nextOf (exec (.fillRect 128#16 0#16 1#16 1#16 0#16) State.reset)).fault = some .notReady ∧
    exec .init failedState = .fault .stuckFailed := ⟨by decide, by rfl⟩

/-- R290. -/
theorem test_block_reset :
    let t := nextOf (step (failedState.setInbox [.blockReset smallConfig]))
    t.phase = .uninit ∧ t.fault = none ∧ t.trace = [] ∧ t.cfg = smallConfig := by decide

/-- V-E3 and P4's recovery: a request offered in FAILED has no step until block reset, which discards it. -/
theorem test_block_reset_recovers :
    let request := Input.frame { port := .request, head := 0x00#8, operands := [] }
    let t := nextOf (step (failedState.setInbox [request, .blockReset smallConfig, request]))
    t.phase = .uninit ∧ t.fault = none ∧ t.cfg = smallConfig ∧ t.inbox = [request] ∧
      step (failedState.setInbox [request]) = .fault .stuckFailed :=
  ⟨by decide, by decide, by decide, by decide, by rfl⟩

/-! ### Witnesses: for each statement with hypotheses, what meets them together -/

/-- A list of successful answers meets `AllOk`. -/
theorem allOk_of_replicate {s : State} {m n : Nat} (ha : s.answers = List.replicate m .ok) (h : n ≤ m) :
    AllOk s n := by
  intro k hk
  unfold State.answer
  rw [ha, List.getElem?_replicate, if_pos (by omega)]

theorem readyState_ok (cfg : Config) (n : Nat) : AllOk (readyState cfg n) n :=
  allOk_of_replicate rfl le_rfl

theorem uninitState_ok (n : Nat) : AllOk (uninitState n) n := allOk_of_replicate rfl le_rfl

/-- The transport fails transaction number `n` of READY, after `d` bytes. -/
def failingState (cfg : Config) (n d : Nat) : State :=
  { readyState cfg 0 with answers := List.replicate n .ok ++ [.err d] }

theorem failingState_fails (cfg : Config) (n d : Nat) : FailsAfter (failingState cfg n d) n d := by
  constructor
  · intro k hk
    unfold State.answer failingState
    rw [List.getElem?_append_left (by simpa using hk), List.getElem?_replicate, if_pos hk]
  · unfold State.answer failingState
    simp

theorem witness_DecodeOfEncodeIsTheInstruction :
    Config.reference.wf = true ∧ (Instr.fillRect 0x8000#16 0x7FFF#16 0#16 0xFFFF#16 0xABCD#16).wf = true ∧
      (Instr.drawString 255 255 [0x01#8, 0xFF#8] 0 0 0).wf = true ∧
      (Instr.selectWindow 0 0 32767 32767).wf = true := by decide

theorem witness_EncodeOfDecodeIsTheBytes : Config.reference.wf = true ∧
    decodeBytes Config.reference .request [0x01#8, 0x12#8, 0x34#8] = .ok (.fillScreen 0x1234#16) ∧
    ∀ sel, Instr.fillScreen 0x1234#16 ≠ .reserved sel := ⟨by decide, by decide, fun _ => by simp⟩

theorem witness_StepRunsTheDecodedInstruction :
    let s := offer State.reset .micro 0x13#8 []
    s.cfg.wf = true ∧ s.inbox = [.frame { port := .micro, head := 0x13#8, operands := [] }] ∧
      parseFrame .micro [0x13#8] = some { port := .micro, head := 0x13#8, operands := [] } ∧
      decodeBytes s.cfg .micro [0x13#8] = .ok .runInitSequence ∧ s.phase ≠ .failed ∧
      failedState.cfg.wf = true ∧ ∀ c, Input.blockReset c ∉ ([] : List Input) :=
  ⟨by decide, by decide, by decide, by decide, by decide, by decide, by simp⟩

theorem witness_IdleStepWaits : State.reset.cfg.wf = true ∧ State.reset.inbox = [] := by decide

theorem witness_BlockResetRestoresTheResetState :
    let s := failedState.setInbox [.blockReset smallConfig]
    s.cfg.wf = true ∧ smallConfig.wf = true ∧ s.inbox = [.blockReset smallConfig] := by decide

/-- A stuck request alone, and one with another request and a block reset behind it. -/
theorem witness_BlockResetRecoversFromFailed :
    let request : Frame := { port := .request, head := 0x00#8, operands := [] }
    failedState.cfg.wf = true ∧ failedState.phase = .failed ∧ smallConfig.wf = true ∧
      decode failedState.cfg request = .ok .init ∧ isWire .init = false ∧
      (∀ sel, Instr.init ≠ .reserved sel) ∧ (∀ c, Input.blockReset c ∉ ([] : List Input)) ∧
      (failedState.setInbox [.frame request, .frame request, .blockReset smallConfig]).inbox =
        .frame request :: ([request].map .frame ++ .blockReset smallConfig :: []) :=
  ⟨by decide, by decide, by decide, by decide, by decide, fun _ => by simp, by simp, by decide⟩

theorem witness_IllFormedConfigurationIsRefused :
    let bad : Config := { Config.reference with scratchBytes := 1 }
    { State.reset with cfg := bad }.cfg.wf = false ∧ State.reset.cfg.wf = true ∧ bad.wf = false ∧
      (State.reset.setInbox [.blockReset bad]).inbox = [.blockReset bad] := by decide

theorem witness_ReservedSelectorsAreRefused : State.reset.cfg.wf = true ∧ 6 ≤ (0x06#8).toNat ∧
    6 ≤ (0xFF#8).toNat ∧ (offer State.reset .request 0x06#8 []).inbox =
      [.frame { port := .request, head := 0x06#8, operands := [] }] := by decide

/-- Each clause at its edges: the widest operands of every request that fit. -/
theorem witness_OperandsOutsideTheirWidthsAreRefused : State.reset.cfg.wf = true ∧
    State.reset.phase ≠ .failed ∧ OperandsFit 0x00#8 [] ∧
    OperandsFit 0x01#8 [.int 0] ∧ OperandsFit 0x01#8 [.int 65535] ∧
    OperandsFit 0x02#8 [.int (-32768), .int 32767, .int 0, .int 65535, .int 65535] ∧
    OperandsFit 0x03#8 [.int 32767, .int (-32768), .int 65535] ∧
    OperandsFit 0x04#8 [.int 0, .int 0, .int 255, .int 65535, .int 0, .int 255] ∧
    OperandsFit 0x05#8 [.int 255, .int 0, .bytes [], .int 0, .int 65535, .int 255] ∧
    (offer State.reset .request 0x03#8 [.int 32767, .int (-32768), .int 65535]).inbox =
      [.frame { port := .request, head := 0x03#8,
                operands := [.int 32767, .int (-32768), .int 65535] }] := by
  refine ⟨by decide, by decide, ?_, ?_, ?_, ?_, ?_, ?_, ?_, by decide⟩ <;>
    simp [OperandsFit, declaredRanges, Range.holds, Range.u8, Range.u16, Range.s16]

/-- One beyond the edge in each width (V-E4b), a missing and a further operand, bytes for an integer and an
integer for bytes. -/
theorem witness_OperandsOutsideTheirWidthsAreRefused_misfits :
    ¬ OperandsFit 0x00#8 [.int 0] ∧ ¬ OperandsFit 0x01#8 [] ∧ ¬ OperandsFit 0x01#8 [.int 65536] ∧
    ¬ OperandsFit 0x01#8 [.bytes [0xFF#8, 0xFF#8]] ∧
    ¬ OperandsFit 0x02#8 [.int 0, .int (-32769), .int 1, .int 1, .int 0] ∧
    ¬ OperandsFit 0x03#8 [.int 40000, .int 0, .int 0] ∧
    ¬ OperandsFit 0x04#8 [.int 0, .int 0, .int 256, .int 0, .int 0, .int 1] ∧
    ¬ OperandsFit 0x04#8 [.int 0, .int 0, .int 65, .int 0, .int 0, .int (-1)] ∧
    ¬ OperandsFit 0x05#8 [.int 0, .int 0, .int 65, .int 0, .int 0, .int 1] ∧ (0x05#8).toNat < 6 := by
  simp [OperandsFit, declaredRanges, Range.holds, Range.u8, Range.u16, Range.s16]

theorem witness_OtherWireCommandSetsThePhase :
    let s := offer windowState .wire 0x36#8 [.bytes [0xC8#8]]
    s.cfg.wf = true ∧ glassConfig.wf = true ∧ 0x36#8 ≠ s.cfg.opCaset ∧ 0x36#8 ≠ s.cfg.opRaset ∧
      0x36#8 ≠ s.cfg.opRamwr ∧ s.cfg.panelModeOk = false ∧ glassConfig.panelModeOk = true ∧
      s.panel.rx = .idle ∧
      s.inbox = [.frame { port := .wire, head := 0x36#8, operands := [.bytes [0xC8#8]] }] := by decide

theorem witness_SendCommandEffect :
    (readyState Config.reference 1).cfg.wf = true ∧ (readyState Config.reference 1).phase ≠ .failed ∧
      (readyState Config.reference 1).answer 0 = .ok ∧
      (failingState Config.reference 0 1).answer 0 = .err 1 ∧
      (failingState Config.reference 0 1).fault = none := by decide

theorem witness_SendParametersEffect :
    (uninitState 1).cfg.wf = true ∧ (uninitState 1).phase ≠ .failed ∧ (uninitState 1).answer 0 = .ok ∧
      [0x05#8] ≠ ([] : List Byte) ∧ (failingState Config.reference 0 0).answer 0 = .err 0 ∧
      (failingState Config.reference 0 0).fault = none ∧
      (failingState Config.reference 0 0).phase ≠ .failed := by decide

/-- The whole glass and its last pixel. -/
theorem witness_SelectWindowProgramsTheWindow :
    let s := readyState Config.reference 5
    s.cfg.wf = true ∧ s.phase ≠ .failed ∧ (0 : Int) ≤ 0 ∧ (0 : Int) ≤ 127 ∧
      (127 : Int) < s.cfg.width ∧ (127 : Int) ≤ 127 ∧ (0 : Int) ≤ 159 ∧ (159 : Int) < s.cfg.height ∧
      AllOk s 5 :=
  ⟨by decide, by decide, by decide, by decide, by decide, by decide, by decide, by decide,
    readyState_ok _ _⟩

theorem witness_SelectWindowOutsideThePanelStops :
    let s := readyState Config.reference 5
    s.cfg.wf = true ∧ s.phase ≠ .failed ∧
      ¬ ((0 : Int) ≤ 0 ∧ (0 : Int) ≤ 128 ∧ (128 : Int) < s.cfg.width ∧ (0 : Int) ≤ 0 ∧ (0 : Int) ≤ 0 ∧
        (0 : Int) < s.cfg.height) ∧
      ¬ ((0 : Int) ≤ 1 ∧ (1 : Int) ≤ 0 ∧ (0 : Int) < s.cfg.width ∧ (0 : Int) ≤ 0 ∧ (0 : Int) ≤ 0 ∧
        (0 : Int) < s.cfg.height) := by decide

theorem replay_txs : txs (replayEvents Config.reference) = 7 := by decide

theorem witness_RunInitSequenceReplaysTheTable :
    (readyState Config.reference 7).cfg.wf = true ∧ (readyState Config.reference 7).phase ≠ .failed ∧
      AllOk (readyState Config.reference 7) (txs (replayEvents Config.reference)) :=
  ⟨by decide, by decide, (by rw [replay_txs]; exact readyState_ok _ _)⟩

theorem witness_InitRecordIgnoresTheMaskedBits : State.reset.cfg.wf = true ∧
    (0x61#8 &&& 0x9F#8 : Byte) = (CommandRecord.padded 0x36#8 [0xC8#8] 0x01#8).count &&& 0x9F#8 := by
  decide

theorem uninit_replay_ok : AllOk (uninitState 7) (txs (replayEvents (uninitState 7).cfg)) := by
  rw [show (uninitState 7).cfg = Config.reference from rfl, replay_txs]; exact uninitState_ok 7

/-- In UNINIT and in READY. -/
theorem witness_InitCompletes :
    (uninitState 7).cfg.wf = true ∧ (uninitState 7).phase = .uninit ∧
      AllOk (uninitState 7) (txs (replayEvents (uninitState 7).cfg)) ∧
      (readyState Config.reference 7).phase = .ready ∧
      AllOk (readyState Config.reference 7) (txs (replayEvents Config.reference)) :=
  ⟨by decide, by decide, uninit_replay_ok, by decide, (by rw [replay_txs]; exact readyState_ok _ _)⟩

/-- The failing clause at the first and at the last transaction of the replay. -/
theorem witness_InitStepsInOrder :
    (failingState Config.reference 0 0).cfg.wf = true ∧
      (failingState Config.reference 0 0).phase ≠ .failed ∧
      FailsAfter (failingState Config.reference 0 0) 0 0 ∧ 0 < txs (replayEvents Config.reference) ∧
      FailsAfter (failingState Config.reference 6 1) 6 1 ∧ 6 < txs (replayEvents Config.reference) ∧
      AllOk (uninitState 7) (txs (replayEvents (uninitState 7).cfg)) :=
  ⟨by decide, by decide, failingState_fails _ _ _, (by rw [replay_txs]; decide),
    failingState_fails _ _ _, (by rw [replay_txs]; decide), uninit_replay_ok⟩

theorem init_uninit_next : exec .init (uninitState 7) = .next (nextOf (exec .init (uninitState 7))) := by
  rfl

theorem init_ready_next : exec .init (readyState Config.reference 7) =
    .next (nextOf (exec .init (readyState Config.reference 7))) := by rfl

theorem replay_uninit_next : exec .runInitSequence (uninitState 7) =
    .next (nextOf (exec .runInitSequence (uninitState 7))) := by rfl

theorem replay_ready_next : exec .runInitSequence (readyState Config.reference 7) =
    .next (nextOf (exec .runInitSequence (readyState Config.reference 7))) := by rfl

theorem witness_InitReplayIsDeterministic :
    let s := uninitState 7
    let s' := readyState Config.reference 7
    s.cfg.initTable = s'.cfg.initTable ∧ s.cfg.initDelayMs = s'.cfg.initDelayMs ∧
      s.cfg.resetDelayMs = s'.cfg.resetDelayMs ∧ s.cfg.blOnLevel = s'.cfg.blOnLevel ∧
      (nextOf (exec .init s)).phase ≠ .failed ∧ (nextOf (exec .init s')).phase ≠ .failed ∧
      (nextOf (exec .runInitSequence s)).phase ≠ .failed ∧
      (nextOf (exec .runInitSequence s')).phase ≠ .failed := by decide

theorem witness_InitTakesItsDelays : (nextOf (exec .init (uninitState 7))).phase ≠ .failed ∧
    exec .init (uninitState 7) = .next (nextOf (exec .init (uninitState 7))) :=
  ⟨by decide, init_uninit_next⟩

theorem witness_FailedBlockIsStuck : failedState.cfg.wf = true ∧ failedState.phase = .failed ∧
    isWire (.drawPixel 0 0 0) = false ∧ ∀ sel, Instr.drawPixel 0 0 0 ≠ .reserved sel :=
  ⟨by decide, by decide, by decide, fun _ => by simp⟩

theorem witness_DrawingBeforeInitRaisesNotReady :
    isDrawing (.drawString 0 16 [0x41#8] 1 1 1) = true ∧ State.reset.cfg.wf = true ∧
      State.reset.phase = .uninit ∧ State.reset.fault = none := by decide

theorem witness_FillScreenCompletes : (readyState Config.reference 6).cfg.wf = true ∧
    (readyState Config.reference 6).phase = .ready ∧ AllOk (readyState Config.reference 6) 6 :=
  ⟨by decide, by decide, readyState_ok _ _⟩

/-- The last corner of the glass, with the largest size. -/
theorem witness_FillRectCompletes :
    let s := readyState Config.reference 6
    s.cfg.wf = true ∧ s.phase = .ready ∧ AllOk s 6 ∧
      onPanel s.cfg (127#16).toInt (159#16).toInt = true ∧ (0xFFFF#16 : Word16) ≠ 0 :=
  ⟨by decide, by decide, readyState_ok _ _, by decide, by decide⟩

/-- Each of the three reasons, at its edge. -/
theorem witness_FillRectOffPanelIsNoOp :
    let s := readyState Config.reference 0
    s.cfg.wf = true ∧ s.phase = .ready ∧ onPanel s.cfg (128#16).toInt (0#16).toInt = false ∧
      onPanel s.cfg (0xFFFF#16).toInt (0#16).toInt = false ∧
      onPanel s.cfg (0#16).toInt (160#16).toInt = false ∧ (0#16 : Word16) = 0 := by decide

theorem witness_DrawPixelCompletes :
    let s := readyState Config.reference 6
    s.cfg.wf = true ∧ s.phase = .ready ∧ onPanel s.cfg (127#16).toInt (159#16).toInt = true ∧
      AllOk s 6 ∧ onPanel s.cfg (128#16).toInt (159#16).toInt = false :=
  ⟨by decide, by decide, by decide, readyState_ok _ _, by decide⟩

theorem witness_DrawPixelIsUnitFillRect : (readyState Config.reference 0).phase ≠ .uninit := by decide

theorem witness_StagedPixelsAreLowByteFirst : (0 < 1) ∧ 2 * 1 ≤ 2 := by decide

theorem witness_GlassStatements :
    (readyState glassConfig 12).cfg.wf = true ∧ (readyState glassConfig 12).phase = .ready ∧
      (readyState glassConfig 12).cfg.panelModeOk = true ∧ AllOk (readyState glassConfig 12) 6 ∧
      AllOk (readyState glassConfig 12) 12 ∧ (127 : Nat) < glassConfig.width ∧
      (159 : Nat) < glassConfig.height :=
  ⟨by decide, by decide, by decide, (readyState_ok _ 12).mono (by decide), readyState_ok _ _, by decide,
    by decide⟩

/-- LastWriteWins' two clauses, at the edge between covered and not. -/
theorem witness_LastWriteWins :
    covers glassConfig (120#16).toInt (150#16).toInt (20#16).toNat (20#16).toNat 127 159 = true ∧
      covers glassConfig (120#16).toInt (150#16).toInt (20#16).toNat (20#16).toNat 119 159 = false := by
  decide

theorem witness_DrawingStreamsExactlyTheWindow :
    let s := { readyState Config.reference 6 with panel := windowPanel }
    isDrawing (.drawPixel 0 0 1) = true ∧ s.cfg.wf = true ∧ s.phase = .ready ∧
      AllOk s (txs (expectedEvents s.cfg (.drawPixel 0 0 1))) ∧
      (s.panel.cell 3#16 1#16).isSome = true ∧
      ¬ (s.cfg.offsetX ≤ (1#16).toNat ∧ (1#16).toNat < s.cfg.offsetX + s.cfg.width ∧
        s.cfg.offsetY ≤ (1#16).toNat ∧ (1#16).toNat < s.cfg.offsetY + s.cfg.height) := by
  refine ⟨by decide, by decide, by decide, ?_, by decide, by decide⟩
  exact allOk_of_replicate (m := 6) rfl (by decide)

/-- The lookup's two clauses at their edge, codes 127 and 128, and the first and last cell. -/
theorem witness_DrawCharCompletes_lookup :
    (127#8).toNat < Config.reference.nGlyphs ∧ Config.reference.nGlyphs ≤ (128#8).toNat ∧
      (glyphCells Config.reference)[0]? = some (0, 0) ∧ (glyphCells Config.reference)[1]? = some (0, 1) ∧
      (glyphCells Config.reference)[39]? = some (4, 7) := by decide

/-- A glyph on the panel, and each of the four rejections at its edge (V-C3, V-C3b, V-C4, V-C4b). -/
theorem witness_DrawCharCompletes :
    let s := readyState Config.reference 12
    s.cfg.wf = true ∧ s.phase = .ready ∧
      AllOk s (txs (charEvents s.cfg 0 0 0x41#8 0xFFFF#16 0xFFFF#16 1)) ∧
      (128#16).toInt ≥ s.cfg.width ∧ (160#16).toInt ≥ s.cfg.height ∧
      (0xFFFB#16).toInt + 5 * (1#8).toNat - 1 < 0 ∧ (0xFFF8#16).toInt + 8 * (1#8).toNat - 1 < 0 := by
  refine ⟨by decide, by decide, ?_, by decide, by decide, by decide, by decide⟩
  exact allOk_of_replicate (m := 12) rfl (by decide)

/-- A glyph in the last corner it fits whole. -/
theorem witness_TransparentBackgroundPaintsTheSetBits :
    let s := readyState Config.reference 12
    s.cfg.wf = true ∧ s.phase = .ready ∧ glyphBit (glyphOf s.cfg 0x41#8) 0 2 = false ∧
      0 ≤ (123#16).toInt ∧ (123#16).toInt + 5 * (1#8).toNat ≤ s.cfg.width ∧
      (152#16).toInt + 8 * (1#8).toNat ≤ s.cfg.height ∧ (1#8 : Byte) ≠ 0 ∧
      AllOk s (6 * (paintCalls s.cfg 0x41#8 1 1).length) := by
  refine ⟨by decide, by decide, by decide, by decide, by decide, by decide, by decide, ?_⟩
  exact allOk_of_replicate (m := 12) rfl (by decide)

theorem witness_SizeZeroEmitsNothing : (readyState Config.reference 0).cfg.wf = true ∧
    (readyState Config.reference 0).phase = .ready ∧ (15#8).toNat ≤ 15 ∧ (20#8).toNat ≤ 20 := by decide

/-- A cell that is painted, one that is skipped, and a pixel that no cell reaches. -/
theorem witness_DrawCharShowsTheGlyph :
    let s := readyState glassConfig 12
    s.cfg.wf = true ∧ s.phase = .ready ∧ s.cfg.panelModeOk = true ∧ (1#8 : Byte) ≠ 0 ∧
      AllOk s (txs (charEvents s.cfg 0 0 0x41#8 0xFFFF#16 0xFFFF#16 1)) ∧
      covers s.cfg (0 + (4 : Nat) * (1 : Nat)) (0 + (7 : Nat) * (1 : Nat)) 1 1 4 7 = true ∧
      ∀ i < 5, ∀ j < 8, covers s.cfg (0 + (i : Nat) * (1 : Nat)) (0 + (j : Nat) * (1 : Nat)) 1 1 5 7 = false := by
  refine ⟨by decide, by decide, by decide, by decide, ?_, by decide, by decide⟩
  exact allOk_of_replicate (m := 12) rfl (by decide)

theorem witness_DrawStringCompletes :
    let s := readyState Config.reference 18
    s.cfg.wf = true ∧ s.phase = .ready ∧
      AllOk s (txs (stringEvents s.cfg 19 0 [0x41#8, 0x42#8, 0x43#8] 0xFFFF#16 0xFFFF#16 1)) := by
  refine ⟨by decide, by decide, ?_⟩
  exact allOk_of_replicate (m := 18) rfl (by decide)

/-- Each clause at its edge: row 16, column 20, column 21, and R208's own example. -/
theorem witness_DrawStringReturnLaws :
    let s := readyState Config.reference 18
    let abc := [0x41#8, 0x42#8, 0x43#8]
    s.cfg.wf = true ∧ s.phase = .ready ∧ 15 < (16#8).toNat ∧ (15#8).toNat ≤ 15 ∧ (1#8 : Byte) ≠ 0 ∧
      (20#8).toNat ≤ 20 ∧ 20 < (21#8).toNat ∧ (cText abc).length = 3 ∧
      (nextOf (exec (.drawString 19 15 abc 1 1 1) s)).phase ≠ .failed ∧
      (nextOf (exec (.drawString 20 15 abc 1 1 1) s)).phase ≠ .failed ∧
      (nextOf (exec (.drawString 21 15 abc 1 1 1) s)).phase ≠ .failed := by decide

theorem drawString_next (col : Byte) : exec (.drawString col 15 [0x41#8] 1 1 0) (readyState Config.reference 0) =
    .next (nextOf (exec (.drawString col 15 [0x41#8] 1 1 0) (readyState Config.reference 0))) := by rfl

/-- The first and the last transaction of a pixel, and the first of INIT. -/
theorem witness_TransportErrorStopsTheRequest :
    let s := failingState Config.reference 5 1
    Admitted (.drawPixel 5 5 1) s ∧ s.fault = none ∧ FailsAfter s 5 1 ∧
      5 < txs (expectedEvents s.cfg (.drawPixel 5 5 1)) ∧
      Admitted .init (failingState Config.reference 0 0) ∧
      FailsAfter (failingState Config.reference 0 0) 0 0 ∧
      0 < txs (expectedEvents Config.reference .init) :=
  ⟨⟨by decide, by decide, fun _ => by decide, trivial⟩, by decide, failingState_fails _ _ _, by decide,
    ⟨by decide, by decide, fun _ => by decide, trivial⟩, failingState_fails _ _ _, by decide⟩

/-- The window at the failing transaction: unknown at the first, known at the last. -/
theorem witness_TransportErrorStopsTheRequest_cells :
    let s := failingState Config.reference 5 1
    let q := (windowEvents s.cfg 5 5 5 5).foldl (Panel.observe s.cfg) s.panel
    Gram.wf s.panel.gram ∧ s.panel.xs = none ∧ q.xs = some 7#16 ∧ q.xe = some 7#16 ∧
      q.ys = some 6#16 ∧ q.ye = some 6#16 ∧
      ((stagings s.cfg (.drawPixel 5 5 1)).take (5 / 6 + 1)) = [(1, 1#16)] := by decide

/-- A known window's first and last cell, and an unknown window. -/
theorem witness_FailedTransactionForgetsTheWindow :
    let s := { windowState with answers := [.err 0] }
    s.cfg.wf = true ∧ s.phase ≠ .failed ∧ Gram.wf s.panel.gram ∧ s.answer 0 = .err 0 ∧
      s.panel.xs = some 2#16 ∧ s.panel.xe = some 3#16 ∧ s.panel.ys = some 1#16 ∧
      s.panel.ye = some 1#16 ∧ (2#16 : Word16) ≤ 2#16 ∧ (3#16 : Word16) ≤ 3#16 ∧
      (readyState Config.reference 0).panel.xs = none ∧ Gram.wf (readyState Config.reference 0).panel.gram := by
  decide

theorem witness_CasetSetsTheColumns : windowState.cfg.wf = true ∧
    [0#8, 1#8, 2#8].length < 4 ∧ windowState.panel.rx = .idle := by decide

theorem witness_RasetSetsTheRows : windowState.cfg.wf = true ∧ ([] : List Byte).length < 4 ∧
    windowState.panel.rx = .idle := by decide

/-- A pixel in the middle of a row and the last one of a row. -/
theorem witness_PixelWriteAdvancesThePointer :
    let p := (nextOf (exec (.ramwr []) windowState)).panel
    let q := (nextOf (exec (.ramwr [0#8, 0#8]) windowState)).panel
    p.ptr = some (2#16, 1#16) ∧ p.left = some (1 + 1) ∧ p.xs = some 2#16 ∧ p.xe = some 3#16 ∧
      (1#16).toNat < 65535 ∧ (2#16).toNat + 1 ≤ (3#16).toNat ∧
      q.ptr = some (3#16, 1#16) ∧ q.left = some (0 + 1) ∧ (3#16).toNat < (3#16).toNat + 1 := by decide

/-- Two pixels fill the window of two. -/
theorem witness_RamwrWritesTheWindow : windowState.cfg.wf = true ∧ windowState.panel.rx = .idle ∧
    windowState.panel.xs = some 2#16 ∧ windowState.panel.xe = some 3#16 ∧
    windowState.panel.ys = some 1#16 ∧ windowState.panel.ye = some 1#16 ∧ (2#16 : Word16) ≤ 3#16 ∧
    (1#16 : Word16) ≤ 1#16 ∧ [0x1234#16, 0x5678#16].length ≤
      ((3#16).toNat - (2#16).toNat + 1) * ((1#16).toNat - (1#16).toNat + 1) := by decide

/-- An unknown window, an inverted one, and a full one. -/
theorem witness_RamwrOutsideTheWindowForgets : windowState.cfg.wf = true ∧
    Gram.wf windowState.panel.gram ∧ windowState.panel.rx = .idle ∧
    (readyState Config.reference 0).panel.xs = none ∧
    ({ windowPanel with xe := some 1#16 }.xs = some 2#16 ∧ (1#16 : Word16) < 2#16) ∧
    [0x1234#16, 0x5678#16].length =
      ((3#16).toNat - (2#16).toNat + 1) * ((1#16).toNat - (1#16).toNat + 1) := by decide

theorem witness_WireCommandsTouchTheReceiverOnly : failedState.cfg.wf = true := by decide

theorem witness_ExecFrame : exec (.drawPixel 5 5 1) (readyState Config.reference 6) =
      .next (nextOf (exec (.drawPixel 5 5 1) (readyState Config.reference 6))) ∧
    (nextOf (exec (.drawPixel 5 5 1) (readyState Config.reference 6))).phase ≠ .failed ∧
    Instr.drawPixel 5 5 1 ≠ .init ∧ portOf (.sendCommand 0) = .micro ∧
    (nextOf (exec (.sendCommand 0) (uninitState 1))).phase ≠ .failed ∧ isWire (.caset []) = true := by
  refine ⟨by rfl, by decide, by decide, by decide, by decide, by decide⟩

/-- DRAW_PIXEL at (5, 5) stores to the offsets 0 and 1. -/
theorem witness_ExecFrame_stored : stagedPixels Config.reference (.drawPixel 5 5 1) = [1] := by decide

theorem witness_StepKeepsTheInvariant_step :
    step (offer (uninitState 7) .request 0x00#8 []) =
      .next (nextOf (step (offer (uninitState 7) .request 0x00#8 []))) := by rfl

/-- The reset state with an INIT pending and an answer for each of its transactions meets the invariant. -/
theorem witness_StepKeepsTheInvariant : (offer (uninitState 7) .request 0x00#8 []).Inv where
  faultIffFailed := by decide
  infoIffFault := by decide
  failedNoRet := by decide
  errorIsLast h := by cases h
  errorOnlyLast _ h := by cases h
  errorMeansFault h := by obtain ⟨_, h, _⟩ := h; cases h
  framing _ _ _ h := by cases h
  scratchCanonical := by decide
  scratchInRange _ h := by cases h
  gramCanonical := by decide
  paramShort _ _ h := by cases h
  readyPins := by decide

theorem witness_TraceIsAppendOnlyAndUnread :
    exec (.sendCommand 0x2A#8) (uninitState 1) = .next (nextOf (exec (.sendCommand 0x2A#8) (uninitState 1))) ∧
      exec .init failedState = .fault .stuckFailed ∧
      exec (.reserved 0x06#8) State.reset = .refused (.reservedSelector 0x06#8) :=
  ⟨by rfl, by rfl, by rfl⟩

theorem witness_DcDiscipline :
    exec (.sendParameters [0x05#8]) (uninitState 1) =
      .next (nextOf (exec (.sendParameters [0x05#8]) (uninitState 1))) ∧ [0x05#8] ≠ ([] : List Byte) :=
  ⟨by rfl, by decide⟩

/-- A step into READY. -/
theorem witness_PhaseChangesOnlyAsSpecified :
    (nextOf (step (offer (uninitState 7) .request 0x00#8 []))).phase = .ready := by decide

theorem witness_ConfigurationIsFixedBetweenResets :
    (∀ c rest, (offer (uninitState 7) .request 0x00#8 []).inbox ≠ .blockReset c :: rest) ∧
      (offer (uninitState 7) .request 0x00#8 []).phase ≠ .failed :=
  ⟨fun _ _ h => (nomatch h), by decide⟩

end Sys2Proof.Tests
end

/-! ## The memory family: scratch as a staging leaves it (20_memory.md) -/

section

namespace Sys2Proof

open Machine

/-! ### The two bytes of a 16-bit value, in arithmetic (00_scope.md R8) -/

theorem loByte_toNat (v : Word16) : (loByte v).toNat = v.toNat % 256 := by
  rw [loByte, BitVec.extractLsb'_toNat, Nat.shiftRight_zero]

theorem hiByte_toNat (v : Word16) : (hiByte v).toNat = v.toNat / 256 := by
  have hv : v.toNat < 65536 := v.isLt
  rw [hiByte, BitVec.extractLsb'_toNat, Nat.shiftRight_eq_div_pow]
  omega

/-- Settles O30: `stage_staged` says which byte stands at which offset and what lies beyond the staged pixels;
the rest is arithmetic of the colour's two bytes. -/
theorem stagedPixelsAreLowByteFirst : Obligations.StagedPixelsAreLowByteFirst := by
  intro s n color
  obtain ⟨hpixel, hbeyond⟩ := stage_staged s n color
  refine ⟨fun k hk => ?_, hbeyond⟩
  obtain ⟨hlo, hhi⟩ := hpixel k hk
  exact ⟨loByte color, hiByte color, hlo, hhi, loByte_toNat color, hiByte_toNat color,
    Panel.joinBytes_split color⟩

end Sys2Proof
end

/-! ## The command-protocol family: what SEND_COMMAND sends, and in which mode every transaction goes out
(40_command_protocol.md R130 to R132) -/

section

namespace Sys2Proof.Machine

/-! ### What an instruction appends to the trace (R28, R264) -/

/-- R264: the events that a rule with the events `all` appends: all of them, or those in front of a transaction
that fails, and then that transaction with result `err`. -/
inductive UpToFailure (all : List Event) : List Event → Prop
  | whole : UpToFailure all all
  | cut {front back : List Event} {mode : Mode} {bs : List Byte} {r : TxResult}
      (hall : all = front ++ .tx mode bs r :: back) : UpToFailure all (front ++ [.tx mode bs .err])

/-- Everything exec can append to the trace: nothing, where a wire command sets the receiver or a drawing request
raises NotReady, or the instruction's expected events up to the first failure. -/
theorem exec_appends {i : Instr} {s t : State} (h : exec i s = .next t) :
    ∃ evs, t.trace = s.trace ++ evs ∧
      ((evs = [] ∧ (isWire i = true ∨ isDrawing i = true)) ∨
        (Admitted i s ∧ UpToFailure (expectedEvents s.cfg i) evs)) := by
  obtain ⟨-, hr⟩ := exec_next h
  cases hr with
  | wire hi ht =>
    obtain ⟨op, data, hw⟩ := wireResult_eq hi s
    exact ⟨[], by rw [ht, hw, List.append_nil]; rfl, .inl ⟨rfl, .inl hi⟩⟩
  | notReady hi _ ht =>
    exact ⟨[], by rw [ht, State.raise_trace, List.append_nil], .inl ⟨rfl, .inr hi⟩⟩
  | done ha ht =>
    refine ⟨expectedEvents s.cfg i, ?_, .inr ⟨ha, .whole⟩⟩
    have hok : OkList (eventsOf (script s.cfg i)) := by
      rw [eventsOf_script]; exact (script_clean ha).ok
    rw [ht, conclude_trace, applyAll_trace s _ hok, eventsOf_script]
  | failed ha before mode bs r rest d hl ht =>
    obtain ⟨hall, hbefore, -, -⟩ := script_before ha hl
    refine ⟨eventsOf before ++ [.tx mode bs .err], ?_, .inr ⟨ha, .cut hall⟩⟩
    rw [ht, failTx_trace, applyAll_trace s before hbefore.ok, List.append_assoc]

/-- A rule of one transaction appends that transaction, with either result. -/
theorem UpToFailure.of_single {mode : Mode} {bs : List Byte} {r : TxResult} {evs : List Event}
    (h : UpToFailure [.tx mode bs r] evs) : ∃ r', evs = [.tx mode bs r'] := by
  cases h with
  | whole => exact ⟨r, rfl⟩
  | cut hall =>
    rcases List.append_eq_singleton_iff.1 hall.symm with ⟨rfl, hev⟩ | ⟨-, hev⟩
    · cases hev
      exact ⟨.err, rfl⟩
    · cases hev

/-! ### The D/C discipline (R91, R92, R132) -/

/-- R132: a transaction is one command byte, or a run of data bytes that is not empty. -/
def DcFramed (mode : Mode) (bs : List Byte) : Prop :=
  (mode = .command ∧ ∃ op, bs = [op]) ∨ (mode = .data ∧ bs ≠ [])

theorem Event.clean.dcFramed {mode : Mode} {bs : List Byte} {r : TxResult}
    (h : (Event.tx mode bs r).clean) : DcFramed mode bs := by
  cases mode with
  | command => exact .inl ⟨rfl, h.2⟩
  | data => exact .inr ⟨rfl, h.2⟩

/-- A failing transaction keeps its mode and its bytes, so cutting a clean list leaves every transaction framed. -/
theorem UpToFailure.dcFramed {all evs : List Event} (h : UpToFailure all evs) (hall : CleanList all)
    {mode : Mode} {bs : List Byte} {r : TxResult} (hm : Event.tx mode bs r ∈ evs) : DcFramed mode bs := by
  cases h with
  | whole => exact (hall _ hm).dcFramed
  | cut he =>
    subst he
    rcases List.mem_append.1 hm with hfront | hlast
    · exact (hall _ (List.mem_append_left _ hfront)).dcFramed
    · cases List.mem_singleton.1 hlast
      exact (hall _ (List.mem_append_right _ List.mem_cons_self)).dcFramed

/-! ### SEND_COMMAND (R130) -/

/-- R99, R100: micro-operation 0x10 of an 8-bit operand is SEND_COMMAND of that byte. -/
theorem decode_sendCommand (cfg : Config) (op : Byte) :
    decode cfg { port := .micro, head := 0x10#8, operands := [.int op.toNat] } =
      .ok (.sendCommand op) := by
  have hfits : fitsAll [.u8] [.int op.toNat] = true := by
    have hlt : op.toNat < 256 := op.isLt
    simp only [fitsAll, fits, Bool.and_true, Bool.and_eq_true, decide_eq_true_eq]
    omega
  simp [decode, decodeMicro, microShapes, hfits, buildMicro, byteOf_toNat]

/-- R130, R268: SEND_COMMAND that is let run makes its one transaction. -/
theorem exec_sendCommand {op : Byte} {s : State} (hwf : s.cfg.wf = true) (hp : s.phase ≠ .failed) :
    exec (.sendCommand op) s = .next (transmit .command [op] (.opcode op) s).state :=
  admit_of_not_failed (sendCommand op) hwf hp

/-- R130: SEND_COMMAND whose transaction succeeds has the effect of that transaction alone. -/
theorem exec_sendCommand_ok {op : Byte} {s : State} (hwf : s.cfg.wf = true) (hp : s.phase ≠ .failed)
    (hok : s.answer 0 = .ok) :
    exec (.sendCommand op) s = .next (s.apply (.event (okCommand op))) := by
  rw [exec_sendCommand hwf hp, transmit_ok _ _ _ hok]; rfl

/-- R130, R264: SEND_COMMAND whose transaction fails raises TransportError with the opcode. -/
theorem exec_sendCommand_err {op : Byte} {s : State} {d : Nat} (hwf : s.cfg.wf = true)
    (hp : s.phase ≠ .failed) (herr : s.answer 0 = .err d) :
    exec (.sendCommand op) s = .next (s.failTx .command [op] d) := by
  rw [exec_sendCommand hwf hp, transmit_err _ _ _ herr]; rfl

end Sys2Proof.Machine

namespace Sys2Proof

open Machine

/-! ### The statements -/

/-- Settles O55: `exec_appends` says what an instruction appends, `script_clean` that it is framed so, and the two
micro-operations have one transaction to append. -/
theorem dcDiscipline : Obligations.DcDiscipline := by
  intro i s t h
  obtain ⟨evs, ht, ⟨rfl, hi⟩ | ⟨ha, hup⟩⟩ := exec_appends h
  · refine ⟨[], ht, by simp, ?_, ?_⟩
    · rintro op rfl
      simp [isWire, isDrawing] at hi
    · rintro bs rfl
      simp [isWire, isDrawing] at hi
  · refine ⟨evs, ht, fun mode bs r hm => hup.dcFramed (script_clean ha) hm, ?_, ?_⟩
    · rintro op rfl
      exact hup.of_single
    · rintro bs rfl hbs
      rw [expectedEvents, okData_of_ne_nil hbs] at hup
      exact hup.of_single

/-- Settles O12: the decoder's two tests pass for any byte; SEND_COMMAND is its one transaction, which runs on or
fails as the transport answers. -/
theorem sendCommandEffect : Obligations.SendCommandEffect := by
  refine ⟨fun op cfg => decode_sendCommand cfg op, fun op s hwf hp => ⟨fun hok => ?_, ?_⟩⟩
  · refine ⟨_, exec_sendCommand_ok hwf hp hok, ?_, rfl, rfl⟩
    exact apply_performed s (.event (okCommand op)) (by simp [PinFree, okCommand])
      (by simp [OkList, okCommand, Event.isErr])
  · intro d herr hf
    refine ⟨_, exec_sendCommand_err hwf hp herr, rfl, failTx_fault s _ _ _ hf,
      failTx_faultInfo s _ _ _ hf, rfl, rfl, rfl, rfl, rfl, rfl, ?_, rfl, rfl⟩
    rw [failTx_answers, List.drop_one]

end Sys2Proof
end

/-! ## The receiver family: nothing the block does reads the receiver (43_panel_receiver.md R232) -/

section

namespace Sys2Proof.Machine

/-- R232: the second state is the first but for the receiver. -/
def DiffersInReceiver (s s' : State) : Prop := ∃ p, s' = s.setPanel p

/-- R232, R260: the answer to a transaction does not come from the receiver, so both states run on or both fail. -/
theorem DiffersInReceiver.transmit {s s' : State} (h : DiffersInReceiver s s') (mode : Mode)
    (bs : List Byte) (info : FaultInfo) :
    RunRel DiffersInReceiver (transmit mode bs info s) (transmit mode bs info s') := by
  obtain ⟨p, rfl⟩ := h
  have hanswer : (s.setPanel p).answer 0 = s.answer 0 :=
    State.answer_congr (s.setPanel_answers p) (s.setPanel_txCount p) 0
  exact transmit_rel mode bs info hanswer ⟨p.receive s.cfg mode bs, rfl⟩
    fun d => ⟨p.receiveFailed s.cfg mode bs d, rfl⟩

/-- R232: of two states that differ in the receiver alone, every act leaves two that differ so again. -/
theorem DiffersInReceiver.act {s s' : State} (h : DiffersInReceiver s s') (a : Act) :
    RunRel DiffersInReceiver (a.run s) (a.run s') := by
  match a with
  | .event (.tx mode bs _) => exact h.transmit mode bs (infoOf mode bs)
  | .event (.pin pin level) =>
    obtain ⟨p, rfl⟩ := h
    exact ⟨p.seePin s.pins.reset pin level, rfl⟩
  | .event (.delay _) =>
    obtain ⟨p, rfl⟩ := h
    exact ⟨p, rfl⟩
  | .stage _ _ =>
    obtain ⟨p, rfl⟩ := h
    exact ⟨p, rfl⟩

/-- R232: everything an instruction does keeps two states different in the receiver alone. -/
theorem differsInReceiver_simulation : Simulation DiffersInReceiver where
  cfg := by rintro s _ ⟨p, rfl⟩; rfl
  phase := by rintro s _ ⟨p, rfl⟩; rfl
  act a h := h.act a
  notReady sel := by rintro ⟨p, rfl⟩; exact ⟨p, rfl⟩
  ready := by rintro s _ ⟨p, rfl⟩; exact ⟨p, rfl⟩
  ret v := by rintro ⟨p, rfl⟩; exact ⟨p, rfl⟩
  wire op data := by
    rintro ⟨p, rfl⟩
    exact ⟨(p.receive _ .command [op]).receive _ .data data, rfl⟩

/-- With the receiver hidden, states that differ in it alone are the same. -/
theorem DiffersInReceiver.hide_eq (s s' : State) (h : DiffersInReceiver s s') :
    s.setPanel Panel.powerOn = s'.setPanel Panel.powerOn := by
  obtain ⟨p, rfl⟩ := h
  rfl

end Sys2Proof.Machine

namespace Sys2Proof

open Machine

/-- Settles O59: differing in the receiver alone is a simulation, which taking an input and block reset keep too, so
`Simulation.step_sim` carries it through the step. -/
theorem receiverIsNotObservable : Obligations.ReceiverIsNotObservable := by
  intro s p
  have hstep : OutcomeRel DiffersInReceiver (step s) (step (s.setPanel p)) :=
    differsInReceiver_simulation.step_sim ⟨p, rfl⟩ (s.setPanel_inbox p)
      (fun _ => ⟨p, rfl⟩) (fun _ _ => ⟨p, rfl⟩)
  exact hstep.sameUpTo DiffersInReceiver.hide_eq

end Sys2Proof
end

/-! ## The reset-and-hazards family: the order of INIT's steps (70_reset_and_hazards.md R293) -/

section

namespace Sys2Proof.Machine

/-! ### Where a failing transaction cuts a list of events (60_exceptions.md R264) -/

theorem cutAt_pin (n : Nat) (p : Pin) (l : Level) (evs : List Event) :
    cutAt n (.pin p l :: evs) = .pin p l :: cutAt n evs := by
  cases n <;> rfl

theorem cutAt_delay (n k : Nat) (evs : List Event) :
    cutAt n (.delay k :: evs) = .delay k :: cutAt n evs := by
  cases n <;> rfl

/-- R264: where the failing transaction stands in the first part of a list, nothing of the second part is left. -/
theorem cutAt_append_of_lt {n : Nat} {a : List Event} (b : List Event) (hn : n < txs a) :
    cutAt n (a ++ b) = cutAt n a := by
  induction a generalizing n with
  | nil => simp at hn
  | cons ev a ih =>
    rw [List.cons_append]
    match ev with
    | .tx mode bs r =>
      rw [txs_cons_tx] at hn
      cases n with
      | zero => rfl
      | succ n => rw [cutAt, cutAt, ih (by omega)]
    | .pin p l =>
      rw [txs_cons_pin] at hn
      rw [cutAt_pin, cutAt_pin, ih hn]
    | .delay k =>
      rw [txs_cons_delay] at hn
      rw [cutAt_delay, cutAt_delay, ih hn]

/-! ### The transactions of INIT are those of its replay (R140, R293) -/

theorem txs_initEvents (cfg : Config) : txs (initEvents cfg) = txs (replayEvents cfg) := by
  simp [initEvents, txs_cons_pin, txs_cons_delay]

/-- R264, R293: INIT cut at a transaction is the reset pulse and the replay cut there, without the backlight. -/
theorem cutAt_initEvents {cfg : Config} {n : Nat} (hn : n < txs (replayEvents cfg)) :
    cutAt n (initEvents cfg) =
      [.pin .reset .low, .delay cfg.resetDelayMs, .pin .reset .high, .delay cfg.resetDelayMs]
        ++ cutAt n (replayEvents cfg) := by
  simp only [initEvents, List.cons_append, List.nil_append, cutAt_pin, cutAt_delay,
    cutAt_append_of_lt _ hn]

/-- R140: INIT whose transactions all succeed appends its events. -/
theorem exec_init_ok {s : State} (hwf : s.cfg.wf = true) (hp : s.phase ≠ .failed)
    (hok : AllOk s (txs (replayEvents s.cfg))) :
    ∃ t, exec .init s = .next t ∧ t.trace = s.trace ++ initEvents s.cfg := by
  have ha : Admitted .init s := admitted_init hwf hp
  have hclean : OkList (eventsOf (script s.cfg .init)) := by
    rw [eventsOf_script]; exact (script_clean ha).ok
  refine ⟨_, exec_all_ok ha ((txs_initEvents s.cfg).symm ▸ hok), ?_⟩
  rw [conclude_trace, applyAll_trace s _ hclean, eventsOf_script, expectedEvents]

/-- R264, R140: INIT with a failing transaction appends its events up to there, and has driven the reset line
high and the backlight not at all. -/
theorem exec_init_err {s : State} {n d : Nat} (hwf : s.cfg.wf = true) (hp : s.phase ≠ .failed)
    (hfail : FailsAfter s n d) (hn : n < txs (replayEvents s.cfg)) :
    ∃ t, exec .init s = .next t ∧ t.trace = s.trace ++ cutAt n (initEvents s.cfg) ∧
      t.pins = { reset := some .high, backlight := s.pins.backlight } ∧ t.phase = .failed := by
  have ha : Admitted .init s := admitted_init hwf hp
  obtain ⟨before, mode, bs, r, rest, hl, -, hcut, hexec⟩ :=
    exec_fails ha hfail (hn.trans_eq (txs_initEvents s.cfg).symm)
  have hbefore : OkList (eventsOf before) := (script_before ha hl).2.1.ok
  refine ⟨_, hexec, ?_, (before_pins hl).2 rfl, rfl⟩
  rw [expectedEvents] at hcut
  rw [failTx_trace, applyAll_trace s before hbefore, hcut, List.append_assoc]

end Sys2Proof.Machine

namespace Sys2Proof

open Machine

/-- Settles O19: a successful INIT appends all its events; a failing one appends them cut at the failing
transaction, and that cut falls inside the replay, in front of the backlight. -/
theorem initStepsInOrder : Obligations.InitStepsInOrder := by
  intro s hwf hp
  refine ⟨fun hok => ?_, fun n d hfail hn => ?_⟩
  · obtain ⟨t, hexec, htrace⟩ := exec_init_ok hwf hp hok
    exact ⟨t, hexec, by simp [htrace, initEvents]⟩
  · obtain ⟨t, hexec, htrace, hpins, hphase⟩ := exec_init_err hwf hp hfail hn
    exact ⟨t, hexec, by simp [htrace, cutAt_initEvents hn], by rw [hpins], by rw [hpins], hphase⟩

end Sys2Proof
end

/-! ## The encoding family: the bytes of a frame and the instruction they stand for (30_encoding.md R98 to R101) -/

section

namespace Sys2Proof

/-! ### From an instruction to its frame -/

/-- R98 to R101: the operands of every well-formed instruction survive the byte layout of its frame. -/
theorem operands_survive (i : Instr) : Laws.Encoding.Statement i := by
  cases i with
  | init => exact Laws.Encoding.init
  | fillScreen color => exact Laws.Encoding.fillScreen color
  | fillRect x y w h color => exact Laws.Encoding.fillRect x y w h color
  | drawPixel x y color => exact Laws.Encoding.drawPixel x y color
  | drawChar x y ch fg bg size => exact Laws.Encoding.drawChar x y ch fg bg size
  | drawString col row text fg bg size => exact Laws.Encoding.drawString col row text fg bg size
  | reserved sel => exact Laws.Encoding.reserved sel
  | sendCommand op => exact Laws.Encoding.sendCommand op
  | sendParameters bs => exact Laws.Encoding.sendParameters bs
  | selectWindow x0 y0 x1 y1 => exact Laws.Encoding.selectWindow x0 y0 x1 y1
  | runInitSequence => exact Laws.Encoding.runInitSequence
  | caset data => exact Laws.Encoding.caset data
  | raset data => exact Laws.Encoding.raset data
  | ramwr data => exact Laws.Encoding.ramwr data

/-- The bytes of a well-formed instruction are those of its frame. -/
theorem parseFrame_encode (cfg : Config) {i : Instr} (hi : i.wf = true) :
    parseFrame (portOf i) (encode cfg i) = some (frameOf cfg i) := by
  have h := operands_survive i hi cfg
  simp only [parseFrame, encode, h, frameOf]

theorem fitsAll_cons_of_exact {s : Shape} {o : Operand} {ss : List Shape} {os : List Operand}
    (h : o.exact s) (ht : fitsAll ss os = true) : fitsAll (s :: ss) (o :: os) = true := by
  rw [fitsAll, fits_of_exact h, ht]; rfl

/-- R98, R101: a request whose operands pass the width check is read. -/
theorem decodeRequest_of_fitsAll {sel : Byte} {os : List Operand} {i : Instr} (hs : sel.toNat < 6)
    (hf : fitsAll (requestShapes sel) os = true) (hb : buildRequest sel os = some i) :
    decodeRequest sel os = .ok i :=
  decodeRequest_fit hs ((operandsFit_iff _ _).1 hf) hb

/-- R99: a micro-operation whose operands pass the width check is read. -/
theorem decodeMicro_of_fitsAll {id : Byte} {os : List Operand} {i : Instr}
    (hid : 0x10 ≤ id.toNat ∧ id.toNat ≤ 0x13) (hf : fitsAll (microShapes id) os = true)
    (hb : buildMicro id os = some i) : decodeMicro id os = .ok i := by
  unfold decodeMicro
  rw [if_pos hid, if_pos hf]
  simp only [hb]

/-- R97 to R101: the decoder reads a well-formed instruction from the frame with its operands as integers. -/
theorem decode_frameOf {cfg : Config} (hcfg : cfg.wf = true) {i : Instr} (hi : i.wf = true) :
    decode cfg (frameOf cfg i) = .ok i := by
  have hl := Machine.wf_legal hcfg
  cases i with
  | init => rfl
  | fillScreen color =>
    refine decodeRequest_of_fitsAll (sel := 0x01#8) (by decide)
      (fitsAll_cons_of_exact (unsignedOperand_exact color) rfl) ?_
    show some (Instr.fillScreen (wordOf color.toNat)) = _
    rw [wordOf_toNat]
  | fillRect x y w h color =>
    refine decodeRequest_of_fitsAll (sel := 0x02#8) (by decide)
      (fitsAll_cons_of_exact (signedOperand_exact x) <| fitsAll_cons_of_exact (signedOperand_exact y) <|
        fitsAll_cons_of_exact (unsignedOperand_exact w) <|
        fitsAll_cons_of_exact (unsignedOperand_exact h) <|
        fitsAll_cons_of_exact (unsignedOperand_exact color) rfl) ?_
    show some (Instr.fillRect (wordOf x.toInt) (wordOf y.toInt) (wordOf w.toNat) (wordOf h.toNat)
      (wordOf color.toNat)) = _
    simp only [wordOf_toInt, wordOf_toNat]
  | drawPixel x y color =>
    refine decodeRequest_of_fitsAll (sel := 0x03#8) (by decide)
      (fitsAll_cons_of_exact (signedOperand_exact x) <| fitsAll_cons_of_exact (signedOperand_exact y) <|
        fitsAll_cons_of_exact (unsignedOperand_exact color) rfl) ?_
    show some (Instr.drawPixel (wordOf x.toInt) (wordOf y.toInt) (wordOf color.toNat)) = _
    simp only [wordOf_toInt, wordOf_toNat]
  | drawChar x y ch fg bg size =>
    refine decodeRequest_of_fitsAll (sel := 0x04#8) (by decide)
      (fitsAll_cons_of_exact (signedOperand_exact x) <| fitsAll_cons_of_exact (signedOperand_exact y) <|
        fitsAll_cons_of_exact (byteOperand_exact ch) <|
        fitsAll_cons_of_exact (unsignedOperand_exact fg) <|
        fitsAll_cons_of_exact (unsignedOperand_exact bg) <|
        fitsAll_cons_of_exact (byteOperand_exact size) rfl) ?_
    show some (Instr.drawChar (wordOf x.toInt) (wordOf y.toInt) (byteOf ch.toNat) (wordOf fg.toNat)
      (wordOf bg.toNat) (byteOf size.toNat)) = _
    simp only [wordOf_toInt, wordOf_toNat, byteOf_toNat]
  | drawString col row text fg bg size =>
    refine decodeRequest_of_fitsAll (sel := 0x05#8) (by decide)
      (fitsAll_cons_of_exact (byteOperand_exact col) <| fitsAll_cons_of_exact (byteOperand_exact row) <|
        fitsAll_cons_of_exact (s := .text) hi <|
        fitsAll_cons_of_exact (unsignedOperand_exact fg) <|
        fitsAll_cons_of_exact (unsignedOperand_exact bg) <|
        fitsAll_cons_of_exact (byteOperand_exact size) rfl) ?_
    show some (Instr.drawString (byteOf col.toNat) (byteOf row.toNat) (cText text) (wordOf fg.toNat)
      (wordOf bg.toNat) (byteOf size.toNat)) = _
    simp only [wordOf_toNat, byteOf_toNat, cText_of_all hi]
  | reserved sel =>
    have hsel : 6 ≤ sel.toNat := of_decide_eq_true hi
    exact if_pos hsel
  | sendCommand op =>
    refine decodeMicro_of_fitsAll (id := 0x10#8) (by decide) (fitsAll_cons_of_exact (byteOperand_exact op) rfl) ?_
    show some (Instr.sendCommand (byteOf op.toNat)) = _
    rw [byteOf_toNat]
  | sendParameters bs => rfl
  | selectWindow x0 y0 x1 y1 => rfl
  | runInitSequence => rfl
  | caset data => exact if_pos rfl
  | raset data =>
    exact (if_neg hl.casetRaset.symm).trans (if_pos rfl)
  | ramwr data =>
    exact (if_neg hl.casetRamwr.symm).trans ((if_neg hl.rasetRamwr.symm).trans (if_pos rfl))

/-- Settles O1: the bytes of an instruction parse to its frame, and the decoder reads the instruction from it. -/
theorem decodeOfEncodeIsTheInstruction : Obligations.DecodeOfEncodeIsTheInstruction := by
  intro cfg i hcfg hi
  have hd := decode_frameOf hcfg hi
  exact ⟨by simp only [decodeBytes, parseFrame_encode cfg hi, hd], hd⟩

/-! ### From a frame's bytes to an instruction and back -/

/-- R101: bytes that do not fill the operands stand as one byte string, which fits no frame that lacks one. So a
byte string whose one operand fits was parsed whole. -/
theorem parse_whole_of_fits {port : Port} {head : Byte} {bs : List Byte}
    (hf : fitsAll (shapesOf port head) [.bytes bs] = true) :
    parseFields (shapesOf port head) bs = some ([.bytes bs], []) := by
  have htext := shapes_head port head
  match shapesOf port head, hf, htext with
  | [.rest], _, _ => rfl
  | [.text], _, htext => exact absurd rfl htext

/-- What the bytes of a frame are, where its operands fit. -/
theorem parseFrame_fits {port : Port} {bytes : List Byte} {f : Frame}
    (hp : parseFrame port bytes = some f) (hf : fitsAll (shapesOf f.port f.head) f.operands = true) :
    f.port = port ∧ ∃ bs, bytes = f.head :: bs ∧
      parseFields (shapesOf port f.head) bs = some (f.operands, []) := by
  cases bytes with
  | nil => cases hp
  | cons head bs =>
    rw [parseFrame] at hp
    split at hp
    · rename_i ops hparse
      cases hp
      exact ⟨rfl, bs, rfl, hparse⟩
    all_goals
      cases hp
      exact ⟨rfl, bs, rfl, parse_whole_of_fits hf⟩

/-- R98, R101: all that the decoder reads on the request port. -/
theorem decodeRequest_ok {sel : Byte} {ops : List Operand} {i : Instr}
    (hd : decodeRequest sel ops = .ok i) :
    i = .reserved sel ∨ (fitsAll (requestShapes sel) ops = true ∧ buildRequest sel ops = some i) := by
  unfold decodeRequest at hd
  split at hd
  · cases hd; exact .inl rfl
  · split at hd
    · rename_i hf
      split at hd
      · rename_i hb; cases hd; exact .inr ⟨hf, hb⟩
      · cases hd
    · cases hd

/-- R99: all that it reads on the micro-operation port. -/
theorem decodeMicro_ok {id : Byte} {ops : List Operand} {i : Instr} (hd : decodeMicro id ops = .ok i) :
    fitsAll (microShapes id) ops = true ∧ buildMicro id ops = some i := by
  unfold decodeMicro at hd
  split at hd
  · split at hd
    · rename_i hf
      split at hd
      · rename_i hb; cases hd; exact ⟨hf, hb⟩
      · cases hd
    · cases hd
  · cases hd

/-- R97: all that it reads on the wire. -/
theorem decodeWire_ok {cfg : Config} {op : Byte} {ops : List Operand} {i : Instr}
    (hd : decodeWire cfg op ops = .ok i) : ∃ data, ops = [.bytes data] ∧
      ((op = cfg.opCaset ∧ i = .caset data) ∨ (op = cfg.opRaset ∧ i = .raset data) ∨
        (op = cfg.opRamwr ∧ i = .ramwr data)) := by
  unfold decodeWire at hd
  split at hd
  · rename_i data
    refine ⟨data, rfl, ?_⟩
    split at hd
    · rename_i he; cases hd; exact .inl ⟨he, rfl⟩
    split at hd
    · rename_i he; cases hd; exact .inr (.inl ⟨he, rfl⟩)
    split at hd
    · rename_i he; cases hd; exact .inr (.inr ⟨he, rfl⟩)
    · cases hd
  · cases hd

/-- R98: the request built of operands without a zero byte in a text encodes to the same operand bytes. -/
theorem encode_buildRequest {cfg : Config} {sel : Byte} {ops : List Operand} {i : Instr}
    (hb : buildRequest sel ops = some i)
    (htext : ∀ t, (Shape.text, Operand.bytes t) ∈ (requestShapes sel).zip ops → cText t = t) :
    portOf i = .request ∧ encode cfg i = sel :: encodeFields (requestShapes sel) ops := by
  unfold buildRequest at hb
  split at hb
  case h_7 => cases hb
  all_goals
    rename_i hsel
    rw [byte_eq hsel] at htext ⊢
    cases hb
    refine ⟨rfl, congrArg (List.cons _) ?_⟩
  case h_1 => rfl
  case h_6 t _ _ _ =>
    have ht : cText t = t := htext t (by simp [requestShapes])
    simp [portOf, headOf, shapesOf, requestShapes, operandsOf, encodeFields, encodeField_byteOf,
      encodeField_unsigned, ht]
  all_goals
    simp [portOf, headOf, shapesOf, requestShapes, operandsOf, encodeFields, encodeField_byteOf,
      encodeField_unsigned, encodeField_signed]

/-- R99: the same of a micro-operation. -/
theorem encode_buildMicro {cfg : Config} {id : Byte} {ops : List Operand} {i : Instr}
    (hb : buildMicro id ops = some i) :
    portOf i = .micro ∧ encode cfg i = id :: encodeFields (microShapes id) ops := by
  unfold buildMicro at hb
  split at hb
  case h_5 => cases hb
  all_goals
    rename_i hid
    rw [byte_eq hid]
    cases hb
    refine ⟨rfl, congrArg (List.cons _) ?_⟩
  case h_1 => simp [portOf, headOf, shapesOf, microShapes, operandsOf, encodeFields, encodeField_byteOf]
  all_goals rfl

/-- R97 to R101: the operands of a frame that decodes fit, and they encode as those of its instruction. -/
theorem encode_of_decode {cfg : Config} {f : Frame} {i : Instr} (hd : decode cfg f = .ok i)
    (hres : ∀ sel, i ≠ .reserved sel) :
    fitsAll (shapesOf f.port f.head) f.operands = true ∧
    ((∀ t, (Shape.text, Operand.bytes t) ∈ (shapesOf f.port f.head).zip f.operands → cText t = t) →
      portOf i = f.port ∧
        encode cfg i = f.head :: encodeFields (shapesOf f.port f.head) f.operands) := by
  obtain ⟨port, head, ops⟩ := f
  cases port with
  | request =>
    rcases decodeRequest_ok hd with hi | ⟨hf, hb⟩
    · exact absurd hi (hres head)
    · exact ⟨hf, encode_buildRequest hb⟩
  | micro =>
    obtain ⟨hf, hb⟩ := decodeMicro_ok hd
    exact ⟨hf, fun _ => encode_buildMicro hb⟩
  | wire =>
    obtain ⟨data, rfl, ⟨rfl, rfl⟩ | ⟨rfl, rfl⟩ | ⟨rfl, rfl⟩⟩ := decodeWire_ok hd <;>
      exact ⟨rfl, fun _ => ⟨rfl, rfl⟩⟩

/-- Settles O2: the decoder reads nothing from bytes that do not fill the operands, parsed operands encode to the
bytes they came from, and the built instruction has those operands. -/
theorem encodeOfDecodeIsTheBytes : Obligations.EncodeOfDecodeIsTheBytes := by
  intro cfg port bytes i _ hd hres
  unfold decodeBytes at hd
  split at hd
  · rename_i f hp
    obtain ⟨hfits, hback⟩ := encode_of_decode hd hres
    obtain ⟨rfl, bs, rfl, hparse⟩ := parseFrame_fits hp hfits
    obtain ⟨hi, henc⟩ := hback fun t hm => cText_of_all (parse_text_free hparse t hm)
    have hbytes := encode_parse (restLast_shapes _ _) hparse
    rw [List.append_nil] at hbytes
    exact ⟨by rw [henc, hbytes], hi⟩
  · cases hd

/-- Settles O3: the decoder computes each of the eight byte strings. -/
theorem specWordsDecode : Obligations.SpecWordsDecode :=
  ⟨rfl, rfl, rfl, rfl, rfl, rfl, rfl, rfl⟩

end Sys2Proof
end

/-! ## The step family: what a step takes, runs, refuses and resets (60_exceptions.md R264 to R268,
70_reset_and_hazards.md R290, R291) -/

section

namespace Sys2Proof.Machine

/-- R264: in FAILED whatever the block itself would run is stuck. -/
theorem exec_stuck {i : Instr} {s : State} (hwf : s.cfg.wf = true) (hp : s.phase = .failed)
    (hi : isWire i = false) (hres : ∀ sel, i ≠ .reserved sel) : exec i s = .fault .stuckFailed := by
  have hgate : ∀ body, gate s body = .fault .stuckFailed := fun body => by
    unfold gate; rw [if_pos hwf, hp]
  rcases exec_shape i with ⟨-, body, hb⟩ | ⟨-, -, body, hb⟩ | ⟨x0, y0, x1, y1, rfl⟩ | ⟨sel, rfl⟩ |
    ⟨hw, -⟩
  · rw [hb, admitDrawing, if_pos hwf, hp]
  · rw [hb, hgate]
  · exact (if_neg fun hc => hc.2.1 hp).trans (hgate _)
  · exact absurd rfl (hres sel)
  · rw [hi] at hw; cases hw

/-- R265: in UNINIT a drawing request raises NotReady with its selector. -/
theorem exec_notReady {i : Instr} {s : State} (hwf : s.cfg.wf = true) (hp : s.phase = .uninit)
    (hi : isDrawing i = true) : exec i s = .next (s.raise .notReady (.selector (selectorOf i))) := by
  rcases exec_shape i with ⟨-, body, hb⟩ | ⟨hd, -⟩ | ⟨x0, y0, x1, y1, rfl⟩ | ⟨sel, rfl⟩ | ⟨hw, -⟩
  · rw [hb, admitDrawing, if_pos hwf, hp]
  · rw [hd] at hi; cases hi
  · cases hi
  · cases hi
  · rw [not_wire_of_drawing hi] at hw; cases hw

/-- Outside FAILED, or with no block reset behind it, a frame that decodes is executed. -/
theorem step_exec {s : State} {f : Frame} {rest : List Input} {i : Instr} (hwf : s.cfg.wf = true)
    (hin : s.inbox = .frame f :: rest) (hd : decode s.cfg f = .ok i)
    (hreset : s.phase = .failed → isWire i = false → (∀ sel, i ≠ .reserved sel) →
      ∀ c, Input.blockReset c ∉ rest) : step s = exec i (s.setInbox rest) := by
  rw [step_frame hwf hin hd, recovery_eq_none hreset]

/-- R264, R290: in FAILED a request with a block reset behind it leaves the step to that block reset. -/
theorem step_recovers {s : State} {f : Frame} {frames : List Frame} {c : Config} {later : List Input}
    {i : Instr} (hwf : s.cfg.wf = true) (hp : s.phase = .failed)
    (hin : s.inbox = .frame f :: (frames.map .frame ++ .blockReset c :: later))
    (hd : decode s.cfg f = .ok i) (hi : isWire i = false) (hres : ∀ sel, i ≠ .reserved sel) :
    step s = runBlockReset c (s.setInbox later) := by
  have hn : nextReset (frames.map .frame ++ .blockReset c :: later) = some (c, later) :=
    nextReset_eq_some.2 ⟨_, rfl, by simp⟩
  rw [step_frame hwf hin hd, recovery_eq_some.2 ⟨hp, runsOnBlock_iff.2 ⟨hi, hres⟩, hn⟩]

theorem runBlockReset_wf {c : Config} (s : State) (hc : c.wf = true) :
    runBlockReset c s = .next (s.blockReset c) := if_pos hc

/-- R242: data bytes after another opcode have no effect. -/
theorem Panel.data_other {p : Panel} {op : Byte} (h : p.rx = .other op) (bs : List Byte) :
    bs.foldl Panel.dataByte p = p := by
  induction bs with
  | nil => rfl
  | cons b bs ih => rw [List.foldl_cons, show p.dataByte b = p by unfold Panel.dataByte; rw [h], ih]

/-- R242: what the receiver holds after another opcode and any data. -/
theorem Panel.receive_other {cfg : Config} {op : Byte} (h1 : op ≠ cfg.opCaset) (h2 : op ≠ cfg.opRaset)
    (h3 : op ≠ cfg.opRamwr) (p : Panel) (data : List Byte) :
    (p.receive cfg .command [op]).receive cfg .data data =
      p.endPhase.otherCommand cfg.panelModeOk op := by
  have hop : p.receive cfg .command [op] = p.endPhase.otherCommand cfg.panelModeOk op := by
    simp [receive, commandByte, h1, h2, h3]
  have hrx : (p.endPhase.otherCommand cfg.panelModeOk op).rx = .other op := by
    unfold otherCommand; split <;> rfl
  rw [hop]
  exact data_other hrx data

/-- R97, R242: a wire frame with another opcode is no instruction. -/
theorem step_other {s : State} {op : Byte} {data : List Byte} {rest : List Input}
    (hwf : s.cfg.wf = true) (h1 : op ≠ s.cfg.opCaset) (h2 : op ≠ s.cfg.opRaset)
    (h3 : op ≠ s.cfg.opRamwr)
    (hin : s.inbox = .frame { port := .wire, head := op, operands := [.bytes data] } :: rest) :
    step s = .next (receiveFrame op data (s.setInbox rest)) := by
  have hd : decode s.cfg { port := .wire, head := op, operands := [.bytes data] } =
      .error (.otherOpcode op) := by
    simp [decode, decodeWire, h1, h2, h3]
  rw [step_reject hwf hin hd]; rfl

end Sys2Proof.Machine

namespace Sys2Proof

open Machine

/-- Settles O4: the frame of the bytes decodes as they do, and nothing holds it back. -/
theorem stepRunsTheDecodedInstruction : Obligations.StepRunsTheDecodedInstruction := by
  intro s port bytes f rest i hwf hin hp hd hreset
  have hf : decode s.cfg f = .ok i := by rw [decodeBytes, hp] at hd; exact hd
  exact step_exec hwf hin hf hreset

/-- Settles O5. -/
theorem idleStepWaits : Obligations.IdleStepWaits := by
  intro s hwf hin
  rw [step, if_pos hwf, hin]

/-- Settles O6: `State.blockReset` writes the reset values. -/
theorem blockResetRestoresTheResetState : Obligations.BlockResetRestoresTheResetState := by
  intro s c rest hwf hc hin
  exact ⟨_, (step_reset hwf hin).trans (runBlockReset_wf _ hc), rfl, rfl, rfl, rfl, fun _ => rfl, rfl, rfl,
    rfl, rfl, rfl, rfl, rfl, rfl, rfl⟩

/-- Settles O7: with no block reset behind it the request is executed and stuck; otherwise the step looks up the
first one, which is what a step on that block reset alone does. -/
theorem blockResetRecoversFromFailed : Obligations.BlockResetRecoversFromFailed := by
  intro s f i rest hwf hp hin hd hi hres
  refine ⟨fun hno => ?_, ?_⟩
  · rw [step_exec hwf hin hd fun _ _ _ => hno]
    exact exec_stuck hwf hp hi hres
  · rintro frames c later rfl
    have hstep := step_recovers hwf hp hin hd hi hres
    refine ⟨?_, fun hc => ?_⟩
    · rw [hstep, step_reset (s := s.setInbox (.blockReset c :: later)) hwf rfl]; rfl
    · exact ⟨_, hstep.trans (runBlockReset_wf _ hc), rfl, rfl, rfl, rfl, rfl, rfl, rfl, fun _ => rfl, rfl,
        rfl⟩

/-- Settles O8. -/
theorem illFormedConfigurationIsRefused : Obligations.IllFormedConfigurationIsRefused := by
  refine ⟨fun s hwf => ?_, fun s c rest hwf hc hin => ?_⟩
  · rw [step, if_neg (by simp [hwf])]
  · rw [step_reset hwf hin, runBlockReset, if_neg (by simp [hc])]

/-- Settles O9: the decoder tests for a reserved selector first, and a reserved request waits for no reset. -/
theorem reservedSelectorsAreRefused : Obligations.ReservedSelectorsAreRefused := by
  refine ⟨fun s sel operands rest hwf hsel hin => ?_, fun _ _ => rfl⟩
  have hd : decode s.cfg { port := .request, head := sel, operands := operands } =
      .ok (.reserved sel) := if_pos hsel
  exact step_exec hwf hin hd fun _ _ hres => absurd rfl (hres sel)

/-- Settles O10: `decodeRequest_misfit` and `decodeRequest_fit` are the width check, and building the request
takes the bit patterns. -/
theorem operandsOutsideTheirWidthsAreRefused : Obligations.OperandsOutsideTheirWidthsAreRefused := by
  intro s rest hwf
  refine ⟨fun sel operands hsel hno hin => ?_, fun hreset => ?_⟩
  · exact step_reject hwf hin (decodeRequest_misfit hsel hno)
  · have run : ∀ {sel : Byte} {ops : List Operand} {i : Instr}, sel.toNat < 6 → OperandsFit sel ops →
        buildRequest sel ops = some i →
        s.inbox = .frame { port := .request, head := sel, operands := ops } :: rest →
        step s = exec i (s.setInbox rest) := fun hsel hfit hb hin =>
      step_exec hwf hin (decodeRequest_fit hsel hfit hb) fun hp _ _ => hreset hp
    exact ⟨run (by decide) .nil rfl, fun _ hfit => run (by decide) hfit rfl,
      fun _ _ _ _ _ hfit => run (by decide) hfit rfl, fun _ _ _ hfit => run (by decide) hfit rfl,
      fun _ _ _ _ _ _ hfit => run (by decide) hfit rfl,
      fun _ _ _ _ _ _ hfit => run (by decide) hfit rfl⟩

/-- Settles O11: the opcode ends the phase in front of it, and its data bytes have no effect. -/
theorem otherWireCommandSetsThePhase : Obligations.OtherWireCommandSetsThePhase := by
  intro s op data rest hwf h1 h2 h3 hin
  refine ⟨s.panel.endPhase.otherCommand s.cfg.panelModeOk op, ?_, ?_, ?_, fun hm hno => ?_, fun hm => ?_⟩
  · rw [step_other hwf h1 h2 h3 hin, receiveFrame]
    exact congrArg _ (congrArg _ (Panel.receive_other h1 h2 h3 s.panel data))
  · unfold Panel.otherCommand; split <;> rfl
  · unfold Panel.otherCommand; split <;> exact Panel.endPhase_half _
  · rw [hm, Panel.endPhase_of_no_param hno]; rfl
  · simp [hm, Panel.otherCommand, Panel.forgetWindow, Panel.powerOn]

/-- Settles O22. -/
theorem failedBlockIsStuck : Obligations.FailedBlockIsStuck :=
  fun _ _ hwf hp hi hres => exec_stuck hwf hp hi hres

/-- Settles O23: `State.raise` records the fault where none is recorded. -/
theorem drawingBeforeInitRaisesNotReady : Obligations.DrawingBeforeInitRaisesNotReady := by
  intro i s hi hwf hp hf
  rw [exec_notReady hwf hp hi, State.raise, hf]

end Sys2Proof
end

/-! ## The micro-operations and INIT (40_command_protocol.md R131 to R142) -/

section

namespace Sys2Proof.Machine

/-- An instruction other than a wire command that leaves the block outside FAILED has run to its end. -/
theorem exec_done {i : Instr} {s t : State} (h : exec i s = .next t) (hi : isWire i = false)
    (hp : t.phase ≠ .failed) :
    Admitted i s ∧ t = conclude i (s.applyAll (script s.cfg i)) := by
  obtain ⟨-, hr⟩ := exec_next h
  cases hr with
  | wire hw _ => rw [hi] at hw; cases hw
  | notReady _ _ ht => subst ht; exact absurd rfl hp
  | done ha ht => exact ⟨ha, ht⟩
  | failed _ _ _ _ _ _ _ _ ht => subst ht; exact absurd rfl hp

/-- R28: a script that ran to its end has appended the instruction's events. -/
theorem done_trace {i : Instr} {s : State} (ha : Admitted i s) :
    (conclude i (s.applyAll (script s.cfg i))).trace = s.trace ++ expectedEvents s.cfg i := by
  rw [conclude_trace, applyAll_trace _ _ (by rw [eventsOf_script]; exact (script_clean ha).ok),
    eventsOf_script]

/-- R28: so has an instruction that leaves the block outside FAILED. -/
theorem exec_done_trace {i : Instr} {s t : State} (h : exec i s = .next t) (hi : isWire i = false)
    (hp : t.phase ≠ .failed) : t.trace = s.trace ++ expectedEvents s.cfg i := by
  obtain ⟨ha, rfl⟩ := exec_done h hi hp
  exact done_trace ha

/-! ### SEND_PARAMETERS (R131) -/

theorem exec_sendParameters {bs : List Byte} {s : State} (hwf : s.cfg.wf = true)
    (hp : s.phase ≠ .failed) : exec (.sendParameters bs) s = .next (sendParameters bs s).state :=
  admit_of_not_failed (sendParameters bs) hwf hp

/-- R131: a sequence that is not empty is one data transaction. -/
theorem sendParameters_of_ne_nil {bs : List Byte} (hbs : bs ≠ []) (s : State) :
    sendParameters bs s = transmit .data bs (.length bs.length) s := by
  cases bs with
  | nil => exact absurd rfl hbs
  | cons b rest => rfl

/-- R131: SEND_PARAMETERS whose transaction succeeds has the effect of that transaction alone. -/
theorem exec_sendParameters_ok {bs : List Byte} {s : State} (hwf : s.cfg.wf = true)
    (hp : s.phase ≠ .failed) (hbs : bs ≠ []) (hok : s.answer 0 = .ok) :
    exec (.sendParameters bs) s = .next (s.apply (.event (.tx .data bs .ok))) := by
  rw [exec_sendParameters hwf hp, sendParameters_of_ne_nil hbs, transmit_ok _ _ _ hok]; rfl

/-- R131, R264: SEND_PARAMETERS whose transaction fails raises TransportError with the length. -/
theorem exec_sendParameters_err {bs : List Byte} {s : State} {d : Nat} (hwf : s.cfg.wf = true)
    (hp : s.phase ≠ .failed) (hbs : bs ≠ []) (herr : s.answer 0 = .err d) :
    exec (.sendParameters bs) s = .next (s.failTx .data bs d) := by
  rw [exec_sendParameters hwf hp, sendParameters_of_ne_nil hbs, transmit_err _ _ _ herr]; rfl

/-! ### SELECT_WINDOW (R134, R135) -/

theorem windowInPanel_iff (cfg : Config) (x0 y0 x1 y1 : Int) : windowInPanel cfg x0 y0 x1 y1 = true ↔
    0 ≤ x0 ∧ x0 ≤ x1 ∧ x1 < cfg.width ∧ 0 ≤ y0 ∧ y0 ≤ y1 ∧ y1 < cfg.height := by
  simp only [windowInPanel, Bool.and_eq_true, decide_eq_true_eq, and_assoc]

/-- R246: the window registers, the pointer and the count after a window selection inside the panel. -/
theorem window_panel {cfg : Config} (hl : LegalConfig cfg) (p : Panel) {x0 y0 x1 y1 : Int}
    (hw : windowInPanel cfg x0 y0 x1 y1 = true) :
    (windowEvents cfg x0 y0 x1 y1).foldl (Panel.observe cfg) p =
      { rx := .memWrite
        xs := some (BitVec.ofNat 16 (x0.toNat + cfg.offsetX))
        xe := some (BitVec.ofNat 16 (x1.toNat + cfg.offsetX))
        ys := some (BitVec.ofNat 16 (y0.toNat + cfg.offsetY))
        ye := some (BitVec.ofNat 16 (y1.toNat + cfg.offsetY))
        ptr := some (BitVec.ofNat 16 (x0.toNat + cfg.offsetX), BitVec.ofNat 16 (y0.toNat + cfg.offsetY))
        half := none
        left := some (((x1 - x0 + 1) * (y1 - y0 + 1)).toNat)
        gram := p.gram } := by
  rw [windowInPanel_iff] at hw
  have hox := hl.offsetX
  have hoy := hl.offsetY
  have n1 := Panel.windowWord_toNat (v := x0) (off := cfg.offsetX) (by omega) (by omega)
  have n2 := Panel.windowWord_toNat (v := x1) (off := cfg.offsetX) (by omega) (by omega)
  have n3 := Panel.windowWord_toNat (v := y0) (off := cfg.offsetY) (by omega) (by omega)
  have n4 := Panel.windowWord_toNat (v := y1) (off := cfg.offsetY) (by omega) (by omega)
  have hleft : (x1.toNat + cfg.offsetX - (x0.toNat + cfg.offsetX) + 1) *
      (y1.toNat + cfg.offsetY - (y0.toNat + cfg.offsetY) + 1) =
      ((x1 - x0 + 1) * (y1 - y0 + 1)).toNat := by
    rw [Int.toNat_mul (by omega) (by omega)]
    congr 1 <;> omega
  rw [Panel.window_observe hl p x0 y0 x1 y1 (by rw [BitVec.le_def]; omega) (by rw [BitVec.le_def]; omega),
    n1, n2, n3, n4, hleft, Panel.windowWord_eq (v := x0) (by omega) (by omega),
    Panel.windowWord_eq (v := x1) (by omega) (by omega),
    Panel.windowWord_eq (v := y0) (by omega) (by omega),
    Panel.windowWord_eq (v := y1) (by omega) (by omega)]

/-! ### The replay and INIT (R138 to R142) -/

/-- R95, R138: masking and testing the delay flag see only bits that 0x9F keeps. -/
theorem count_bits_of_kept {a b : Byte} (h : a &&& 0x9F#8 = b &&& 0x9F#8) :
    a &&& 0x1F#8 = b &&& 0x1F#8 ∧ a &&& 0x80#8 = b &&& 0x80#8 := by
  have mask : ∀ x m : Byte, 0x9F#8 &&& m = m → x &&& m = (x &&& 0x9F#8) &&& m := fun x m hm => by
    rw [BitVec.and_assoc, hm]
  constructor
  · rw [mask a _ (by decide), mask b _ (by decide), h]
  · rw [mask a _ (by decide), mask b _ (by decide), h]

/-- R142: what a replay emits reads the table and the init delay alone. -/
theorem replayEvents_congr {c c' : Config} (ht : c.initTable = c'.initTable)
    (hd : c.initDelayMs = c'.initDelayMs) : replayEvents c = replayEvents c' := by
  have hrec : recordEvents c = recordEvents c' := by
    funext r; rw [recordEvents, recordEvents, hd]
  rw [replayEvents, replayEvents, liveRecords, liveRecords, ht, hrec]

theorem delayTotal_okData (bs : List Byte) : delayTotal (okData bs) = 0 := by
  cases bs <;> rfl

/-- R139: one record takes the init delay if its flag is set. -/
theorem delayTotal_recordEvents (cfg : Config) (r : CommandRecord) :
    delayTotal (recordEvents cfg r) = if r.count.getLsbD 7 then cfg.initDelayMs else 0 := by
  have hop : delayTotal [okCommand r.op] = 0 := rfl
  rw [recordEvents, ← List.singleton_append, delayTotal_append, delayTotal_append, hop,
    delayTotal_okData]
  split <;> simp [delayTotal]

/-- R139: the delays of a list of records. -/
theorem delayTotal_records (cfg : Config) (l : List CommandRecord) :
    delayTotal (l.flatMap (recordEvents cfg)) =
      cfg.initDelayMs * (l.filter fun r => r.count.getLsbD 7).length := by
  induction l with
  | nil => rfl
  | cons r l ih =>
    rw [List.flatMap_cons, delayTotal_append, ih, delayTotal_recordEvents, List.filter_cons]
    split
    · rw [List.length_cons, Nat.mul_succ, Nat.add_comm]
    · rw [Nat.zero_add]

/-- R302: the delays of a whole INIT. -/
theorem delayTotal_initEvents {cfg : Config} (hwf : cfg.wf = true) :
    delayTotal (initEvents cfg) = 2 * cfg.resetDelayMs + cfg.initDelayMs *
      (cfg.initTable.filter fun r => decide (r.count ≠ 0xFF#8) && r.count.getLsbD 7).length := by
  have hpulse : delayTotal [.pin .reset .low, .delay cfg.resetDelayMs, .pin .reset .high,
      .delay cfg.resetDelayMs] = 2 * cfg.resetDelayMs := by
    simp [delayTotal]; omega
  have hlight : delayTotal [.pin .backlight cfg.blOnLevel] = 0 := rfl
  have hflags : (liveRecords cfg).filter (fun r => r.count.getLsbD 7) =
      cfg.initTable.filter fun r => decide (r.count ≠ 0xFF#8) && r.count.getLsbD 7 := by
    rw [liveRecords_eq_filter hwf, List.filter_filter]
    exact List.filter_congr fun r _ => Bool.and_comm _ _
  rw [initEvents, delayTotal_append, delayTotal_append, hpulse, hlight, replayEvents, delayTotal_records,
    hflags, Nat.add_zero]

end Sys2Proof.Machine

namespace Sys2Proof

open Machine

/-- Settles O13. -/
theorem sendParametersEffect : Obligations.SendParametersEffect := by
  intro bs s hwf hp
  refine ⟨?_, fun hbs hok => ?_, fun d hbs herr hf => ?_⟩
  · rintro rfl
    exact exec_sendParameters hwf hp
  · refine ⟨_, exec_sendParameters_ok hwf hp hbs hok, ?_, rfl, rfl⟩
    exact apply_performed s (.event (.tx .data bs .ok)) (by simp [PinFree])
      (by simp [OkList, Event.isErr])
  · exact ⟨_, exec_sendParameters_err hwf hp hbs herr, rfl, failTx_fault s _ _ _ hf,
      failTx_faultInfo s _ _ _ hf, rfl, rfl, rfl, rfl, rfl, rfl⟩

/-- Settles O14: SELECT_WINDOW performs its five events, and `window_panel` is what the receiver makes of them. -/
theorem selectWindowProgramsTheWindow : Obligations.SelectWindowProgramsTheWindow := by
  intro x0 y0 x1 y1 s hwf hp hx0 hx01 hx1 hy0 hy01 hy1 hok
  have hw : windowInPanel s.cfg x0 y0 x1 y1 = true :=
    (windowInPanel_iff _ _ _ _ _).2 ⟨hx0, hx01, hx1, hy0, hy01, hy1⟩
  have ha : Admitted (.selectWindow x0 y0 x1 y1) s := ⟨hwf, hp, by simp [isDrawing], hw⟩
  obtain ⟨hexec, hperf⟩ := exec_performs (by simp) ha hok
  exact ⟨_, hexec, hperf, applyAll_events_scratch _ _, applyAll_ret _ _,
    hperf.panel.trans (window_panel (wf_legal hwf) s.panel hw)⟩

/-- Settles O15. -/
theorem selectWindowOutsideThePanelStops : Obligations.SelectWindowOutsideThePanelStops := by
  intro x0 y0 x1 y1 s hwf hp hout
  exact if_pos ⟨hwf, hp, fun hw => hout ((windowInPanel_iff _ _ _ _ _).1 hw)⟩

/-- Settles O16. -/
theorem runInitSequenceReplaysTheTable : Obligations.RunInitSequenceReplaysTheTable := by
  intro s hwf hp hok
  obtain ⟨hexec, hperf⟩ := exec_performs (by simp) (admitted_runInitSequence hwf hp) hok
  exact ⟨_, hexec, hperf, applyAll_events_scratch _ _, applyAll_ret _ _⟩

/-- Settles O17: a record is sent as its events, which read the count byte through the mask and the flag alone. -/
theorem initRecordIgnoresTheMaskedBits : Obligations.InitRecordIgnoresTheMaskedBits := by
  intro r count s hwf hkept
  obtain ⟨hmask, hflag⟩ := count_bits_of_kept hkept
  have hbit : count.getLsbD 7 = r.count.getLsbD 7 := by
    rw [Bool.eq_iff_iff, ← flag_iff, ← flag_iff, hflag]
  have hevents : recordEvents s.cfg { r with count := count } = recordEvents s.cfg r := by
    simp only [recordEvents, hmask, hbit]
  rw [sendRecord_eq _ hwf, sendRecord_eq _ hwf, hevents]

/-- Settles O18: INIT's script field by field, and its transactions are those of the replay. -/
theorem initCompletes : Obligations.InitCompletes := by
  intro s hwf hp hok
  have ha : Admitted .init s := admitted_init hwf hp
  have htxs : txs (eventsOf (script s.cfg .init)) = txs (replayEvents s.cfg) := by
    rw [eventsOf_script]; exact txs_initEvents s.cfg
  have hexec := exec_all_ok ha ((txs_initEvents s.cfg).symm ▸ hok)
  have htrace := done_trace ha
  have hpins := applyAll_init_pins s
  have hpanel := applyAll_init_panel s
  have hscratch : (s.applyAll (script s.cfg .init)).scratch = s.scratch := applyAll_events_scratch _ _
  have hcfg := applyAll_cfg s (script s.cfg .init)
  obtain ⟨hanswers, hcount⟩ := applyAll_answers s (script s.cfg .init)
  obtain ⟨-, hfault, hinfo, hinbox, hepoch⟩ := applyAll_flags s (script s.cfg .init)
  rw [htxs] at hanswers hcount
  generalize s.applyAll (script s.cfg .init) = u at *
  exact ⟨conclude .init u, hexec, htrace, rfl, rfl, congrArg Pins.reset hpins,
    congrArg Pins.backlight hpins, hpanel, hscratch, hcfg, hfault, hinfo, hanswers, hcount, hinbox,
    hepoch⟩

/-- Settles O20: what the two append is fixed by the parameters they share. -/
theorem initReplayIsDeterministic : Obligations.InitReplayIsDeterministic := by
  intro s s' t t' htable hdelay hreset hlevel hp hp'
  have hreplay : replayEvents s'.cfg = replayEvents s.cfg :=
    (replayEvents_congr htable hdelay).symm
  refine ⟨fun h h' => ⟨initEvents s.cfg, exec_done_trace h rfl hp, ?_⟩,
    fun h h' => ⟨replayEvents s.cfg, exec_done_trace h rfl hp, ?_⟩⟩
  · have hinit : initEvents s'.cfg = initEvents s.cfg := by
      rw [initEvents, initEvents, hreplay, hreset, hlevel]
    rw [← hinit]
    exact exec_done_trace h' rfl hp'
  · rw [← hreplay]
    exact exec_done_trace h' rfl hp'

/-- Settles O21. -/
theorem initTakesItsDelays : Obligations.InitTakesItsDelays := by
  intro s t h hp
  exact ⟨initEvents s.cfg, exec_done_trace h rfl hp, delayTotal_initEvents (exec_next h).1⟩

end Sys2Proof
end

/-! ## The whole machine: the invariant, and what no step changes or reads (10_state.md R20 to R30) -/

section

namespace Sys2Proof.Machine

/-! ### The invariant -/

/-- R22, R28: the invariant where no fault is recorded: nothing of the trace has failed. -/
theorem State.Inv.of_no_fault {s : State} (hf : s.fault = none) (hp : s.phase ≠ .failed)
    (hi : s.faultInfo = none) (hok : OkList s.trace)
    (hframe : ∀ mode bs r, Event.tx mode bs r ∈ s.trace → bs ≠ [] ∧ (mode = .command → bs.length = 1))
    (hmem : Memory.wf s.scratch) (hrange : ∀ c ∈ s.scratch, c.1 < s.cfg.scratchBytes)
    (hform : s.panel.Form)
    (hpins : s.phase = .ready →
      s.pins.reset = some .high ∧ s.pins.backlight = some s.cfg.blOnLevel) : s.Inv where
  faultIffFailed := by simp [hf, hp]
  infoIffFault := by rw [hf, hi]; rfl
  failedNoRet h := absurd h hp
  errorIsLast h := by rw [hf] at h; cases h
  errorOnlyLast ev hev := hok ev (List.mem_of_mem_dropLast hev)
  errorMeansFault := by
    rintro ⟨ev, hev, herr⟩
    rw [hok ev hev] at herr; cases herr
  framing := hframe
  scratchCanonical := hmem
  scratchInRange := hrange
  gramCanonical := hform.gram
  paramShort := hform.param
  readyPins := hpins

theorem State.Inv.faultInfo_none {s : State} (h : s.Inv) (hp : s.phase ≠ .failed) :
    s.faultInfo = none := by
  have hinfo := h.infoIffFault
  rw [h.fault_none hp] at hinfo
  exact Option.not_isSome_iff_eq_none.1 (by simp [hinfo])

/-- R31, R290: block reset meets the invariant, whatever the block held before. -/
theorem State.blockReset_inv {s : State} (hform : s.panel.Form) (c : Config) : (s.blockReset c).Inv :=
  .of_no_fault rfl (by simp) rfl (by simp [OkList]) (by simp) List.Pairwise.nil (by simp) hform (by simp)

/-- R265: raising NotReady in UNINIT keeps the invariant. -/
theorem State.Inv.notReady {s : State} (h : s.Inv) (hp : s.phase = .uninit) (sel : Byte) :
    (s.raise .notReady (.selector sel)).Inv := by
  have hnf : s.phase ≠ .failed := by rw [hp]; decide
  have hf := h.fault_none hnf
  have hfault := s.raise_fault_of_none .notReady (.selector sel) hf
  exact {
    faultIffFailed := by simp [hfault]
    infoIffFault := by rw [hfault, s.raise_faultInfo_of_none _ _ hf]; rfl
    failedNoRet := fun _ => rfl
    errorIsLast := fun he => by rw [hfault] at he; cases he
    errorOnlyLast := h.errorOnlyLast
    errorMeansFault := by
      rintro ⟨ev, hev, herr⟩
      rw [h.no_err hnf ev hev] at herr; cases herr
    framing := h.framing
    scratchCanonical := h.scratchCanonical
    scratchInRange := h.scratchInRange
    gramCanonical := h.gramCanonical
    paramShort := h.paramShort
    readyPins := fun hr => by cases hr }

/-- R264: a failing transaction, framed as R91 and R92 say, keeps the invariant outside FAILED. -/
theorem State.Inv.failTx {s : State} (h : s.Inv) (hp : s.phase ≠ .failed) {mode : Mode}
    {bs : List Byte} (hframe : bs ≠ [] ∧ (mode = .command → bs.length = 1)) (d : Nat) :
    (s.failTx mode bs d).Inv := by
  have hf := h.fault_none hp
  have hfault := failTx_fault s mode bs d hf
  have hinfo := failTx_faultInfo s mode bs d hf
  have hform := h.form.receiveFailed s.cfg mode bs d
  exact {
    faultIffFailed := by simp [hfault]
    infoIffFault := by rw [hfault, hinfo]; rfl
    failedNoRet := fun _ => rfl
    errorIsLast := fun _ => ⟨s.trace, mode, bs, rfl, hinfo⟩
    errorOnlyLast := fun ev hev => by
      rw [failTx_trace, List.dropLast_concat] at hev
      exact h.no_err hp ev hev
    errorMeansFault := fun _ => hfault
    framing := fun mode' bs' r hm => by
      rw [failTx_trace, List.mem_append, List.mem_singleton] at hm
      rcases hm with hm | hm
      · exact h.framing mode' bs' r hm
      · cases hm; exact hframe
    scratchCanonical := h.scratchCanonical
    scratchInRange := h.scratchInRange
    gramCanonical := hform.gram
    paramShort := hform.param
    readyPins := fun hr => by cases hr }

/-- Acts that all had their effect keep the invariant, if the pins they leave are those of READY where it asks for
them. -/
theorem State.Inv.applyAll {s : State} (h : s.Inv) (hp : s.phase ≠ .failed) {l : List Act}
    (hclean : CleanList (eventsOf l))
    (hstage : ∀ n c, Act.stage n c ∈ l → 2 * n ≤ s.cfg.scratchBytes)
    (hpins : s.phase = .ready → (s.applyAll l).pins.reset = some .high ∧
      (s.applyAll l).pins.backlight = some s.cfg.blOnLevel) : (s.applyAll l).Inv := by
  obtain ⟨hphase, hfault, hinfo, -, -⟩ := applyAll_flags s l
  obtain ⟨hmem, hrange⟩ := applyAll_memory s l h.scratchCanonical h.scratchInRange hstage
  have htrace := applyAll_trace s l hclean.ok
  refine .of_no_fault (hfault.trans (h.fault_none hp)) (by rwa [hphase])
    (hinfo.trans (h.faultInfo_none hp)) ?_ ?_ hmem (by rwa [applyAll_cfg]) (applyAll_form s l h.form)
    (by rwa [hphase, applyAll_cfg])
  · rw [htrace]
    exact OkList.append (h.no_err hp) hclean.ok
  · intro mode bs r hm
    rw [htrace] at hm
    exact (List.mem_append.1 hm).elim (h.framing mode bs r) (hclean.framing mode bs r)

/-- R140, R141: concluding keeps the invariant; INIT concludes with the pins of READY. -/
theorem State.Inv.conclude {t : State} (h : t.Inv) (hp : t.phase ≠ .failed) (i : Instr)
    (hpins : i = .init → t.pins = { reset := some .high, backlight := some t.cfg.blOnLevel }) :
    (conclude i t).Inv := by
  obtain ⟨hcfg, hfault, hinfo, hscratch, hpin, htrace, hpanel, -⟩ := conclude_keeps i t
  refine .of_no_fault (hfault.trans (h.fault_none hp)) ?_ (hinfo.trans (h.faultInfo_none hp))
    (htrace ▸ h.no_err hp) (htrace ▸ h.framing) (hscratch ▸ h.scratchCanonical)
    (by rw [hscratch, hcfg]; exact h.scratchInRange) (hpanel ▸ h.form) ?_
  · by_cases hi : i = .init
    · subst hi; simp [Machine.conclude]
    · rwa [conclude_phase hi]
  · intro hr
    rw [hpin, hcfg]
    by_cases hi : i = .init
    · rw [hpins hi]; exact ⟨rfl, rfl⟩
    · rw [conclude_phase hi] at hr; exact h.readyPins hr

/-- Every instruction keeps the invariant. -/
theorem exec_keeps_inv {i : Instr} {s t : State} (h : s.Inv) (hexec : exec i s = .next t) : t.Inv := by
  obtain ⟨hwf, hr⟩ := exec_next hexec
  cases hr with
  | wire hi ht =>
    obtain ⟨op, data, hw⟩ := wireResult_eq hi s
    rw [ht, hw]
    exact h.setPanel ((h.form.receive _ _ _).receive _ _ _)
  | notReady _ hp ht => rw [ht]; exact h.notReady hp _
  | done ha ht =>
    have hclean : CleanList (eventsOf (script s.cfg i)) := by
      rw [eventsOf_script]; exact script_clean ha
    have hinit : i = .init → (s.applyAll (script s.cfg i)).pins =
        { reset := some .high, backlight := some s.cfg.blOnLevel } := by
      rintro rfl; exact applyAll_init_pins s
    have hend : (s.applyAll (script s.cfg i)).Inv := by
      refine h.applyAll ha.2.1 hclean (fun n c hm => staged_le hwf (script_stages hm)) fun hp => ?_
      by_cases hi : i = .init
      · rw [hinit hi]; exact ⟨rfl, rfl⟩
      · rw [applyAll_pins s _ (by rw [eventsOf_script]; exact script_pinFree hi _)]
        exact h.readyPins hp
    rw [ht]
    exact hend.conclude (by rw [(applyAll_flags s _).1]; exact ha.2.1) i (by rwa [applyAll_cfg])
  | failed ha before mode bs r rest d hl ht =>
    obtain ⟨-, hclean, hev, hstage⟩ := script_before ha hl
    have hfront : (s.applyAll before).Inv := by
      refine h.applyAll ha.2.1 hclean (fun n c hm => staged_le hwf (hstage n c hm)) fun hp => ?_
      obtain ⟨hsame, hpulse⟩ := before_pins hl
      by_cases hi : i = .init
      · rw [hpulse hi]; exact ⟨rfl, (h.readyPins hp).2⟩
      · rw [hsame hi]; exact h.readyPins hp
    have hframe : bs ≠ [] ∧ (mode = .command → bs.length = 1) :=
      CleanList.framing (evs := [.tx mode bs r]) (by simpa [CleanList] using hev) mode bs r (by simp)
    rw [ht]
    exact hfront.failTx (by rw [(applyAll_flags s _).1]; exact ha.2.1) hframe d

/-! ### Hidden parts of the state: the trace and scratch (R23, R28) -/

/-- R28: two runs from the traces `a` and `b` that have appended the same events and agree in all else. -/
def SameAppended (a b : List Event) (s s' : State) : Prop :=
  ∃ evs, s.trace = a ++ evs ∧ s' = { s with trace := b ++ evs }

/-- R260: the answers to transactions do not come from the trace. -/
theorem SameAppended.transmit {a b : List Event} {s s' : State} (h : SameAppended a b s s')
    (mode : Mode) (bs : List Byte) (info : FaultInfo) :
    RunRel (SameAppended a b) (transmit mode bs info s) (transmit mode bs info s') := by
  obtain ⟨evs, hs, rfl⟩ := h
  refine transmit_rel mode bs info (State.answer_congr rfl rfl 0)
    ⟨evs ++ [.tx mode bs .ok], ?_, ?_⟩ fun d => ⟨evs ++ [.tx mode bs .err], ?_, ?_⟩
  · simp [hs]
  · simp [State.setPanel, State.emit, State.useAnswer]
  · simp [hs]
  · simp [State.setPanel, State.emit, State.useAnswer, State.raise]

/-- R28: every act appends the same event to both. -/
theorem SameAppended.act {a b : List Event} {s s' : State} (h : SameAppended a b s s') (x : Act) :
    RunRel (SameAppended a b) (x.run s) (x.run s') := by
  match x with
  | .event (.tx mode bs _) => exact h.transmit mode bs (infoOf mode bs)
  | .event (.pin pin level) =>
    obtain ⟨evs, hs, rfl⟩ := h
    exact ⟨evs ++ [.pin pin level], by simp [hs],
      by simp [State.setPin, State.setPanel, State.setPins, State.emit]⟩
  | .event (.delay n) =>
    obtain ⟨evs, hs, rfl⟩ := h
    exact ⟨evs ++ [.delay n], by simp [hs], by simp [State.delayMs, State.emit]⟩
  | .stage _ _ =>
    obtain ⟨evs, hs, rfl⟩ := h
    exact ⟨evs, hs, rfl⟩

/-- R28: nothing an instruction does reads the trace. -/
theorem sameAppended_simulation (a b : List Event) : Simulation (SameAppended a b) where
  cfg := by rintro s _ ⟨evs, -, rfl⟩; rfl
  phase := by rintro s _ ⟨evs, -, rfl⟩; rfl
  act x h := h.act x
  notReady sel := by rintro ⟨evs, hs, rfl⟩; exact ⟨evs, hs, rfl⟩
  ready := by rintro s _ ⟨evs, hs, rfl⟩; exact ⟨evs, hs, rfl⟩
  ret v := by rintro ⟨evs, hs, rfl⟩; exact ⟨evs, hs, rfl⟩
  wire op data := by rintro ⟨evs, hs, rfl⟩; exact ⟨evs, hs, rfl⟩

/-- R23: the second state is the first but for scratch. -/
def DiffersInScratch (s s' : State) : Prop := ∃ m, s' = s.setScratch m

/-- R23: everything an instruction does keeps two states different in scratch alone. Its script names the bytes of
each transaction, those of a staging among them, so none is read from scratch. -/
theorem differsInScratch_simulation : Simulation DiffersInScratch where
  cfg := by rintro s _ ⟨m, rfl⟩; rfl
  phase := by rintro s _ ⟨m, rfl⟩; rfl
  act x := by
    rintro ⟨m, rfl⟩
    match x with
    | .event (.tx mode bs _) =>
      exact transmit_rel mode bs _ (State.answer_congr rfl rfl 0) ⟨m, rfl⟩ fun _ => ⟨m, rfl⟩
    | .event (.pin _ _) => exact ⟨m, rfl⟩
    | .event (.delay _) => exact ⟨m, rfl⟩
    | .stage _ _ => exact ⟨_, rfl⟩
  notReady sel := by rintro ⟨m, rfl⟩; exact ⟨m, rfl⟩
  ready := by rintro s _ ⟨m, rfl⟩; exact ⟨m, rfl⟩
  ret v := by rintro ⟨m, rfl⟩; exact ⟨m, rfl⟩
  wire op data := by rintro ⟨m, rfl⟩; exact ⟨m, rfl⟩

theorem DiffersInScratch.hide_eq (s s' : State) (h : DiffersInScratch s s') :
    s.setScratch [] = s'.setScratch [] := by
  obtain ⟨m, rfl⟩ := h
  rfl

/-! ### What an instruction leaves unchanged -/

/-- R20 to R28: the fields that no instruction but INIT's pins changes, and what it appends. -/
theorem exec_frame {i : Instr} {s t : State} (h : exec i s = .next t) :
    t.inbox = s.inbox ∧ t.epoch = s.epoch ∧
    (∃ evs, t.trace = s.trace ++ evs ∧ t.answers = s.answers.drop (txs evs) ∧
      t.txCount = s.txCount + txs evs) ∧
    (i ≠ .init → t.pins = s.pins) ∧
    (∀ off, ¬ storesTo s.cfg i off → Store.read t.scratch off = Store.read s.scratch off) := by
  have hbeyond : ∀ {l : List Act} {off : Nat}, (∀ n c, Act.stage n c ∈ l → n ∈ stagedPixels s.cfg i) →
      ¬ storesTo s.cfg i off → ∀ n c, Act.stage n c ∈ l → 2 * n ≤ off :=
    fun hl hoff n c hm => Nat.le_of_not_lt fun hlt => hoff ⟨n, hl n c hm, hlt⟩
  obtain ⟨-, hr⟩ := exec_next h
  cases hr with
  | wire hi ht =>
    obtain ⟨op, data, hw⟩ := wireResult_eq hi s
    rw [ht, hw]
    exact ⟨rfl, rfl, ⟨[], (List.append_nil _).symm, rfl, rfl⟩, fun _ => rfl, fun _ _ => rfl⟩
  | notReady _ _ ht =>
    rw [ht]
    exact ⟨rfl, rfl, ⟨[], (List.append_nil _).symm, rfl, rfl⟩, fun _ => rfl, fun _ _ => rfl⟩
  | done ha ht =>
    obtain ⟨-, -, -, hscratch, hpins, -, -, hinbox, hanswers, hcount, hepoch⟩ :=
      conclude_keeps i (s.applyAll (script s.cfg i))
    obtain ⟨-, -, -, hinbox', hepoch'⟩ := applyAll_flags s (script s.cfg i)
    obtain ⟨hanswers', hcount'⟩ := applyAll_answers s (script s.cfg i)
    rw [eventsOf_script] at hanswers' hcount'
    rw [ht]
    refine ⟨hinbox.trans hinbox', hepoch.trans hepoch', ⟨_, done_trace ha, hanswers.trans hanswers',
      hcount.trans hcount'⟩, fun hi => ?_, fun off hoff => ?_⟩
    · rw [hpins, applyAll_pins s _ (by rw [eventsOf_script]; exact script_pinFree hi _)]
    · rw [hscratch, applyAll_scratch s _ (hbeyond (fun n c hm => script_stages hm) hoff)]
  | failed ha before mode bs r rest d hl ht =>
    obtain ⟨-, hclean, -, hstage⟩ := script_before ha hl
    obtain ⟨-, -, -, hinbox, hepoch⟩ := applyAll_flags s before
    obtain ⟨hanswers, hcount⟩ := applyAll_answers s before
    rw [ht]
    refine ⟨hinbox, hepoch, ⟨eventsOf before ++ [.tx mode bs .err], ?_, ?_, ?_⟩, fun hi => ?_,
      fun off hoff => ?_⟩
    · rw [failTx_trace, applyAll_trace s before hclean.ok, List.append_assoc]
    · rw [failTx_answers, hanswers, txs_append, txs_cons_tx, txs_nil, ← List.drop_one, List.drop_drop]
    · rw [failTx_txCount, hcount, txs_append, txs_cons_tx, txs_nil]; omega
    · exact (before_pins hl).1 hi
    · exact applyAll_scratch s before (hbeyond hstage hoff)

/-- R27: a micro-operation sets nothing at its end (log 17). -/
theorem conclude_micro {i : Instr} (h : portOf i = .micro) (t : State) : conclude i t = t := by
  cases i with
  | sendCommand op => rfl
  | sendParameters bs => rfl
  | selectWindow x0 y0 x1 y1 => rfl
  | runInitSequence => rfl
  | _ => cases h

/-- R21, R22, R27: what an instruction that raises no fault leaves of the flags; a micro-operation leaves the phase
and the result too. -/
theorem exec_flags {i : Instr} {s t : State} (h : exec i s = .next t) (hp : t.phase ≠ .failed) :
    t.fault = s.fault ∧ t.faultInfo = s.faultInfo ∧
      (portOf i = .micro → t.ret = s.ret ∧ t.phase = s.phase) := by
  cases hi : isWire i with
  | true =>
    have ht := exec_wire hi (exec_next h).1
    obtain ⟨op, data, hw⟩ := wireResult_eq hi s
    rw [h, hw] at ht
    cases ht
    exact ⟨rfl, rfl, fun _ => ⟨rfl, rfl⟩⟩
  | false =>
    obtain ⟨-, ht⟩ := exec_done h hi hp
    obtain ⟨-, hfault, hinfo, -⟩ := conclude_keeps i (s.applyAll (script s.cfg i))
    obtain ⟨hphase', hfault', hinfo', -, -⟩ := applyAll_flags s (script s.cfg i)
    rw [ht]
    refine ⟨hfault.trans hfault', hinfo.trans hinfo', fun hport => ?_⟩
    rw [conclude_micro hport]
    exact ⟨applyAll_ret s _, hphase'⟩

/-- R232: an instruction of the block that appends nothing leaves the receiver alone. -/
theorem exec_panel_of_no_event {i : Instr} {s t : State} (h : exec i s = .next t)
    (hi : isWire i = false) (htrace : t.trace = s.trace) : t.panel = s.panel := by
  obtain ⟨-, hr⟩ := exec_next h
  cases hr with
  | wire hw _ => rw [hi] at hw; cases hw
  | notReady _ _ ht => rw [ht]; rfl
  | done ha ht =>
    rw [ht, done_trace ha] at htrace
    have hnone : eventsOf (script s.cfg i) = [] := by
      rw [eventsOf_script]; exact List.append_right_eq_self.1 htrace
    rw [ht, conclude_panel, applyAll_panel_of_no_event s _ hnone]
  | failed ha before mode bs r rest d hl ht =>
    rw [ht, failTx_trace, applyAll_trace s before (script_before ha hl).2.1.ok, List.append_assoc] at htrace
    exact absurd (List.append_right_eq_self.1 htrace) (by simp)

/-- R21: the only ways an instruction changes the phase. -/
theorem exec_phase {i : Instr} {s t : State} (h : exec i s = .next t) :
    t.phase = s.phase ∨ (t.phase = .ready ∧ i = .init) ∨
      (t.phase = .failed ∧ t.fault ≠ none ∧ s.phase ≠ .failed) := by
  obtain ⟨-, hr⟩ := exec_next h
  cases hr with
  | wire hi ht =>
    obtain ⟨op, data, hw⟩ := wireResult_eq hi s
    rw [ht, hw]; exact .inl rfl
  | notReady _ hp ht =>
    rw [ht]
    exact .inr (.inr ⟨rfl, Option.isSome_iff_ne_none.1 (s.raise_fault_isSome _ _), by rw [hp]; decide⟩)
  | done ha ht =>
    rw [ht]
    by_cases hi : i = .init
    · subst hi; exact .inr (.inl ⟨rfl, rfl⟩)
    · exact .inl ((conclude_phase hi _).trans (applyAll_flags s _).1)
  | failed ha _ _ _ _ _ _ _ ht =>
    rw [ht]
    exact .inr (.inr ⟨rfl, Option.isSome_iff_ne_none.1 (failTx_fault_isSome _ _ _ _), ha.2.1⟩)

end Sys2Proof.Machine

namespace Sys2Proof

open Machine

/-- Settles O50: `exec_frame`, `exec_flags` and `exec_panel_of_no_event` say it part by part. -/
theorem execFrame : Obligations.ExecFrame := by
  intro i s t h
  obtain ⟨hinbox, hepoch, hevents, hpins, hscratch⟩ := exec_frame h
  refine ⟨exec_cfg h, hinbox, hepoch, hevents, hpins, hscratch, fun hp => ?_, fun hp => ?_, fun hi => ?_,
    exec_panel_of_no_event h⟩
  · obtain ⟨hfault, hinfo, -⟩ := exec_flags h hp
    exact ⟨hfault, hinfo⟩
  · obtain ⟨-, -, hmicro⟩ := exec_flags h hp
    exact hmicro
  · have ht := exec_wire hi (exec_next h).1
    obtain ⟨op, data, hw⟩ := wireResult_eq hi s
    rw [h, hw] at ht
    cases ht
    rfl

/-- Settles O51: waiting changes nothing, block reset establishes the invariant, the receiver keeps its form, and
every instruction keeps the invariant. -/
theorem stepKeepsTheInvariant : Obligations.StepKeepsTheInvariant := by
  intro s t h hstep
  obtain ⟨-, hst⟩ := step_next hstep
  cases hst with
  | waited _ ht => rw [ht]; exact h
  | reset before c rest _ _ ht => rw [ht]; exact State.blockReset_inv (h.setInbox rest).form c
  | ran f rest i _ _ ht => exact exec_keeps_inv (h.setInbox rest) ht
  | other f rest op data _ ht =>
    rw [ht]
    exact (h.setInbox rest).setPanel ((h.form.receive _ _ _).receive _ _ _)

/-- Settles O52: at reset no fault is recorded and the receiver has its power-on form. -/
theorem resetMeetsTheInvariant : Obligations.ResetMeetsTheInvariant :=
  .of_no_fault rfl (by decide) rfl (by simp [OkList, State.reset]) (by simp [State.reset])
    reset_memory_wf (by simp [State.reset]) Panel.Form.powerOn (by simp [State.reset])

/-- Settles O53: the fields of the reset state; the reference configuration passes its check by computation. -/
theorem resetState : Obligations.ResetState :=
  ⟨rfl, rfl, fun _ => rfl, rfl, rfl, rfl, rfl, rfl, rfl, rfl, rfl, rfl, rfl, rfl, rfl, fun _ _ => rfl,
    by decide, rfl, rfl, rfl, rfl, rfl, rfl, rfl⟩

/-- Settles O54: having appended the same events is a simulation; the events are those of `exec_appends`, of which
none is an empty transaction. -/
theorem traceIsAppendOnlyAndUnread : Obligations.TraceIsAppendOnlyAndUnread := by
  refine ⟨rfl, fun i s tr => ⟨fun t h => ?_, ?_⟩⟩
  · have hsim := (sameAppended_simulation s.trace tr).exec_sim i (s := s) (s' := { s with trace := tr })
      ⟨[], by simp, by simp⟩
    rw [h] at hsim
    cases h' : exec i { s with trace := tr } with
    | fault _ => rw [h'] at hsim; exact hsim.elim
    | refused _ => rw [h'] at hsim; exact hsim.elim
    | next t' =>
      rw [h'] at hsim
      obtain ⟨evs, ht, rfl⟩ := hsim
      refine ⟨evs, ht, fun mode bs r hm => ?_, rfl⟩
      obtain ⟨evs', ht', hkind⟩ := exec_appends h
      obtain rfl : evs = evs' := List.append_cancel_left (ht.symm.trans ht')
      rcases hkind with ⟨rfl, -⟩ | ⟨ha, hup⟩
      · cases hm
      · rcases hup.dcFramed (script_clean ha) hm with ⟨-, op, rfl⟩ | ⟨-, hbs⟩
        · simp
        · exact hbs
  · exact exec_stops_congr rfl rfl

/-- Settles O56. -/
theorem phaseChangesOnlyAsSpecified : Obligations.PhaseChangesOnlyAsSpecified := by
  intro s t h
  obtain ⟨-, hst⟩ := step_next h
  cases hst with
  | waited _ ht => rw [ht]; exact .inl rfl
  | reset before c rest hin hbefore ht =>
    rw [ht]; exact .inr (.inr (.inr ⟨rfl, before, c, rest, hin, hbefore⟩))
  | ran f rest i hin hd ht =>
    rcases exec_phase ht with hp | ⟨hp, rfl⟩ | hfail
    · exact .inl hp
    · exact .inr (.inl ⟨hp, f, rest, hin, hd⟩)
    · exact .inr (.inr (.inl hfail))
  | other f rest op data _ ht => rw [ht]; exact .inl rfl

/-- Settles O57: the premises leave no block reset for the step to take. -/
theorem configurationIsFixedBetweenResets : Obligations.ConfigurationIsFixedBetweenResets := by
  intro s t h hfront hbehind
  have hcfg : t.cfg = s.cfg := by
    obtain ⟨-, hst⟩ := step_next h
    cases hst with
    | waited _ ht => rw [ht]
    | reset before c rest hin hbefore _ =>
      rcases hbefore with rfl | ⟨hp, -⟩
      · exact absurd hin (hfront c rest)
      · exact absurd (by rw [hin]; simp) (hbehind hp c)
    | ran f rest i _ _ ht => exact (exec_cfg ht).trans (s.setInbox_cfg rest)
    | other f rest op data _ ht => rw [ht]; rfl
  exact ⟨hcfg, by rw [hcfg], by rw [hcfg]⟩

/-- Settles O58: differing in scratch alone is a simulation, which taking an input and block reset keep too. -/
theorem scratchIsNotObservable : Obligations.ScratchIsNotObservable := by
  intro s m
  have hstep : OutcomeRel DiffersInScratch (step s) (step (s.setScratch m)) :=
    differsInScratch_simulation.step_sim ⟨m, rfl⟩ (s.setScratch_inbox m)
      (fun _ => ⟨m, rfl⟩) (fun _ _ => ⟨[], rfl⟩)
  exact hstep.sameUpTo DiffersInScratch.hide_eq

end Sys2Proof
end

/-! ## The staging family: fills and pixels, in events, in scratch and on the glass (41_staging.md) -/

section

namespace Sys2Proof.Machine

/-- R266: an instruction that is let run and has nothing to do only concludes, whatever the transport answers. -/
theorem exec_of_no_act {i : Instr} {s : State} (ha : Admitted i s) (h : script s.cfg i = []) :
    exec i s = .next (conclude i s) := by
  rw [exec_admitted ha, h]; rfl

/-! ### Clipping (R172 to R174) -/

/-- R173, R174: a rectangle that starts off-panel or is empty is clipped away. -/
theorem clip_eq_none {cfg : Config} {x y : Int} {w h : Nat}
    (hempty : onPanel cfg x y = false ∨ w = 0 ∨ h = 0) : clip cfg x y w h = none := by
  cases hr : clip cfg x y w h with
  | none => rfl
  | some r =>
    obtain ⟨hon, -, -, hw, hh, hx, hy, hxw, hyh, ew, eh⟩ := clip_some hr
    rcases hempty with hoff | rfl | rfl
    · rw [hon] at hoff; cases hoff
    · omega
    · omega

/-- R174: the sizes of a clipped rectangle, from the operands' bit patterns. -/
theorem clip_operands {cfg : Config} {x y w h : Word16} (hon : onPanel cfg x.toInt y.toInt = true)
    (hw : w ≠ 0) (hh : h ≠ 0) : clip cfg x.toInt y.toInt w.toNat h.toNat =
      some ⟨x.toInt, y.toInt, min w.toNat (cfg.width - x.toNat), min h.toNat (cfg.height - y.toNat)⟩ := by
  have hpos : ∀ v : Word16, v ≠ 0 → 0 < v.toNat := fun v hv =>
    Nat.pos_of_ne_zero fun h0 => hv (BitVec.eq_of_toNat_eq h0)
  obtain ⟨r, hr, hrx, hry, hrw, hrh⟩ := clip_onPanel hon (hpos w hw) (hpos h hh)
  simp only [onPanel, Bool.and_eq_true, decide_eq_true_eq] at hon
  have hsign : ∀ v : Word16, 0 ≤ v.toInt → v.toInt = v.toNat := fun v hv => by
    have := v.isLt
    rw [BitVec.toInt_eq_toNat_cond] at hv ⊢
    split at hv <;> omega
  have ex := hsign x hon.1.1.1
  have ey := hsign y hon.1.2
  obtain ⟨rx, ry, rw', rh⟩ := r
  simp only at hrx hry hrw hrh
  rw [hr, hrx, hry, show rw' = min w.toNat (cfg.width - x.toNat) by omega,
    show rh = min h.toNat (cfg.height - y.toNat) by omega]

/-- R178: one pixel is the clipped rectangle of size 1 by 1. -/
theorem clip_pixel {cfg : Config} {x y : Int} (hon : onPanel cfg x y = true) :
    clip cfg x y 1 1 = some ⟨x, y, 1, 1⟩ := by
  obtain ⟨⟨rx, ry, rw', rh⟩, hr, hrx, hry, hrw, hrh⟩ := clip_onPanel (w := 1) (h := 1) hon (by omega) (by omega)
  simp only [onPanel, Bool.and_eq_true, decide_eq_true_eq] at hon
  simp only at hrx hry hrw hrh
  rw [hr, hrx, hry, show rw' = 1 by omega, show rh = 1 by omega]

/-- R178: DRAW_PIXEL plays what FILL_RECT plays of a rectangle of one pixel. -/
theorem pixelActs_eq_fillActs (cfg : Config) (x y : Int) (c : Word16) :
    pixelActs cfg x y c = fillActs cfg x y 1 1 c := by
  unfold pixelActs fillActs
  by_cases hon : onPanel cfg x y = true
  · rw [if_pos hon, clip_pixel hon]
  · rw [if_neg hon, clip_eq_none (.inl (by simpa using hon))]

/-- R137: one rectangle as the window and the stream of its pixels. -/
theorem rectEvents_eq (cfg : Config) (x y : Int) (w h : Nat) (c : Word16) : rectEvents cfg x y w h c =
    windowEvents cfg x y (x + w - 1) (y + h - 1) ++ [.tx .data (pixelBytes (w * h) c) .ok] := rfl

/-- R171, R175, R177: a drawing request whose script is one rectangle performs it, stages it and returns none. -/
theorem exec_rect {i : Instr} {s : State} {x y : Int} {w h : Nat} {c : Word16}
    (hi : isDrawing i = true) (hwf : s.cfg.wf = true) (hp : s.phase = .ready)
    (hret : ∀ t, conclude i t = t.setRet none) (hscript : script s.cfg i = rectActs s.cfg x y w h c)
    (hok : AllOk s 6) : ∃ t, exec i s = .next t ∧ Performed s t (rectEvents s.cfg x y w h c) ∧
      Staged s t (w * h) c ∧ t.ret = none := by
  have hevents : expectedEvents s.cfg i = rectEvents s.cfg x y w h c := by
    rw [← eventsOf_script, hscript, eventsOf_rectActs]
  obtain ⟨hexec, hperf⟩ := exec_performs (by rintro rfl; cases hi) (admitted_drawing hi hwf hp)
    (by rw [hevents]; exact hok)
  rw [hevents] at hperf
  rw [hret, hscript] at hexec hperf
  exact ⟨_, hexec, hperf, (rectActs_staged s s.cfg x y w h c).congr rfl, rfl⟩

/-- R175: FILL_RECT performs one clipped fill, of at most six transactions. -/
theorem exec_fillRect_performs {x y w h color : Word16} {s : State} (hwf : s.cfg.wf = true)
    (hp : s.phase = .ready) (hok : AllOk s 6) : ∃ t, exec (.fillRect x y w h color) s = .next t ∧
      Performed s t (fillEvents s.cfg x.toInt y.toInt w.toNat h.toNat color) := by
  obtain ⟨hexec, hperf⟩ := exec_performs (i := .fillRect x y w h color) (by simp)
    (admitted_drawing rfl hwf hp) (hok.mono (fill_txs _ _ _ _ _ _))
  exact ⟨_, hexec, hperf⟩

/-- R260: what is left of the transport's good answers after some events. -/
theorem AllOk.after {s t : State} {evs : List Event} {n : Nat} (h : AllOk s n)
    (hp : Performed s t evs) : AllOk t (n - txs evs) := by
  intro k hk
  have hshift : t.answer k = s.answer (txs evs + k) := by
    unfold State.answer
    rw [hp.answers, hp.txCount, List.getElem?_drop, Nat.add_assoc]
  rw [hshift]
  exact h _ (by omega)

/-- R172, R177: a rectangle of one pixel covers that pixel, if it is on the panel. -/
theorem covers_pixel_iff (cfg : Config) (x y : Int) (gx gy : Nat) :
    covers cfg x y 1 1 gx gy = true ↔ onPanel cfg x y = true ∧ (gx : Int) = x ∧ (gy : Int) = y := by
  simp only [covers, onPanel, Bool.and_eq_true, decide_eq_true_eq]
  omega

end Sys2Proof.Machine

namespace Sys2Proof

open Machine

/-- Settles O24: FILL_SCREEN is the rectangle of the whole glass. -/
theorem fillScreenCompletes : Obligations.FillScreenCompletes := by
  intro color s hwf hp hok
  have h := exec_rect (x := 0) (y := 0) (w := s.cfg.width) (h := s.cfg.height) (c := color)
    (i := .fillScreen color) rfl hwf hp (fun _ => rfl) rfl hok
  rwa [rectEvents_eq, Int.zero_add, Int.zero_add] at h

/-- Settles O25: `clip_operands` gives the sizes of the clipped rectangle. -/
theorem fillRectCompletes : Obligations.FillRectCompletes := by
  intro x y w h color s hwf hp hok hon hw hh
  have hscript : script s.cfg (.fillRect x y w h color) = rectActs s.cfg x.toInt y.toInt
      (min w.toNat (s.cfg.width - x.toNat)) (min h.toNat (s.cfg.height - y.toNat)) color := by
    rw [script, fillActs, clip_operands hon hw hh]
  exact exec_rect rfl hwf hp (fun _ => rfl) hscript hok

/-- Settles O26: a rectangle that is clipped away has no act. -/
theorem fillRectOffPanelIsNoOp : Obligations.FillRectOffPanelIsNoOp := by
  intro x y w h color s hwf hp hempty
  have hempty' : onPanel s.cfg x.toInt y.toInt = false ∨ w.toNat = 0 ∨ h.toNat = 0 := by
    rcases hempty with hoff | rfl | rfl
    · exact .inl hoff
    · exact .inr (.inl rfl)
    · exact .inr (.inr rfl)
  have hscript : script s.cfg (.fillRect x y w h color) = [] := by
    rw [script, fillActs, clip_eq_none hempty']
  exact exec_of_no_act (admitted_drawing rfl hwf hp) hscript

/-- Settles O27: on the panel DRAW_PIXEL is a rectangle of one pixel, off it there is no act. -/
theorem drawPixelCompletes : Obligations.DrawPixelCompletes := by
  intro x y color s hwf hp
  refine ⟨fun hon hok => ?_, fun hoff => ?_⟩
  · have h := exec_rect (i := .drawPixel x y color) rfl hwf hp (fun _ => rfl) (if_pos hon) hok
    have hx : x.toInt + ((1 : Nat) : Int) - 1 = x.toInt := by omega
    have hy : y.toInt + ((1 : Nat) : Int) - 1 = y.toInt := by omega
    rwa [rectEvents_eq, hx, hy] at h
  · exact exec_of_no_act (admitted_drawing rfl hwf hp) (if_neg (by simp [hoff]))

/-- Settles O28: behind the gate, the only place where the two selectors show, both play the same script. -/
theorem drawPixelIsUnitFillRect : Obligations.DrawPixelIsUnitFillRect := by
  intro x y color s
  have hbody : ∀ s : State, (drawPixelBody x.toInt y.toInt color s).andThen returnNone =
      (fillRectBody x.toInt y.toInt (1 : Word16).toNat (1 : Word16).toNat color s).andThen returnNone := by
    intro s
    rw [drawPixelBody_eq, fillRectBody_eq, pixelActs_eq_fillActs]; rfl
  show SameUpTo _ (execDrawPixel x y color s) (execFillRect x y 1 1 color s) ∧
    (_ → execDrawPixel x y color s = execFillRect x y 1 1 color s)
  unfold execDrawPixel execFillRect admitDrawing
  simp only [hbody]
  cases s.cfg.wf with
  | false => exact ⟨rfl, fun _ => rfl⟩
  | true =>
    cases hp : s.phase with
    | uninit => exact ⟨by cases hf : s.fault <;> simp [SameUpTo, State.raise, hf], fun h => absurd rfl h⟩
    | ready => exact ⟨rfl, fun _ => rfl⟩
    | failed => exact ⟨rfl, fun _ => rfl⟩

/-- Settles O29. -/
theorem clippedRectangleIsContained : Obligations.ClippedRectangleIsContained := by
  intro cfg x y w h
  cases hr : clip cfg x y w h with
  | none => exact .inl rfl
  | some r =>
    obtain ⟨-, hrx, hry, hw, hh, hx, hy, hxw, hyh, -⟩ := clip_some hr
    exact .inr ⟨r, rfl, hrx, hry, by omega, hw, by omega, by omega, hh, by omega⟩

/-! ### The glass (43_panel_receiver.md R241, R246) -/

/-- Settles O31: FILL_RECT sends one fill, and `glass_fill` is what the glass makes of it. -/
theorem fillRectShowsOnTheGlass : Obligations.FillRectShowsOnTheGlass := by
  intro x y w h color s hwf hp hm hok
  obtain ⟨t, hexec, hperf⟩ := exec_fillRect_performs (x := x) (y := y) (w := w) (h := h)
    (color := color) hwf hp hok
  exact ⟨t, hexec, glass_fill (wf_legal hwf) hm hperf⟩

/-- Settles O32: the fill of the whole glass covers every glass pixel. -/
theorem fillScreenShowsOnTheGlass : Obligations.FillScreenShowsOnTheGlass := by
  intro color s hwf hp hm hok
  have hl := wf_legal hwf
  obtain ⟨hexec, hperf⟩ := exec_performs (i := .fillScreen color) (by simp)
    (admitted_drawing rfl hwf hp) hok
  have hfill := hperf
  rw [expectedEvents, screen_eq_fillEvents hl] at hfill
  refine ⟨_, hexec, fun gx gy hgx hgy => ?_⟩
  have hcov : covers s.cfg 0 0 s.cfg.width s.cfg.height gx gy = true := by
    have := hl.width
    have := hl.height
    simp only [covers, onPanel, Bool.and_eq_true, decide_eq_true_eq]
    omega
  rw [glass_fill hl hm hfill, if_pos hcov, shown]

/-- Settles O33: DRAW_PIXEL sends the fill of one pixel, which covers that pixel alone. -/
theorem drawPixelShowsOnTheGlass : Obligations.DrawPixelShowsOnTheGlass := by
  intro x y color s hwf hp hm hok
  have hevents : expectedEvents s.cfg (.drawPixel x y color) =
      fillEvents s.cfg x.toInt y.toInt 1 1 color := pixelEvents_eq_fillEvents _ _ _ _
  obtain ⟨hexec, hperf⟩ := exec_performs (i := .drawPixel x y color) (by simp)
    (admitted_drawing rfl hwf hp) (hok.mono (by rw [hevents]; exact fill_txs _ _ _ _ _ _))
  rw [hevents] at hperf
  refine ⟨_, hexec, fun gx gy => ?_⟩
  rw [glass_fill (wf_legal hwf) hm hperf]
  exact if_congr (covers_pixel_iff _ _ _ _ _) rfl rfl

/-- Settles O34: the first fill leaves the transport's last six answers to the second, and the second covers the
same pixels. -/
theorem lastWriteWins : Obligations.LastWriteWins := by
  intro x y w h c1 c2 s hwf hp hm hok
  obtain ⟨t, hexec, hperf⟩ := exec_fillRect_performs (x := x) (y := y) (w := w) (h := h)
    (color := c1) hwf hp (hok.mono (by omega))
  have hok' : AllOk t 6 := (hok.after hperf).mono (by
    have := fill_txs s.cfg x.toInt y.toInt w.toNat h.toNat c1
    omega)
  obtain ⟨u, hexec', hperf'⟩ := exec_fillRect_performs (x := x) (y := y) (w := w) (h := h)
    (color := c2) (by rw [hperf.cfg]; exact hwf) (hperf.phase.trans hp) hok'
  have hfirst := glass_fill (wf_legal hwf) hm hperf
  have hsecond := glass_fill (by rw [hperf.cfg]; exact wf_legal hwf) (by rw [hperf.cfg]; exact hm) hperf'
  refine ⟨t, u, hexec, hexec', fun gx gy => ⟨fun hcov => ?_, fun hcov => ?_⟩⟩
  · rw [hsecond, hperf.cfg, if_pos hcov]
  · rw [hsecond, hperf.cfg, hcov, if_neg Bool.false_ne_true, hfirst, hcov, if_neg Bool.false_ne_true]

/-- Settles O35: every drawing request sends a list of clipped fills. -/
theorem drawingStreamsExactlyTheWindow : Obligations.DrawingStreamsExactlyTheWindow := by
  intro i s hi hwf hp hok
  have hl := wf_legal hwf
  obtain ⟨l, hfills⟩ := drawing_fills hl hi
  obtain ⟨hexec, hperf⟩ := exec_performs (by rintro rfl; cases hi) (admitted_drawing hi hwf hp) hok
  have hpanel := hperf.panel
  rw [hfills] at hpanel
  refine ⟨_, hexec, ?_, fun c r hknown => ?_, fun c r hout => ?_⟩
  · rw [hpanel]
    exact (fills_complete hl l s.panel).imp id fun hc => ⟨hc.rx, hc.half, hc.left⟩
  · rw [Panel.cell, hpanel]
    exact fills_known hl l s.panel hknown
  · rw [Panel.cell, hpanel]
    refine fills_unreached hl l s.panel fun f _ => ?_
    by_contra hc
    exact hout (coversCell_inside (Bool.eq_true_of_not_eq_false hc))

end Sys2Proof
end

/-! ## The glyph family: characters and strings (42_glyph.md) -/

section

namespace Sys2Proof.Machine

/-! ### One character (R200 to R205) -/

/-- R201: a rejected glyph is no act. -/
theorem charActs_of_reject {cfg : Config} {x y : Int} {size : Nat}
    (h : rejectGlyph cfg x y size = true) (ch : Byte) (fg bg : Word16) :
    charActs cfg x y ch fg bg size = [] := if_pos h

/-- R24, R201: when the bounding box of a glyph is off the panel. -/
theorem rejectGlyph_iff {cfg : Config} (hwf : cfg.wf = true) (x y : Int) (size : Nat) :
    rejectGlyph cfg x y size = true ↔ x ≥ cfg.width ∨ y ≥ cfg.height ∨ x + 5 * size - 1 < 0 ∨
      y + 8 * size - 1 < 0 := by
  have hf := wf_fixed hwf
  simp only [rejectGlyph, hf.glyphW, hf.glyphH, Bool.or_eq_true, decide_eq_true_eq, or_assoc,
    Nat.cast_ofNat]

/-- R137, R175: a fill that starts on the panel and is not empty is six transactions. -/
theorem fill_txs_onPanel {cfg : Config} {x y : Int} {w h : Nat} (hon : onPanel cfg x y = true)
    (hw : 0 < w) (hh : 0 < h) (c : Word16) : txs (fillEvents cfg x y w h c) = 6 := by
  obtain ⟨r, hr, -⟩ := clip_onPanel hon hw hh
  rw [fillEvents, hr]; rfl

/-- R204: a list of fills that all start on the panel is six transactions each. -/
theorem fills_txs {cfg : Config} {l : List Fill}
    (h : ∀ f ∈ l, onPanel cfg f.x f.y = true ∧ 0 < f.w ∧ 0 < f.h) :
    txs (fillsEvents cfg l) = 6 * l.length := by
  induction l with
  | nil => rfl
  | cons f l ih =>
    obtain ⟨hon, hw, hh⟩ := h f List.mem_cons_self
    have htail : txs (fillsEvents cfg l) = 6 * l.length := ih fun g hg => h g (List.mem_cons_of_mem _ hg)
    rw [fillsEvents, List.flatMap_cons, txs_append, fill_txs_onPanel hon hw hh, List.length_cons]
    rw [fillsEvents] at htail
    omega

/-- R203: the fills of a glyph that is not rejected. -/
theorem mem_charFills {cfg : Config} {x y : Int} {ch : Byte} {fg bg : Word16} {size : Nat} {f : Fill} :
    f ∈ charFills cfg x y ch fg bg size ↔ rejectGlyph cfg x y size = false ∧
      ∃ c ∈ paintCalls cfg ch fg bg,
        f = ⟨x + c.1.1 * size, y + c.1.2 * size, size, size, c.2⟩ := by
  unfold charFills
  cases hr : rejectGlyph cfg x y size with
  | true => simp
  | false => simp [eq_comm]

/-- R203: the block of cell `i` of `k` cells ends inside their `k` blocks. -/
theorem block_within {i k : Nat} (size : Nat) (h : i < k) : i * size + size ≤ k * size := by
  rw [← Nat.succ_mul]
  exact Nat.mul_le_mul_right size h

/-- R204: a glyph wholly on the panel is six transactions for each paint call. -/
theorem charEvents_txs {cfg : Config} (hwf : cfg.wf = true) {x y : Int} {size : Nat} (hx : 0 ≤ x)
    (hy : 0 ≤ y) (hxw : x + 5 * size ≤ cfg.width) (hyh : y + 8 * size ≤ cfg.height) (hs : 0 < size)
    (ch : Byte) (fg bg : Word16) :
    txs (charEvents cfg x y ch fg bg size) = 6 * (paintCalls cfg ch fg bg).length := by
  have hr : rejectGlyph cfg x y size = false := by
    rw [← Bool.not_eq_true, rejectGlyph_iff hwf]; omega
  have hlen : (charFills cfg x y ch fg bg size).length = (paintCalls cfg ch fg bg).length := by
    rw [charFills, if_neg (by simp [hr]), List.length_map]
  rw [charEvents_eq_fills, fills_txs, hlen]
  intro f hf
  obtain ⟨-, ⟨⟨i, j⟩, color⟩, hc, rfl⟩ := mem_charFills.1 hf
  obtain ⟨hi, hj⟩ := (mem_glyphCells hwf i j).1 (paintCalls_mem.1 hc).1
  refine ⟨?_, hs, hs⟩
  have hi' := block_within size hi
  have hj' := block_within size hj
  simp only [onPanel, Bool.and_eq_true, decide_eq_true_eq, ← Int.natCast_mul]
  omega

/-- R203, R241: the cell of a glyph that covers a glass pixel is its fill's, if it is painted. -/
theorem fill_coversCell (cfg : Config) (x y : Int) (i j size gx gy : Nat) (color : Word16) :
    (Fill.mk (x + i * size) (y + j * size) size size color).coversCell cfg (gx + cfg.offsetX)
      (gy + cfg.offsetY) = covers cfg (x + i * size) (y + j * size) size size gx gy :=
  coversCell_glass _ _ _ _ _ _ _

/-- R201, R203: a glyph with a cell on the panel is not rejected. -/
theorem not_rejected_of_covers {cfg : Config} (hwf : cfg.wf = true) {x y : Int} {i j size gx gy : Nat}
    (hi : i < 5) (hj : j < 8)
    (hc : covers cfg (x + i * size) (y + j * size) size size gx gy = true) :
    rejectGlyph cfg x y size = false := by
  rw [← Bool.not_eq_true, rejectGlyph_iff hwf]
  simp only [covers, onPanel, Bool.and_eq_true, decide_eq_true_eq, ← Int.natCast_mul] at hc
  have hi' := block_within size hi
  have hj' := block_within size hj
  omega

/-- R241, R246: a glass pixel that no fill reaches shows what it showed before. -/
theorem glass_fills_unreached {s t : State} (hl : LegalConfig s.cfg) (hm : s.cfg.panelModeOk = true)
    {l : List Fill} (hp : Performed s t (fillsEvents s.cfg l)) {gx gy : Nat}
    (h : ∀ f ∈ l, f.coversCell s.cfg (gx + s.cfg.offsetX) (gy + s.cfg.offsetY) = false) :
    glass t gx gy = glass s gx gy := by
  rw [glass_eq (by rw [hp.cfg]; exact hl) (by rw [hp.cfg]; exact hm), glass_eq hl hm, hp.cfg, hp.panel,
    fills_unreached hl l s.panel h]

/-- R179, R241: a glass pixel that some fills reach shows their colour, if they have one. -/
theorem glass_fills_reached {s t : State} (hl : LegalConfig s.cfg) (hm : s.cfg.panelModeOk = true)
    {l : List Fill} (hp : Performed s t (fillsEvents s.cfg l)) {gx gy : Nat} {color : Word16}
    (hon : onPanel s.cfg gx gy = true)
    (h : ∃ f ∈ l, f.coversCell s.cfg (gx + s.cfg.offsetX) (gy + s.cfg.offsetY) = true)
    (hcol : ∀ f ∈ l, f.coversCell s.cfg (gx + s.cfg.offsetX) (gy + s.cfg.offsetY) = true →
      f.color = color) : glass t gx gy = some (shown color) := by
  rw [glass_eq (by rw [hp.cfg]; exact hl) (by rw [hp.cfg]; exact hm), hp.cfg, hp.panel, if_pos hon,
    fills_reached hl l s.panel h hcol]

/-- R203: the colour a glyph's cell is painted in, if it is. -/
def paintedIn (cfg : Config) (ch : Byte) (fg bg : Word16) (i j : Nat) : Option Word16 :=
  if glyphBit (glyphOf cfg ch) i j then some fg else if fg = bg then none else some bg

theorem mem_paintCalls {cfg : Config} (hwf : cfg.wf = true) {ch : Byte} {fg bg color : Word16}
    {i j : Nat} : ((i, j), color) ∈ paintCalls cfg ch fg bg ↔
      (i < 5 ∧ j < 8) ∧ paintedIn cfg ch fg bg i j = some color := by
  rw [paintCalls_mem, mem_glyphCells hwf, paintedIn]
  refine and_congr_right fun _ => ?_
  cases glyphBit (glyphOf cfg ch) i j with
  | true => simp [eq_comm]
  | false => by_cases h : fg = bg <;> simp [h, eq_comm]

/-- R203, R241, R246: what a glass pixel under one cell of a glyph shows after DRAW_CHAR's events. -/
theorem glass_char_cell {s t : State} (hwf : s.cfg.wf = true) (hm : s.cfg.panelModeOk = true)
    {x y : Int} {ch : Byte} {fg bg : Word16} {size : Nat}
    (hp : Performed s t (charEvents s.cfg x y ch fg bg size)) {i j gx gy : Nat} (hi : i < 5) (hj : j < 8)
    (hc : covers s.cfg (x + i * size) (y + j * size) size size gx gy = true) :
    glass t gx gy = match paintedIn s.cfg ch fg bg i j with
      | some color => some (shown color)
      | none => glass s gx gy := by
  have hl := wf_legal hwf
  rw [charEvents_eq_fills] at hp
  have honly : ∀ f ∈ charFills s.cfg x y ch fg bg size,
      f.coversCell s.cfg (gx + s.cfg.offsetX) (gy + s.cfg.offsetY) = true →
      paintedIn s.cfg ch fg bg i j = some f.color := by
    intro f hf hcov
    obtain ⟨-, ⟨⟨i', j'⟩, color⟩, hcall, rfl⟩ := mem_charFills.1 hf
    rw [fill_coversCell] at hcov
    obtain ⟨rfl, rfl⟩ := cell_unique hc hcov
    exact ((mem_paintCalls hwf).1 hcall).2
  cases hpaint : paintedIn s.cfg ch fg bg i j with
  | some color =>
    refine glass_fills_reached hl hm hp (covers_onPanel hc) ⟨_, mem_charFills.2
      ⟨not_rejected_of_covers hwf hi hj hc, _, (mem_paintCalls hwf).2 ⟨⟨hi, hj⟩, hpaint⟩, rfl⟩,
        (fill_coversCell ..).trans hc⟩ fun f hf hcov => ?_
    exact (Option.some.inj (hpaint.symm.trans (honly f hf hcov))).symm
  | none =>
    refine glass_fills_unreached hl hm hp fun f hf => ?_
    by_contra hcov
    rw [honly f hf (Bool.eq_true_of_not_eq_false hcov)] at hpaint
    cases hpaint

/-- R203: a glass pixel under no cell of the glyph shows what it showed before. -/
theorem glass_char_outside {s t : State} (hwf : s.cfg.wf = true) (hm : s.cfg.panelModeOk = true)
    {x y : Int} {ch : Byte} {fg bg : Word16} {size : Nat}
    (hp : Performed s t (charEvents s.cfg x y ch fg bg size)) {gx gy : Nat}
    (hc : ∀ i j : Nat, i < 5 → j < 8 →
      covers s.cfg (x + i * size) (y + j * size) size size gx gy = false) :
    glass t gx gy = glass s gx gy := by
  rw [charEvents_eq_fills] at hp
  refine glass_fills_unreached (wf_legal hwf) hm hp fun f hf => ?_
  obtain ⟨-, ⟨⟨i, j⟩, color⟩, hcall, rfl⟩ := mem_charFills.1 hf
  obtain ⟨⟨hi, hj⟩, -⟩ := (mem_paintCalls hwf).1 hcall
  exact (fill_coversCell ..).trans (hc i j hi hj)

/-! ### Strings (R206 to R208) -/

/-- R205: a string of size 0 is no act. -/
theorem stringActs_zero (cfg : Config) (col row : Nat) (text : List Byte) (fg bg : Word16) :
    stringActs cfg col row text fg bg 0 = [] :=
  List.flatMap_eq_nil_iff.2 fun _ _ => size_zero_acts _ _ _ _ _ _

/-- R207: the return value of a DRAW_STRING that raised no fault. -/
theorem drawString_ret {col row : Byte} {text : List Byte} {fg bg : Word16} {size : Byte} {s t : State}
    (h : exec (.drawString col row text fg bg size) s = .next t) (hp : t.phase ≠ .failed) :
    t.ret = some (renderedCount (cText text).length col.toNat row.toNat size.toNat) := by
  obtain ⟨-, rfl⟩ := exec_done h rfl hp
  rfl

end Sys2Proof.Machine

namespace Sys2Proof

open Machine

/-- Settles O36: DRAW_CHAR performs its events; the other parts are the order of the cells, the lookup of the bits
and the rejected glyph. -/
theorem drawCharCompletes : Obligations.DrawCharCompletes := by
  intro x y ch fg bg size s hwf hp
  have ha : Admitted (.drawChar x y ch fg bg size) s := admitted_drawing rfl hwf hp
  refine ⟨fun hok => ?_, glyphCells_length hwf, fun k hk => glyphCells_order hwf hk,
    fun hblank => glyphBit_blank hblank, fun hfont => glyphBit_font hwf hfont, fun hreject => ?_⟩
  · obtain ⟨hexec, hperf⟩ := exec_performs (by simp) ha hok
    exact ⟨_, hexec, hperf, rfl⟩
  · exact exec_of_no_act ha (charActs_of_reject ((rejectGlyph_iff hwf _ _ _).2 hreject) ch fg bg)

/-- Settles O37. -/
theorem transparentBackgroundPaintsTheSetBits : Obligations.TransparentBackgroundPaintsTheSetBits := by
  intro x y ch fg bg size s hwf hp
  refine ⟨?_, ?_, fun hx hy hxw hyh hs hok => ?_⟩
  · rw [paintCalls_length, glyphCells_length hwf]
  · rintro ⟨i, j, hi, hj, hbit⟩ rfl
    rw [paintCalls_length, if_pos rfl, ← glyphCells_length hwf]
    exact List.length_filter_lt_length_iff_exists.2
      ⟨(i, j), (mem_glyphCells hwf i j).2 ⟨hi, hj⟩, by simp [hbit]⟩
  · have hpos : 0 < size.toNat := Nat.pos_of_ne_zero fun h0 => hs (BitVec.eq_of_toNat_eq h0)
    have htxs := charEvents_txs hwf hx hy hxw hyh hpos ch fg bg
    obtain ⟨hexec, hperf⟩ := exec_performs (i := .drawChar x y ch fg bg size) (by simp)
      (admitted_drawing rfl hwf hp) (by rw [expectedEvents, htxs]; exact hok)
    exact ⟨_, _, hexec, hperf.trace, htxs⟩

/-- Settles O38: at size 0 there is no act, and the count is the text's length. -/
theorem sizeZeroEmitsNothing : Obligations.SizeZeroEmitsNothing := by
  intro x y ch fg bg col row text s hwf hp
  refine ⟨exec_of_no_act (admitted_drawing rfl hwf hp) (size_zero_acts _ _ _ _ _ _),
    fun hrow hcol => ?_⟩
  have hcount : renderedCount (cText text).length col.toNat row.toNat (0 : Byte).toNat =
      (cText text).length := by
    rw [renderedCount, if_neg (by omega), if_neg (by omega)]; rfl
  have hexec := exec_of_no_act (i := .drawString col row text fg bg 0) (admitted_drawing rfl hwf hp)
    (stringActs_zero _ _ _ _ _ _)
  rwa [conclude, hcount] at hexec

/-- Settles O39: `glass_char_cell` and `glass_char_outside` for the events DRAW_CHAR performs. -/
theorem drawCharShowsTheGlyph : Obligations.DrawCharShowsTheGlyph := by
  intro x y ch fg bg size s hwf hp hm _ hok
  obtain ⟨hexec, hperf⟩ := exec_performs (i := .drawChar x y ch fg bg size) (by simp)
    (admitted_drawing rfl hwf hp) hok
  refine ⟨_, hexec, fun gx gy => ⟨fun i j hi hj hc => ?_, fun hc => glass_char_outside hwf hm hperf hc⟩⟩
  rw [glass_char_cell hwf hm hperf hi hj hc, paintedIn]
  cases glyphBit (glyphOf s.cfg ch) i j with
  | true => rfl
  | false => by_cases h : fg = bg <;> simp [h]

/-- Settles O40. -/
theorem drawStringCompletes : Obligations.DrawStringCompletes := by
  intro col row text fg bg size s hwf hp hok
  obtain ⟨hexec, hperf⟩ := exec_performs (i := .drawString col row text fg bg size) (by simp)
    (admitted_drawing rfl hwf hp) hok
  exact ⟨_, hexec, hperf, rfl⟩

/-- Settles O41: a row past the last has no act; otherwise the count's closed form, case by case. -/
theorem drawStringReturnLaws : Obligations.DrawStringReturnLaws := by
  intro col row text fg bg size s hwf hp
  refine ⟨fun hrow => ?_, fun t h hnf hrow hs => ?_⟩
  · have hcount : renderedCount (cText text).length col.toNat row.toNat size.toNat = 0 := if_pos hrow
    have hexec := exec_of_no_act (i := .drawString col row text fg bg size)
      (admitted_drawing rfl hwf hp) (by rw [script, stringActs, hcount]; rfl)
    rwa [conclude, hcount] at hexec
  · have hpos : size.toNat ≠ 0 := fun h0 => hs (BitVec.eq_of_toNat_eq h0)
    rw [drawString_ret h hnf, renderedCount, if_neg (by omega)]
    refine ⟨fun hcol => ?_, fun hcol => ?_, ?_⟩
    · rw [if_neg (by omega), if_neg hpos]
    · rw [if_pos hcol]
    · rintro rfl rfl hlen
      rw [hlen]; rfl

end Sys2Proof
end

/-! ## The fault and receiver families: a failing transaction (60_exceptions.md R264, 43_panel_receiver.md R245), and
the wire commands as the controller executes them (43_panel_receiver.md R235 to R240) -/

section

namespace Sys2Proof.Machine

/-! ### A failing transaction -/

/-- R245: after a failing transaction the window registers, the pointer and the count are unknown. -/
theorem failTx_registers (s : State) (mode : Mode) (bs : List Byte) (d : Nat) :
    (s.failTx mode bs d).panel.xs = none ∧ (s.failTx mode bs d).panel.xe = none ∧
      (s.failTx mode bs d).panel.ys = none ∧ (s.failTx mode bs d).panel.ye = none ∧
      (s.failTx mode bs d).panel.ptr = none ∧ (s.failTx mode bs d).panel.left = none :=
  ⟨rfl, rfl, rfl, rfl, rfl, rfl⟩

/-! ### The wire commands -/

/-- R239: an address below the last one goes on without a wrap (log 20). -/
theorem toNat_add_one {v : Word16} (h : v.toNat < 65535) : (v + 1).toNat = v.toNat + 1 := by
  rw [BitVec.toNat_add, show (1 : Word16).toNat = 1 from rfl, Nat.mod_eq_of_lt (by omega)]

/-- R235: CASET sets the receiver to what it makes of the command and its data. -/
theorem exec_caset {s : State} (hwf : s.cfg.wf = true) (data : List Byte) : exec (.caset data) s =
    .next (s.setPanel ((s.panel.receive s.cfg .command [s.cfg.opCaset]).receive s.cfg .data data)) :=
  exec_wire rfl hwf

/-- R236: the same of RASET. -/
theorem exec_raset {s : State} (hwf : s.cfg.wf = true) (data : List Byte) : exec (.raset data) s =
    .next (s.setPanel ((s.panel.receive s.cfg .command [s.cfg.opRaset]).receive s.cfg .data data)) :=
  exec_wire rfl hwf

/-- R237: the same of RAMWR. -/
theorem exec_ramwr {s : State} (hwf : s.cfg.wf = true) (data : List Byte) : exec (.ramwr data) s =
    .next (s.setPanel ((s.panel.receive s.cfg .command [s.cfg.opRamwr]).receive s.cfg .data data)) :=
  exec_wire rfl hwf

theorem Panel.receive_data_append (cfg : Config) (p : Panel) (a b : List Byte) :
    p.receive cfg .data (a ++ b) = (p.receive cfg .data a).receive cfg .data b := List.foldl_append

/-- R235: CASET with at least four bytes. -/
theorem Panel.receive_caset_long {cfg : Config} (p : Panel) (b0 b1 b2 b3 : Byte) (extra : List Byte) :
    (p.receive cfg .command [cfg.opCaset]).receive cfg .data (b0 :: b1 :: b2 :: b3 :: extra) =
      { p.endPhase with
        rx := .idle, xs := some (joinBytes b0 b1), xe := some (joinBytes b2 b3) } := by
  rw [show b0 :: b1 :: b2 :: b3 :: extra = [b0, b1, b2, b3] ++ extra from rfl, receive_data_append,
    receive_caset]
  exact data_idle rfl extra

/-- R236: RASET with at least four bytes. -/
theorem Panel.receive_raset_long {cfg : Config} (h : cfg.opCaset ≠ cfg.opRaset) (p : Panel)
    (b0 b1 b2 b3 : Byte) (extra : List Byte) :
    (p.receive cfg .command [cfg.opRaset]).receive cfg .data (b0 :: b1 :: b2 :: b3 :: extra) =
      { p.endPhase with
        rx := .idle, ys := some (joinBytes b0 b1), ye := some (joinBytes b2 b3) } := by
  rw [show b0 :: b1 :: b2 :: b3 :: extra = [b0, b1, b2, b3] ++ extra from rfl, receive_data_append,
    receive_raset h]
  exact data_idle rfl extra

/-- R235: CASET with fewer than four bytes leaves them pending. -/
theorem Panel.receive_caset_short {cfg : Config} (p : Panel) {data : List Byte} (hd : data.length < 4) :
    (p.receive cfg .command [cfg.opCaset]).receive cfg .data data =
      { p.endPhase with rx := .param .column data } := by
  have hop : p.receive cfg .command [cfg.opCaset] = { p.endPhase with rx := .param .column [] } := by
    simp [receive, commandByte]
  rw [hop]
  exact data_short rfl hd

/-- R236: RASET with fewer than four bytes leaves them pending. -/
theorem Panel.receive_raset_short {cfg : Config} (h : cfg.opCaset ≠ cfg.opRaset) (p : Panel)
    {data : List Byte} (hd : data.length < 4) :
    (p.receive cfg .command [cfg.opRaset]).receive cfg .data data =
      { p.endPhase with rx := .param .row data } := by
  have hop : p.receive cfg .command [cfg.opRaset] = { p.endPhase with rx := .param .row [] } := by
    simp [receive, commandByte, h.symm]
  rw [hop]
  exact data_short rfl hd

/-- R234, R235: a command behind a short parameter list finds that register pair unknown. -/
theorem Panel.endPhase_of_short {p : Panel} {reg : WinReg} {buf : List Byte} (h : p.rx = .param reg buf)
    (hb : buf.length < 4) : p.endPhase = { p.setWindow reg none none with half := none } := by
  unfold endPhase
  rw [h]
  exact if_pos hb

/-- R237: RAMWR in the receiver, outside a pending parameter list. -/
theorem Panel.receive_ramwr_of_no_param {cfg : Config} (hl : LegalConfig cfg) {p : Panel}
    (h : ∀ reg buf, p.rx ≠ .param reg buf) :
    p.receive cfg .command [cfg.opRamwr] = { p with half := none }.startWrite := by
  rw [receive_ramwr hl.casetRamwr hl.rasetRamwr, endPhase_of_no_param h]

/-- R237 to R239: RAMWR and the bytes of pixels that fit the window. -/
theorem Panel.ramwr_writing {cfg : Config} (hl : LegalConfig cfg) {p : Panel} {xs xe ys ye : Word16}
    (hno : ∀ reg buf, p.rx ≠ .param reg buf) (h1 : p.xs = some xs) (h2 : p.xe = some xe)
    (h3 : p.ys = some ys) (h4 : p.ye = some ye) (hx : xs ≤ xe) (hy : ys ≤ ye) {pixels : List Word16}
    (hfit : pixels.length ≤ (xe.toNat - xs.toNat + 1) * (ye.toNat - ys.toNat + 1)) :
    Writing ((p.receive cfg .command [cfg.opRamwr]).receive cfg .data
      (pixels.flatMap fun v => [hiByte v, loByte v])) xs xe ys ye p.gram (fun k => pixels.getD k 0)
      pixels.length := by
  rw [receive_ramwr_of_no_param hl hno, stream_of_list]
  have hstart := startWrite_writing (p := { p with half := none }) h1 h2 h3 h4 hx hy
    fun k => pixels.getD k 0
  have h := Writing.stream (BitVec.le_def.1 hx) (BitVec.le_def.1 hy) pixels.length hstart (by omega)
  rwa [Nat.zero_add] at h

/-- R238: the two bytes of a pixel write it. -/
theorem Panel.receive_pixel {p : Panel} {cfg : Config} {hi lo : Byte} (hrx : p.rx = .memWrite)
    (hhalf : p.half = none) : p.receive cfg .data [hi, lo] = p.writePixel (joinBytes hi lo) :=
  dataByte_pair hi lo hrx hhalf

/-- R240: a pixel with no place left in the window overruns it. -/
theorem Panel.writePixel_of_no_left {p : Panel} (h : p.left = none ∨ p.left = some 0) (v : Word16) :
    p.writePixel v = p.overrun := by
  unfold writePixel
  split
  · rename_i hleft _ _
    rcases h with h | h <;> rw [h] at hleft <;> cases hleft
  · rfl

/-- R240: the window is unknown or inverted. -/
def Panel.NoWindow (p : Panel) : Prop :=
  p.xs = none ∨ p.xe = none ∨ p.ys = none ∨ p.ye = none ∨
    ∃ xs xe ys ye, p.xs = some xs ∧ p.xe = some xe ∧ p.ys = some ys ∧ p.ye = some ye ∧
      (xe < xs ∨ ye < ys)

/-- R237: RAMWR with an unknown or inverted window leaves no place for a pixel. -/
theorem Panel.startWrite_no_window {p : Panel} (h : p.NoWindow) :
    p.startWrite = { p with rx := .memWrite, half := none, ptr := none, left := none } := by
  unfold startWrite
  split
  · rename_i h1 h2 h3 h4
    rw [if_neg]
    rintro ⟨hx, hy⟩
    rcases h with h | h | h | h | ⟨xs, xe, ys, ye, e1, e2, e3, e4, h⟩
    · rw [h1] at h; cases h
    · rw [h2] at h; cases h
    · rw [h3] at h; cases h
    · rw [h4] at h; cases h
    · rw [h1] at e1; rw [h2] at e2; rw [h3] at e3; rw [h4] at e4
      cases e1; cases e2; cases e3; cases e4
      rcases h with h | h
      · exact absurd hx (by simpa using h)
      · exact absurd hy (by simpa using h)
  · rfl

/-- R240: every cell counts as inside an unknown or inverted window. -/
theorem Panel.inWindow_no_window {p : Panel} (h : p.NoWindow) (c r : Nat) : p.inWindow c r = true := by
  rcases h with h | h | h | h | ⟨xs, xe, ys, ye, h1, h2, h3, h4, h⟩
  · exact inWindow_unknown (.inl h) c r
  · exact inWindow_unknown (.inr (.inl h)) c r
  · exact inWindow_unknown (.inr (.inr (.inl h))) c r
  · exact inWindow_unknown (.inr (.inr (.inr h))) c r
  · exact inWindow_inverted h1 h2 h3 h4 h c r

end Sys2Proof.Machine

namespace Sys2Proof

open Machine

/-- Settles O42: `exec_fails` gives the part of the script in front of the failing transaction; what that part and
the transaction leave is said field by field. -/
theorem transportErrorStopsTheRequest : Obligations.TransportErrorStopsTheRequest := by
  intro i s n d ha hf hfail hn
  obtain ⟨before, mode, bs, r, rest, hl, htxs, hcut, hexec⟩ := exec_fails ha hfail hn
  obtain ⟨-, hclean, -, hstage⟩ := script_before ha hl
  obtain ⟨-, hfault, -, hinbox, hepoch⟩ := applyAll_flags s before
  obtain ⟨hanswers, hcount⟩ := applyAll_answers s before
  obtain ⟨hpins, hpulse⟩ := before_pins hl
  obtain ⟨hxs, hxe, hys, hye, hptr, hleft⟩ := failTx_registers (s.applyAll before) mode bs d
  have hnone := hfault.trans hf
  have hscratch := before_scratch hl
  rw [htxs] at hanswers hcount hscratch
  refine ⟨_, eventsOf before, mode, bs, hexec, hcut, ?_, rfl, failTx_fault _ _ _ _ hnone,
    failTx_faultInfo _ _ _ _ hnone, rfl, hscratch, fun off hoff => ?_, hpins, hpulse, hxs, hxe, hys, hye,
    hptr, hleft, ?_, ?_, ?_, applyAll_cfg s before, hinbox, hepoch⟩
  · rw [failTx_trace, applyAll_trace s before hclean.ok]
  · exact applyAll_scratch s before fun m c hm => Nat.le_of_not_lt fun hlt => hoff ⟨m, hstage m c hm, hlt⟩
  · rintro hgram q rfl
    have hpanel := before_panel ha hl
    rw [← hpanel]
    exact failTx_window (by rw [hpanel]; exact observe_gram_wf s.cfg _ hgram) mode bs d
  · rw [failTx_answers, hanswers, ← List.drop_one, List.drop_drop]
  · rw [failTx_txCount, hcount]

/-- Settles O43: SEND_COMMAND and a non-empty SEND_PARAMETERS are one transaction, and it fails. -/
theorem failedTransactionForgetsTheWindow : Obligations.FailedTransactionForgetsTheWindow := by
  intro i s d hwf hp hgram herr hi
  obtain ⟨mode, bs, hexec⟩ : ∃ mode bs, exec i s = .next (s.failTx mode bs d) := by
    rcases hi with ⟨op, rfl⟩ | ⟨b, bs, rfl⟩
    · exact ⟨_, _, exec_sendCommand_err hwf hp herr⟩
    · exact ⟨_, _, exec_sendParameters_err hwf hp (by simp) herr⟩
  obtain ⟨hxs, hxe, hys, hye, hptr, hleft⟩ := failTx_registers s mode bs d
  exact ⟨_, hexec, hxs, hxe, hys, hye, hptr, hleft, failTx_window hgram mode bs d⟩

/-- Settles O44. -/
theorem casetSetsTheColumns : Obligations.CasetSetsTheColumns := by
  intro s hwf
  obtain ⟨hgram, hptr, hleft⟩ := Panel.endPhase_gram s.panel
  refine ⟨fun b0 b1 b2 b3 extra => ?_, fun data hd => ?_⟩
  · have hexec := exec_caset hwf (b0 :: b1 :: b2 :: b3 :: extra)
    rw [Panel.receive_caset_long] at hexec
    exact ⟨_, hexec, rfl, rfl, rfl, rfl, Panel.endPhase_half _, hptr, hleft, hgram, Panel.endPhase_rows⟩
  · have hexec := exec_caset hwf data
    rw [Panel.receive_caset_short _ hd] at hexec
    refine ⟨_, hexec, rfl, hgram, fun op => ?_⟩
    obtain ⟨hxs, hxe⟩ :=
      Panel.commandByte_columns s.cfg { s.panel.endPhase with rx := .param .column data } op
    rw [Panel.endPhase_of_short rfl hd] at hxs hxe
    exact ⟨hxs rfl, hxe rfl⟩

/-- Settles O45. -/
theorem rasetSetsTheRows : Obligations.RasetSetsTheRows := by
  intro s hwf
  have hne := (wf_legal hwf).casetRaset
  obtain ⟨hgram, hptr, hleft⟩ := Panel.endPhase_gram s.panel
  refine ⟨fun b0 b1 b2 b3 extra => ?_, fun data hd => ?_⟩
  · have hexec := exec_raset hwf (b0 :: b1 :: b2 :: b3 :: extra)
    rw [Panel.receive_raset_long hne] at hexec
    exact ⟨_, hexec, rfl, rfl, rfl, rfl, Panel.endPhase_half _, hptr, hleft, hgram,
      Panel.endPhase_columns⟩
  · have hexec := exec_raset hwf data
    rw [Panel.receive_raset_short hne _ hd] at hexec
    refine ⟨_, hexec, rfl, hgram, fun op => ?_⟩
    obtain ⟨hys, hye⟩ := Panel.commandByte_rows s.cfg { s.panel.endPhase with rx := .param .row data } op
    rw [Panel.endPhase_of_short rfl hd] at hys hye
    exact ⟨hys rfl, hye rfl⟩

/-- Settles O46: a pixel inside the window writes one cell, and the pointer goes on in exact arithmetic. -/
theorem pixelWriteAdvancesThePointer : Obligations.PixelWriteAdvancesThePointer := by
  intro p v cx cy xs xe n hptr hleft hxs hxe hcy
  have hp : p.writePixel v = { p with
      gram := Gram.write p.gram cx.toNat cy.toNat v
      left := some n
      ptr := some (Panel.advance cx cy xs xe) } := by
    unfold Panel.writePixel; rw [hptr, hleft, hxs, hxe]
  rw [hp]
  refine ⟨Gram.read_write_same _ _ _ _, fun c r hne => Gram.read_write_other _ _ ?_, rfl, ?_, rfl, rfl,
    rfl, rfl, rfl, rfl⟩
  · exact hne.imp (fun h e => h (BitVec.eq_of_toNat_eq e)) fun h e => h (BitVec.eq_of_toNat_eq e)
  · by_cases hend : xe.toNat < cx.toNat + 1
    · exact ⟨xs, cy + 1, congrArg some (if_pos hend), fun hin => by omega,
        fun _ => ⟨rfl, toNat_add_one hcy⟩⟩
    · have hcx : cx.toNat < 65535 := by have := xe.isLt; omega
      exact ⟨cx + 1, cy, congrArg some (if_neg hend), fun _ => ⟨toNat_add_one hcx, rfl⟩,
        fun h => absurd h hend⟩

/-- Settles O47: after RAMWR and pixels that fit, the receiver is in the middle of a memory write of them. -/
theorem ramwrWritesTheWindow : Obligations.RamwrWritesTheWindow := by
  intro s xs xe ys ye pixels hwf hno h1 h2 h3 h4 hx hy hfit
  have hw := Panel.ramwr_writing (wf_legal hwf) hno h1 h2 h3 h4 hx hy hfit
  refine ⟨_, exec_ramwr hwf _, rfl, hw.rx, hw.half, hw.left, fun c r => (hw.gram _ _).trans ?_⟩
  simp only [BitVec.le_def]
  split
  · rename_i hc
    rw [List.getD_eq_getElem?_getD, List.getElem?_eq_getElem hc.2.2.2]; rfl
  · rfl

/-- Settles O48: a pixel that has no place left overruns the window, and every cell counts as inside an unknown or
inverted one. -/
theorem ramwrOutsideTheWindowForgets : Obligations.RamwrOutsideTheWindowForgets := by
  intro s hwf hgram hno
  have hl := wf_legal hwf
  refine ⟨fun hi lo hbad => ?_, fun xs xe ys ye v pixels h1 h2 h3 h4 hx hy hfull => ?_⟩
  · have hexec := exec_ramwr hwf [hi, lo]
    rw [Panel.receive_ramwr_of_no_param hl hno,
      Panel.startWrite_no_window (p := { s.panel with half := none }) hbad,
      Panel.receive_pixel rfl rfl, Panel.writePixel_of_no_left (.inl rfl)] at hexec
    refine ⟨_, hexec, fun c r => ?_⟩
    exact (Panel.overrun_cell hgram c r).trans (if_pos (Panel.inWindow_no_window hbad _ _))
  · have hw := Panel.ramwr_writing hl hno h1 h2 h3 h4 hx hy hfull.le
    have hexec := exec_ramwr hwf ((pixels.flatMap fun v => [hiByte v, loByte v]) ++ [hiByte v, loByte v])
    rw [Panel.receive_data_append] at hexec
    have hcanonical := Panel.receive_gram_wf (Panel.receive_gram_wf hgram s.cfg .command [s.cfg.opRamwr])
      s.cfg .data (pixels.flatMap fun v => [hiByte v, loByte v])
    generalize (s.panel.receive s.cfg .command [s.cfg.opRamwr]).receive s.cfg .data
      (pixels.flatMap fun v => [hiByte v, loByte v]) = q at hw hexec hcanonical
    have hleft : q.left = some 0 := by rw [hw.left, hfull, Nat.sub_self]
    have hin := Panel.inWindow_of hw.hxs hw.hxe hw.hys hw.hye hx hy
    rw [Panel.receive_pixel hw.rx hw.half,
      Panel.writePixel_of_no_left (.inr hleft)] at hexec
    rw [List.flatMap_append, List.flatMap_singleton]
    refine ⟨_, hexec, fun c r a1 a2 a3 a4 => ?_, fun c r hout => ?_⟩
    · rw [BitVec.le_def] at a1 a2 a3 a4
      rw [State.setPanel_panel, Panel.overrun_cell hcanonical, hin]
      simp [a1, a2, a3, a4]
    · simp only [BitVec.le_def] at hout
      rw [State.setPanel_panel, Panel.overrun_cell hcanonical, if_neg (by rw [hin]; simp; omega)]
      refine (hw.gram _ _).trans (if_neg ?_)
      rintro ⟨b1, b2, b3, b4⟩
      refine hout ⟨b1, b2, b3, ?_⟩
      rw [hfull] at b4
      by_contra hge
      rw [BitVec.le_def] at hy
      have hrow := Nat.mul_le_mul_right (xe.toNat - xs.toNat + 1)
        (show ye.toNat - ys.toNat + 1 ≤ r.toNat - ys.toNat by omega)
      rw [Nat.mul_comm (ye.toNat - ys.toNat + 1)] at hrow
      omega

/-- Settles O49. -/
theorem wireCommandsTouchTheReceiverOnly : Obligations.WireCommandsTouchTheReceiverOnly :=
  fun data _ hwf => ⟨⟨_, exec_caset hwf data⟩, ⟨_, exec_raset hwf data⟩, ⟨_, exec_ramwr hwf data⟩⟩

end Sys2Proof
end
